-- ==== Sys2Proof/Word.lean ====
section
/-! DEFINITION. The word types of the block: bytes, the 64-bit port words and the 4-bit device indices
(00_scope.md R12, 30_encoding.md R78, R80). -/

namespace Sys2Proof

/-- A byte: every header field, length, register index, opcode and state word (R12). -/
abbrev Byte := BitVec 8

/-- A command, event or response word (R78, R80, R82). -/
abbrev Word := BitVec 64

/-- The DEV and TGT fields: a device index as the encoding holds it (R84). -/
abbrev DevIx := BitVec 4

end Sys2Proof
end

