-- ==== Sys2Proof/Config.lean ====
section
/-! DEFINITION. The fixed sizes of the block and the parameters a model takes as an argument (00_scope.md R9 to R11).
DESIGN CHOICE, safe (log entry 1): the parameters travel with the state as plain data that no step changes, so a
statement about every state is a statement about every choice of parameters. -/

namespace Sys2Proof

/-- HDR_LEN (R11). -/
abbrev hdrLen : Nat := 8

/-- MAX_PAYLOAD (R10). -/
abbrev maxPayload : Nat := 64

/-- BUF_LEN = HDR_LEN + MAX_PAYLOAD (R9, R50). -/
abbrev bufLen : Nat := hdrLen + maxPayload

/-- SENTINEL (R9, R70). -/
def sentinel : Byte := 0xFF

/-- Which environment is attached to the block: the general one of R185 to R188, whose events all come from the
schedule, or the reference loopback environment of R189. The model's own field (log entry 14). -/
inductive Environment where
  | general
  | loopback
  deriving DecidableEq, Repr

/-- The implementation parameters of R9, each under the spec's name, and the attached environment. -/
structure Config where
  /-- N_DEV, the number of device channels. -/
  nDev : Nat
  /-- REG_COUNT, the register slots of each device. -/
  regCount : Nat
  /-- REG_SIZE, the bytes of a slot. -/
  regSize : Nat
  /-- DEV_ID, the identities in index order. -/
  devId : List (BitVec 32)
  /-- T_SETTLE, a duration on which no rule depends (R194, R220). -/
  tSettle : Nat
  /-- CS_OUT_RESET, true for level 1. -/
  csOutReset : Bool
  /-- The attached environment. -/
  environment : Environment
  deriving DecidableEq, Repr

/-- The ranges R9 states; parameters outside them are refused (93_implementation_defined.md U16). -/
def Config.ok (c : Config) : Bool :=
  decide (1 ≤ c.nDev) && decide (c.nDev ≤ 16) && decide (1 ≤ c.regCount) && decide (c.regCount ≤ 256) &&
    decide (maxPayload ≤ c.regSize) && decide (c.devId.length = c.nDev) && decide c.devId.Nodup

/-- The reference values of R9. DESIGN CHOICE, safe: T_SETTLE has no reference value and stands at 0 (log entry 15). -/
def Config.reference : Config :=
  { nDev := 2, regCount := 4, regSize := 64, devId := [0x00001001, 0x00001002], tSettle := 0,
    csOutReset := true, environment := .general }

end Sys2Proof
end

