-- ==== Sys2Proof/Syntax.lean ====
section
/-! DEFINITION. The instructions of the block: the eight host commands and the six environment events, one constructor
per row of spec/opcode_table.json (30_encoding.md R79, R81), and the two ports that tell a command from an event. -/

namespace Sys2Proof

/-- The two ports; a word means one thing on each (R87, R183). -/
inductive Port where
  /-- The host's command port (R78). -/
  | command
  /-- The environment's event port (R80). -/
  | event
  deriving DecidableEq, Repr

/-- A command or an event with its operands. The bytes of TRANSMIT and EV_RXDONE are those on the data port. -/
inductive Instr where
  /-- INIT (R100). -/
  | init
  /-- IS_INIT (R101). -/
  | isInit
  /-- LOOKUP of a peripheral identity (R102). -/
  | lookup (id : BitVec 32)
  /-- TRANSMIT (R110). `target` is TGT when TGTV = 1 and none when TGTV = 0 (R78). -/
  | transmit (dev : DevIx) (target : Option DevIx) (len dst rxreg rxlen opc : Byte) (data : List Byte)
  /-- RECEIVE (R113). -/
  | receive (dev : DevIx)
  /-- STATUS (R160). -/
  | status (dev : DevIx)
  /-- REGREAD of one slot (R161). -/
  | regread (dev : DevIx) (reg : Byte)
  /-- CLEAR, the corrective action (R162). -/
  | clear (dev : DevIx) (stmask opmask ecmask : Byte)
  /-- EV_TXDONE (R117). -/
  | evTxdone (dev : DevIx)
  /-- EV_RXDONE with the received bytes (R118). -/
  | evRxdone (dev : DevIx) (bytes : List Byte)
  /-- EV_ERROR with the fault code (R140). -/
  | evError (dev : DevIx) (code : Byte)
  /-- EV_ABORT (R141). -/
  | evAbort (dev : DevIx)
  /-- EV_CSFALL (R151). -/
  | evCsfall (dev : DevIx)
  /-- EV_CSRISE (R152). -/
  | evCsrise (dev : DevIx)
  deriving DecidableEq, Repr

/-- What a port carries in one step: the 64-bit word and the bytes of the data port (R78, R80). -/
structure Encoded where
  port : Port
  word : Word
  data : List Byte
  deriving DecidableEq, Repr

end Sys2Proof
end

