-- ==== Sys2Proof/Decode.lean ====
section
/-! DEFINITION. The decoder of command and event words, total and rejecting by name, and the encoder written from the
same tables (30_encoding.md R78 to R84, R87). -/

namespace Sys2Proof

/-- Why a word is no instruction: its code is reserved on its port (R79, R81, R83). What the block then does is
`Machine.reservedCode`. -/
inductive DecodeError where
  /-- CMD 0x0 or 0x9 to 0xF. -/
  | reservedCommand (code : BitVec 4)
  /-- EV 0x0 or 0x7 to 0xF. -/
  | reservedEvent (code : BitVec 4)
  deriving DecidableEq, Repr

/-- CMD or EV, bits 3:0 (R78, R80). -/
def fieldCode (w : Word) : BitVec 4 := w.extractLsb' 0 4

/-- DEV, bits 7:4 (R78, R80). -/
def fieldDev (w : Word) : DevIx := w.extractLsb' 4 4

/-- TGT, bits 11:8 (R78). -/
def fieldTgt (w : Word) : DevIx := w.extractLsb' 8 4

/-- TGTV, bit 12 (R78). -/
def fieldTgtv (w : Word) : Bool := w.getLsbD 12

/-- Bits 15:8: CODE of EV_ERROR (R80). -/
def fieldErrCode (w : Word) : Byte := w.extractLsb' 8 8

/-- Bits 23:16: LEN of TRANSMIT, STMASK of CLEAR (R78). -/
def fieldByte2 (w : Word) : Byte := w.extractLsb' 16 8

/-- Bits 31:24: DST of TRANSMIT, REG of REGREAD, OPMASK of CLEAR (R78). -/
def fieldByte3 (w : Word) : Byte := w.extractLsb' 24 8

/-- Bits 39:32: RXREG of TRANSMIT, ECMASK of CLEAR (R78). -/
def fieldByte4 (w : Word) : Byte := w.extractLsb' 32 8

/-- Bits 47:40: RXLEN of TRANSMIT (R78). -/
def fieldByte5 (w : Word) : Byte := w.extractLsb' 40 8

/-- Bits 55:48: OPC of TRANSMIT (R78). -/
def fieldByte6 (w : Word) : Byte := w.extractLsb' 48 8

/-- Bits 63:32: ID of LOOKUP (R78). -/
def fieldId (w : Word) : BitVec 32 := w.extractLsb' 32 32

/-- A command word with its data bytes (R78, R79). Reserved bits and the fields a command does not use are ignored
(R83, log entry 7). DESIGN CHOICE, unsafe (log entry 24): the spec says nothing of data bytes that come with a command
other than TRANSMIT; they are dropped. -/
def decodeCommand (w : Word) (data : List Byte) : Except DecodeError Instr :=
  match (fieldCode w).toNat with
  | 1 => .ok .init
  | 2 => .ok .isInit
  | 3 => .ok (.lookup (fieldId w))
  | 4 => .ok (.transmit (fieldDev w) (if fieldTgtv w then some (fieldTgt w) else none) (fieldByte2 w) (fieldByte3 w)
      (fieldByte4 w) (fieldByte5 w) (fieldByte6 w) data)
  | 5 => .ok (.receive (fieldDev w))
  | 6 => .ok (.status (fieldDev w))
  | 7 => .ok (.regread (fieldDev w) (fieldByte3 w))
  | 8 => .ok (.clear (fieldDev w) (fieldByte2 w) (fieldByte3 w) (fieldByte4 w))
  | _ => .error (.reservedCommand (fieldCode w))

/-- An event word with its data bytes (R80, R81). DESIGN CHOICE, unsafe (log entry 24): data bytes that come with an event
other than EV_RXDONE are dropped. -/
def decodeEvent (w : Word) (data : List Byte) : Except DecodeError Instr :=
  match (fieldCode w).toNat with
  | 1 => .ok (.evTxdone (fieldDev w))
  | 2 => .ok (.evRxdone (fieldDev w) data)
  | 3 => .ok (.evError (fieldDev w) (fieldErrCode w))
  | 4 => .ok (.evAbort (fieldDev w))
  | 5 => .ok (.evCsfall (fieldDev w))
  | 6 => .ok (.evCsrise (fieldDev w))
  | _ => .error (.reservedEvent (fieldCode w))

/-- The port tells a command word from an event word (R87). -/
def decode (e : Encoded) : Except DecodeError Instr :=
  match e.port with
  | .command => decodeCommand e.word e.data
  | .event => decodeEvent e.word e.data

/-- A field's value at its place in the word: bit 0 of `v` lands on bit `k` (R12, R78). -/
def place {n : Nat} (k : Nat) (v : BitVec n) : Word := v.setWidth 64 <<< k

/-- A command word that carries no operand (R79). -/
def bareWord (code : BitVec 4) : Word := place 0 code

/-- A word that carries only a device index (R78, R80). -/
def devWord (dev : DevIx) (code : BitVec 4) : Word := place 0 code ||| place 4 dev

/-- LOOKUP: ID in 63:32 (R78). -/
def lookupWord (id : BitVec 32) : Word := place 0 (3 : BitVec 4) ||| place 32 id

/-- TRANSMIT: DEV 7:4, TGT 11:8, TGTV 12, LEN 23:16, DST 31:24, RXREG 39:32, RXLEN 47:40, OPC 55:48 (R78). -/
def transmitWord (dev : DevIx) (target : Option DevIx) (len dst rxreg rxlen opc : Byte) : Word :=
  place 0 (4 : BitVec 4) ||| place 4 dev ||| place 8 (target.getD 0) ||| place 12 (BitVec.ofBool target.isSome) |||
    place 16 len ||| place 24 dst ||| place 32 rxreg ||| place 40 rxlen ||| place 48 opc

/-- REGREAD: REG in 31:24 (R78). -/
def regreadWord (dev : DevIx) (reg : Byte) : Word := place 0 (7 : BitVec 4) ||| place 4 dev ||| place 24 reg

/-- CLEAR: STMASK 23:16, OPMASK 31:24, ECMASK 39:32 (R78). -/
def clearWord (dev : DevIx) (stmask opmask ecmask : Byte) : Word :=
  place 0 (8 : BitVec 4) ||| place 4 dev ||| place 16 stmask ||| place 24 opmask ||| place 32 ecmask

/-- EV_ERROR: CODE in 15:8 (R80). -/
def errorWord (dev : DevIx) (code : Byte) : Word := place 0 (3 : BitVec 4) ||| place 4 dev ||| place 8 code

/-- The word and data bytes of an instruction, its reserved bits and unused fields 0 (R78 to R81). -/
def encode : Instr → Encoded
  | .init => ⟨.command, bareWord 1, []⟩
  | .isInit => ⟨.command, bareWord 2, []⟩
  | .lookup id => ⟨.command, lookupWord id, []⟩
  | .transmit dev target len dst rxreg rxlen opc data =>
    ⟨.command, transmitWord dev target len dst rxreg rxlen opc, data⟩
  | .receive dev => ⟨.command, devWord dev 5, []⟩
  | .status dev => ⟨.command, devWord dev 6, []⟩
  | .regread dev reg => ⟨.command, regreadWord dev reg, []⟩
  | .clear dev stmask opmask ecmask => ⟨.command, clearWord dev stmask opmask ecmask, []⟩
  | .evTxdone dev => ⟨.event, devWord dev 1, []⟩
  | .evRxdone dev bytes => ⟨.event, devWord dev 2, bytes⟩
  | .evError dev code => ⟨.event, errorWord dev code, []⟩
  | .evAbort dev => ⟨.event, devWord dev 4, []⟩
  | .evCsfall dev => ⟨.event, devWord dev 5, []⟩
  | .evCsrise dev => ⟨.event, devWord dev 6, []⟩

/-- Whether a word has every reserved bit and every unused field 0: it is the word its instruction is encoded as. A
word with a reserved code has no such word (U3, U13). -/
def canonicalWord (e : Encoded) : Bool :=
  match decode e with
  | .ok i => decide ((encode i).word = e.word)
  | .error _ => false

/-- SEND of R86: a write with no reply requested; `len` is the number of data bytes, as a byte operand. -/
def pseudoSend (dev tgt : DevIx) (dst : Byte) (data : List Byte) : Instr :=
  .transmit dev (some tgt) (BitVec.ofNat 8 data.length) dst 0 0 0 data

/-- REQUEST of R86: a write with a requested turnaround. -/
def pseudoRequest (dev tgt : DevIx) (dst : Byte) (data : List Byte) (rxreg rxlen : Byte) : Instr :=
  .transmit dev (some tgt) (BitVec.ofNat 8 data.length) dst rxreg rxlen 0 data

/-- RESETDEV of R86. -/
def pseudoResetdev (dev : DevIx) : Instr := .clear dev 0x0F 0x03 0xFF

/-- The port, word and data that the opcode table's numbering of an instruction stands for. The table gives no bit to
the port, and the same number names a command and an event (R87), so a number of 64 bits is read on the COMMAND port;
bit 64, one above the word, names the event port. The data port, which the table gives no bits, carries zero bytes,
as many as any TRANSMIT can use (log entry 5). -/
def tableEncoded (nbits w : Nat) : Encoded :=
  { port := if (w % 2 ^ nbits).testBit 64 then .event else .command
    word := BitVec.ofNat 64 (w % 2 ^ nbits)
    data := List.replicate maxPayload 0 }

/-- The instruction the decoder reads from a number in the opcode table's numbering. -/
def decodeTableWord (nbits w : Nat) : Option Instr :=
  (decode (tableEncoded nbits w)).toOption

end Sys2Proof
end

