-- ==== Sys2Proof/Machine/Memory.lean ====
section
/-! DEFINITION. A memory of the block (a packet buffer or a register file, 20_memory.md R50 to R52) as a list of
(offset, byte) cells in one canonical form, and the MemRead and MemWrite of 00_scope.md R13. -/

namespace Sys2Proof.Machine

/-- The cells that differ from the byte an unlisted offset reads as, offsets strictly rising. -/
abbrev Mem := List Host.Cell

/-- What an unlisted offset reads as. DESIGN CHOICE, unsafe (log entry 3): the spec leaves a byte that nothing has
written unspecified and drawn once at reset (R21, U1); the draw is listed in the memory, and a byte the draw does not
list is this one. -/
def memBackground : Byte := 0

/-- The byte at an offset. -/
def Mem.read : Mem → Nat → Byte
  | [], _ => memBackground
  | (k, b) :: m, a => if k = a then b else Mem.read m a

/-- Puts a cell at the head, or nothing where its byte is the unlisted one. -/
def Mem.cons (a : Nat) (b : Byte) (m : Mem) : Mem :=
  if b = memBackground then m else (a, b) :: m

/-- Writes one byte and keeps the canonical form. -/
def Mem.write : Mem → Nat → Byte → Mem
  | [], a, b => Mem.cons a b []
  | (k, c) :: m, a, b =>
    if a < k then Mem.cons a b ((k, c) :: m)
    else if a = k then Mem.cons a b m
    else (k, c) :: Mem.write m a b

/-- Writes a string of bytes from an offset on. -/
def Mem.writeList : Mem → Nat → List Byte → Mem
  | m, _, [] => m
  | m, off, b :: bs => Mem.writeList (m.write off b) (off + 1) bs

/-- MemWrite(buf, off, n, bytes) of R13: the first n bytes of bytes, from offset off on. -/
def Mem.memWrite (m : Mem) (off n : Nat) (bytes : List Byte) : Mem :=
  m.writeList off (bytes.take n)

/-- MemRead(buf, off, n) of R13: n bytes from offset off on. -/
def Mem.memRead (m : Mem) (off n : Nat) : List Byte :=
  (List.range n).map fun k => m.read (off + k)

/-- The canonical form: offsets strictly rising and no cell that holds the unlisted byte. -/
def Mem.wf : Mem → Bool
  | [] => true
  | (a, b) :: m => decide (b ≠ memBackground) && m.all (fun c => decide (a < c.1)) && Mem.wf m

/-- Every listed offset is below a bound: the buffer or the register file ends there (R52). -/
def Mem.within (m : Mem) (bound : Nat) : Bool :=
  m.all fun c => decide (c.1 < bound)

end Sys2Proof.Machine
end

