-- ==== Sys2Proof/Machine/Device.lean ====
section
/-! DEFINITION. One device channel with the fields of 10_state.md R21, what the environment holds about it (R40), and
the values both have after reset (70_reset_and_hazards.md R200, R202). -/

namespace Sys2Proof.Machine

/-- The fields of a device channel, named and sized as R21 lists them. A one-bit field is a Bool, true for 1. -/
structure Device where
  /-- The status word (R22): SEL 0, ERR 1, ABT 2, PHASE 5:3, 7:6 read 0. -/
  state : Byte
  /-- The op bitmask (R29): TX bit 0, RX bit 1. -/
  op : BitVec 2
  /-- tx_pos (R30): false while the header phase is in flight, true in the payload phase and after it. -/
  txPos : Bool
  /-- rx_pos (R30). -/
  rxPos : Bool
  /-- target_device (R31); none is NONE. -/
  targetDevice : Option DevIx
  /-- err_code (R32). -/
  errCode : Byte
  /-- cs_out (R34): true is level 1, deasserted (R150). -/
  csOut : Bool
  /-- tx_buff (R35, R50). -/
  txBuff : Mem
  /-- rx_buff (R35, R50). -/
  rxBuff : Mem
  /-- The register file (R36, R51): slot i begins at `slotBase`. -/
  regs : Mem
  deriving DecidableEq, Repr

/-- What the environment holds about one device (R40 a, b, c). -/
structure LinkSide where
  /-- The outstanding link send and its bytes (R40 a). -/
  send : Option (List Byte)
  /-- The outstanding link receive and its length (R40 b). -/
  recv : Option Nat
  /-- The level of CS_IN (R40 c), true for 1. -/
  csIn : Bool
  deriving DecidableEq, Repr

/-- The drawn contents of one channel's unspecified bytes at a reset (R21, R200, U1), each string from offset 0 on. -/
structure ChannelDraw where
  tx : List Byte
  rx : List Byte
  regs : List Byte
  deriving DecidableEq, Repr

/-- A draw that lists no byte. -/
def ChannelDraw.blank : ChannelDraw := { tx := [], rx := [], regs := [] }

/-- A channel right after reset (R200), its unspecified bytes as drawn. -/
def deviceAtReset (c : Config) (draw : ChannelDraw) : Device :=
  { state := 0, op := 0, txPos := false, rxPos := false, targetDevice := none, errCode := 0, csOut := c.csOutReset,
    txBuff := Mem.memWrite [] 0 bufLen draw.tx
    rxBuff := Mem.memWrite [] 0 bufLen draw.rx
    regs := Mem.memWrite [] 0 (c.regCount * c.regSize) draw.regs }

/-- The environment's side of a channel right after reset (R202): nothing outstanding, CS_IN at CS_OUT_RESET. The rule
gives the level for the reference environment; DEDUCED for the general one (log entry 13). -/
def linkAtReset (c : Config) : LinkSide := { send := none, recv := none, csIn := c.csOutReset }

end Sys2Proof.Machine
end

