-- ==== Sys2Proof/Machine/Flags.lean ====
section
/-! DEFINITION. The status word, the op bitmask and the phase masks of one channel: every flag the block has
(10_state.md R22 to R30; the block has no separate flags register, 00_scope.md R14). -/

namespace Sys2Proof.Machine

/-- SEL, state bit 0 (R22, R23). -/
abbrev maskSel : Byte := 0x01

/-- ERR, state bit 1 (R22, R24). -/
abbrev maskErr : Byte := 0x02

/-- ABT, state bit 2 (R22, R25). -/
abbrev maskAbt : Byte := 0x04

/-- The whole PHASE field, state bits 5:3 (R22, R26). -/
abbrev maskPhase : Byte := 0x38

/-- TX_PENDING (R27). -/
abbrev maskTxPending : Byte := 0x08

/-- TX_COMPLETE (R27). -/
abbrev maskTxComplete : Byte := 0x28

/-- RX_PENDING (R27). -/
abbrev maskRxPending : Byte := 0x10

/-- RX_COMPLETE (R27). -/
abbrev maskRxComplete : Byte := 0x30

/-- ORs a mask into the status word: SetPhase of R27, and the setting of SEL, ERR and ABT. -/
def Device.setState (D : Device) (m : Byte) : Device := { D with state := D.state ||| m }

/-- Clears the bits of a mask in the status word (R152, R162). -/
def Device.clearState (D : Device) (m : Byte) : Device := { D with state := D.state &&& ~~~m }

/-- op.TX, op bit 0 (R29). -/
def Device.opTx (D : Device) : Bool := D.op.getLsbD 0

/-- op.RX, op bit 1 (R29). -/
def Device.opRx (D : Device) : Bool := D.op.getLsbD 1

/-- op.TX <- 1. -/
def Device.setTx (D : Device) : Device := { D with op := D.op ||| 0b01#2 }

/-- op.TX <- 0. -/
def Device.clearTx (D : Device) : Device := { D with op := D.op &&& 0b10#2 }

/-- op.RX <- 1. -/
def Device.setRx (D : Device) : Device := { D with op := D.op ||| 0b10#2 }

/-- op.RX <- 0. -/
def Device.clearRx (D : Device) : Device := { D with op := D.op &&& 0b01#2 }

/-- The PHASE field, state bits 5:3 as {C, R, T} (R26). -/
def phaseOf (state : Byte) : BitVec 3 := state.extractLsb' 3 3

/-- The state bits a CLEAR clears: STMASK bits 2:0 name SEL, ERR and ABT, and bit 3 the whole PHASE (R162). -/
def clearMask (stmask : Byte) : Byte :=
  (stmask &&& 0x07) ||| (if stmask.getLsbD 3 then maskPhase else 0)

/-- The word STATUS returns in bits 62:0 (R82, R160). -/
def statusWord (D : Device) : BitVec 63 :=
  D.state.setWidth 63 ||| D.op.setWidth 63 <<< 8 ||| (BitVec.ofBool D.txPos).setWidth 63 <<< 10 |||
    (BitVec.ofBool D.rxPos).setWidth 63 <<< 11 |||
    (match D.targetDevice with
      | none => 0
      | some t => t.setWidth 63 <<< 12 ||| 1#63 <<< 16) |||
    (BitVec.ofBool D.csOut).setWidth 63 <<< 17 ||| D.errCode.setWidth 63 <<< 24

end Sys2Proof.Machine
end

