-- ==== Sys2Proof/Machine/Operands.lean ====
section
/-! DEFINITION. Operand assembly and the Packet Codec: clamped lengths, the header bytes, the Encode of an outgoing
packet and the fields of a received header (30_encoding.md R70 to R77, R84). -/

namespace Sys2Proof.Machine

/-- A length operand clamped to MAX_PAYLOAD, not rejected (R74). -/
def clampLen (len : Byte) : Byte := if len.toNat ≤ maxPayload then len else BitVec.ofNat 8 maxPayload

/-- The eight header bytes an encoder writes (R70, R75). -/
def headerBytes (opc dst len rxreg rxlen : Byte) : List Byte :=
  [sentinel, sentinel, opc, dst, clampLen len, rxreg, clampLen rxlen, sentinel]

/-- Encode of R75: the header at 0 and the first min(LEN, 64) data bytes at 8; the bytes past them stay (D41). -/
def encodePacket (buf : Mem) (opc dst len rxreg rxlen : Byte) (data : List Byte) : Mem :=
  (buf.memWrite 0 hdrLen (headerBytes opc dst len rxreg rxlen)).memWrite hdrLen (clampLen len).toNat data

/-- hdr_opcode of R76. -/
def hdrOpcode (rx : Mem) : Byte := rx.read 2

/-- hdr_tx_reg of R76; register indices are not clamped. -/
def hdrTxReg (rx : Mem) : Byte := rx.read 3

/-- hdr_tx_len of R76. -/
def hdrTxLen (rx : Mem) : Byte := clampLen (rx.read 4)

/-- hdr_rx_reg of R76. -/
def hdrRxReg (rx : Mem) : Byte := rx.read 5

/-- hdr_rx_len of R76. -/
def hdrRxLen (rx : Mem) : Byte := clampLen (rx.read 6)

/-- The payload length byte of the packet in tx_buff, as TxHeaderDone reads it (R119). -/
def sentLen (tx : Mem) : Nat := (tx.read 4).toNat

/-- Where slot `reg` begins in a register file whose slots have `regSize` bytes (R51). DESIGN CHOICE, safe: the slots
lie one after the other (log entry 18); no slot aliases another (R36). -/
abbrev slotBase (regSize : Nat) (reg : Byte) : Nat := reg.toNat * regSize

end Sys2Proof.Machine
end

