-- ==== Sys2Proof/Machine/State.lean ====
section
/-! DEFINITION. The state of the machine: the block (10_state.md R20, R21), the environment's side of it (R40), what
has been emitted and answered (00_scope.md R13, 60_exceptions.md R193) and the inputs still to come; and the state
after reset (70_reset_and_hazards.md R200 to R202). -/

namespace Sys2Proof.Machine

/-- The output actions of R13 and R185. -/
inductive Action where
  /-- Begin an asynchronous send of these bytes on d's peripheral. -/
  | linkSend (d : DevIx) (bytes : List Byte)
  /-- Begin an asynchronous receive of n bytes on d's peripheral. -/
  | linkRecv (d : DevIx) (n : Nat)
  /-- Drive t's output chip-select to a level, true for 1. -/
  | csDrive (t : DevIx) (level : Bool)
  /-- The blocking delay primitive. -/
  | settle (duration : Nat)
  deriving DecidableEq, Repr

/-- What leaves the block, in order: output actions and, for each host command, one response (R13, R82, R193). -/
inductive Output where
  | action (a : Action)
  | response (word : Word) (bytes : List Byte)
  deriving DecidableEq, Repr

/-- An event word and its data bytes, not yet delivered (R40 c, d). -/
structure Event where
  word : Word
  data : List Byte
  deriving DecidableEq, Repr

/-- The three agents (R7). -/
inductive Agent where
  /-- Issues the commands and polls (R7 a). -/
  | host
  /-- Delivers the events, and may apply the block reset (R7 b, R201). -/
  | environment
  /-- Handles one command or one event in each of its steps; never steps on its own (R7 c). -/
  | block
  deriving DecidableEq, Repr

/-- What comes next. The order of inputs is the schedule, which the spec leaves free (R178, U9). -/
inductive Input where
  /-- The host puts a word and data bytes on the command port (R78). -/
  | command (word : Word) (data : List Byte)
  /-- The environment puts a word and data bytes on the event port (R80). -/
  | event (word : Word) (data : List Byte)
  /-- The environment applies the block reset; the unspecified bytes take the drawn values (R200, R201, U1). -/
  | reset (draw : List ChannelDraw)
  /-- The reference environment completes the outstanding send of c together with its peer's receive (R189 c). -/
  | pair (c : DevIx)
  /-- The reference environment delivers the k-th of its undelivered events (R189 a, c). -/
  | deliver (k : Nat)
  deriving DecidableEq, Repr

/-- Why the machine stops with a fault. All of them are raised in states no run from reset reaches. -/
inductive Fault where
  /-- `step`: a channel holds PHASE 0b100 (R26, U2). Safe. -/
  | reservedPhase
  /-- `step`: a channel holds a 1 in state bit 6 or 7 (R22, U14). Safe. -/
  | reservedStateBits
  /-- `txHeaderDone`: the payload read would run past tx_buff, where no address exists (R52). Safe. -/
  | pastBuffer
  deriving DecidableEq, Repr

/-- Why an input has no meaning. -/
inductive Refusal where
  /-- `exec`: an instruction without a meaning; no arm of this model answers it. Safe. -/
  | notModelled (mnemonic : String)
  /-- `step`: the parameters lie outside the ranges of R9 (U16). Safe. -/
  | badParameters
  /-- `execTransmit`, `admitInput`: a TRANSMIT with fewer than min(LEN, 64) data bytes (R190, U6). Safe. -/
  | shortData
  /-- `execEvRxdone`, `admitInput`: a receive completion of a length other than the one asked for (R118, R187, U4). Safe. -/
  | receiveLength
  /-- `takeInput`: a send with no matching receive on the peer has no completion step (R189 e, U12). Safe. -/
  | noMatchingReceive
  /-- `takeInput`: the schedule names an undelivered event that is not there. Safe. -/
  | nothingToDeliver
  /-- `takeInput`: an edge event would overtake an earlier edge event (R178 b, R189 a). Safe. -/
  | edgeOrder
  /-- `takeInput`, `admitInput`: with the reference environment attached, a completion that no pairing made or an edge
  that no drive made (R189 a to c, U12). Safe. -/
  | foreignEvent
  /-- `admitInput`: a reserved command or event code (U3). Safe. -/
  | reservedCode
  /-- `admitInput`: a reserved bit or an unused field is not 0 (U13). Safe. -/
  | reservedBits
  /-- `admitInput`: a completion with no operation outstanding in its direction (U5, U18). Safe. -/
  | strayCompletion
  /-- `admitInput`: a CLEAR of an op bit whose direction the link still holds (R190, R211, U7). Safe. -/
  | clearInFlight
  deriving DecidableEq, Repr

/-- The whole machine as plain data. -/
structure State where
  /-- The parameters (R9); no step changes them. -/
  cfg : Config
  /-- B.initialized (R33). -/
  initialized : Bool
  /-- The device table (R20), with a place for every value of the 4-bit index; only the first N_DEV are channels
  (log entry 2). -/
  devs : Vector Device 16
  /-- The environment's side of each channel (R40). -/
  links : Vector LinkSide 16
  /-- The reference environment's undelivered events, oldest first (R40 c, d). -/
  undelivered : List Event
  /-- The inputs still to come, next first (log entry 4). -/
  inputs : List Input
  /-- What the block has put out, oldest first (R193). -/
  outputs : List Output
  deriving DecidableEq, Repr

/-- The machine right after reset with given parameters and drawn contents, channel 0's draw first (R200). -/
def State.resetWith (c : Config) (draw : List ChannelDraw) : State :=
  { cfg := c, initialized := false
    devs := Vector.ofFn fun d => deviceAtReset c (draw.getD d.val ChannelDraw.blank)
    links := Vector.replicate 16 (linkAtReset c)
    undelivered := [], inputs := [], outputs := [] }

/-- The machine right after reset with the reference parameters (R9, R200). DESIGN CHOICE, unsafe (log entry 3): every
unspecified byte is the unlisted byte. -/
def State.reset : State := State.resetWith Config.reference []

end Sys2Proof.Machine
end

