-- ==== Sys2Proof/Machine/Ops.lean ====
section
/-! DEFINITION. The operations every rule is written with (00_scope.md R13): reading and writing a channel, emitting an
output action, responding and rejecting, the gates of commands and events, and the procedures the spec's rules share:
SelectSequence and Deselect (43_selection.md R154, R155), the acceptance checks and the effect of TRANSMIT and RECEIVE
(41_transfer.md R110 to R113), the turnaround (R123). The block has no exception to take or return from: taking an
event is one step that saves nothing (60_exceptions.md R176, R180, R181), and a rejected command is `State.reject`. -/

namespace Sys2Proof.Machine

/-- D[d]. -/
def State.dev (s : State) (d : DevIx) : Device := s.devs[d.toNat]'d.isLt

/-- D[d] <- D. -/
def State.setDev (s : State) (d : DevIx) (D : Device) : State := { s with devs := s.devs.set d.toNat D d.isLt }

/-- A read-modify-write of one channel; every step is atomic (R55). -/
def State.modDev (s : State) (d : DevIx) (f : Device → Device) : State := s.setDev d (f (s.dev d))

/-- What the environment holds about d (R40). -/
def State.link (s : State) (d : DevIx) : LinkSide := s.links[d.toNat]'d.isLt

/-- Changes what the environment holds about d. -/
def State.modLink (s : State) (d : DevIx) (f : LinkSide → LinkSide) : State :=
  { s with links := s.links.set d.toNat (f (s.link d)) d.isLt }

/-- d >= N_DEV: the index names no channel (R52, D29). -/
def State.absent (s : State) (d : DevIx) : Bool := decide (s.cfg.nDev ≤ d.toNat)

/-- The edge event a level change on chip-select line t makes: a fall for level 0, a rise for level 1 (R150, R189 a). -/
def edgeEvent (t : DevIx) (level : Bool) : Event :=
  let e := encode (if level then .evCsrise t else .evCsfall t)
  { word := e.word, data := e.data }

/-- What the environment does with an output action: it holds a posted link operation as outstanding (R40 a, b); the
reference environment turns a level change into one undelivered edge event (R189 a, b). -/
def State.environmentTakes (s : State) : Action → State
  | .linkSend d bytes => s.modLink d fun l => { l with send := some bytes }
  | .linkRecv d n => s.modLink d fun l => { l with recv := some n }
  | .csDrive t level =>
    match s.cfg.environment with
    | .general => s
    | .loopback =>
      if (s.link t).csIn = level then s
      else { s.modLink t fun l => { l with csIn := level } with undelivered := s.undelivered ++ [edgeEvent t level] }
  | .settle _ => s

/-- emit A: appends the action to the output list (R13), and the environment takes it. -/
def State.emit (s : State) (a : Action) : State :=
  { s.environmentTakes a with outputs := s.outputs ++ [.action a] }

/-- The response word: OK in bit 63 (R82). -/
def responseWord (ok : Bool) (payload : BitVec 63) : Word := BitVec.ofBool ok ++ payload

/-- respond(ok, word, bytes) of R13. -/
def State.respond (s : State) (ok : Bool) (payload : BitVec 63) (bytes : List Byte) : State :=
  { s with outputs := s.outputs ++ [.response (responseWord ok payload) bytes] }

/-- The classes of a synchronous rejection (R170). The class reaches no port (R13, R170). -/
inductive RejectClass where
  | busy
  | invalidArgument
  | notInitialized
  deriving DecidableEq, Repr

/-- reject(class) of R13: response word 0, no state change, no output action (R172). -/
def State.reject (s : State) (_class : RejectClass) : State := s.respond false 0 []

/-- A response of OK with no payload and no bytes. -/
def State.accept (s : State) : State := s.respond true 0 []

/-- The checks common to the commands that name a channel, in the order of R113, R160 to R162. -/
def checkChannel (s : State) (d : DevIx) : Option RejectClass :=
  if s.initialized = false then some .notInitialized
  else if s.absent d then some .invalidArgument
  else none

/-- TRANSMIT's acceptance checks in the order of R111. -/
def checkTransmit (s : State) (d : DevIx) (target : Option DevIx) (len dst : Byte) : Option RejectClass :=
  if s.initialized = false then some .notInitialized
  else if s.absent d then some .invalidArgument
  else if len.toNat < 1 then some .invalidArgument
  else if s.cfg.regCount ≤ dst.toNat then some .invalidArgument
  else if target.any (fun t => s.absent t) then some .invalidArgument
  else if (s.dev d).opTx then some .busy
  else none

/-- RECEIVE's acceptance checks (R113). -/
def checkReceive (s : State) (d : DevIx) : Option RejectClass :=
  match checkChannel s d with
  | some c => some c
  | none => if (s.dev d).opRx then some .busy else none

/-- REGREAD's acceptance checks (R161). -/
def checkRegread (s : State) (d : DevIx) (reg : Byte) : Option RejectClass :=
  match checkChannel s d with
  | some c => some c
  | none => if s.cfg.regCount ≤ reg.toNat then some .invalidArgument else none

/-- The gate of every event: before INIT, and for an index that names no channel, the event is ignored (R103, D29). -/
def State.ignores (s : State) (d : DevIx) : Bool := !s.initialized || s.absent d

/-- SelectSequence(t) (R154): a level forced high, the settle delay, a level driven low. -/
def selectSequence (t : DevIx) (s : State) : State :=
  let s := (s.modDev t fun D => { D with csOut := true }).emit (.csDrive t true)
  let s := s.emit (.settle s.cfg.tSettle)
  (s.modDev t fun D => { D with csOut := false }).emit (.csDrive t false)

/-- Deselect(t) (R155). -/
def deselect (t : DevIx) (s : State) : State :=
  (s.modDev t fun D => { D with csOut := true }).emit (.csDrive t true)

/-- What an accepted TRANSMIT does to its own channel before it selects (R110): tx-pending, op.TX, the packet in
tx_buff, the phase counter. -/
def startTransmit (len dst rxreg rxlen opc : Byte) (data : List Byte) (D : Device) : Device :=
  let D := (D.setState maskTxPending).setTx
  { D with txBuff := encodePacket D.txBuff opc dst len rxreg rxlen data, txPos := false }

/-- target_device <- TGT and SelectSequence(TGT), where a target is supplied (R110). -/
def selectTarget (d : DevIx) (target : Option DevIx) (s : State) : State :=
  match target with
  | none => s
  | some t => selectSequence t (s.modDev d fun D => { D with targetDevice := some t })

/-- The effect of an accepted TRANSMIT up to its response (R110). -/
def acceptTransmit (d : DevIx) (target : Option DevIx) (len dst rxreg rxlen opc : Byte) (data : List Byte)
    (s : State) : State :=
  let s := selectTarget d target (s.modDev d (startTransmit len dst rxreg rxlen opc data))
  s.emit (.linkSend d ((s.dev d).txBuff.memRead 0 hdrLen))

/-- What an accepted RECEIVE does to its channel (R113). -/
def startReceive (D : Device) : Device :=
  let D := (D.setState maskRxPending).setRx
  { D with rxPos := false }

/-- The effect of an accepted RECEIVE up to its response (R113). -/
def acceptReceive (d : DevIx) (s : State) : State :=
  (s.modDev d startReceive).emit (.linkRecv d hdrLen)

/-- Turnaround(d) (R123): TRANSMIT called inside the step with no target, its response discarded; a rejection leaves
no trace. -/
def turnaround (d : DevIx) (s : State) : State :=
  let rx := (s.dev d).rxBuff
  let q := hdrRxReg rx
  let m := hdrRxLen rx
  if m.toNat ≠ 0 ∧ q.toNat < s.cfg.regCount then
    match checkTransmit s d none m q with
    | some _ => s
    | none =>
      acceptTransmit d none m q 0 0 (hdrOpcode rx)
        ((s.dev d).regs.memRead (slotBase s.cfg.regSize q) m.toNat) s
  else s

/-- What the block does with a word whose code is reserved (R83): a command answers word 0, an event is ignored. -/
def reservedCode (e : DecodeError) (s : State) : State :=
  match e with
  | .reservedCommand _ => s.respond false 0 []
  | .reservedEvent _ => s

/-- The block reset (R200 to R202): the whole block, nothing emitted, the environment's outstanding operations and
undelivered events discarded. What was observed before, and the schedule, are no block state and stay (log entries 17,
19). -/
def State.blockReset (s : State) (draw : List ChannelDraw) : State :=
  { State.resetWith s.cfg draw with inputs := s.inputs, outputs := s.outputs }

/-- Some channel holds the reserved PHASE value 0b100 (R26, U2). -/
def State.holdsReservedPhase (s : State) : Bool :=
  s.devs.toList.zipIdx.any fun p => decide (p.2 < s.cfg.nDev) && phaseOf p.1.state == 0b100#3

/-- Some channel holds a 1 in state bit 6 or 7 (R22, U14). -/
def State.holdsReservedBits (s : State) : Bool :=
  s.devs.toList.zipIdx.any fun p => decide (p.2 < s.cfg.nDev) && p.1.state.extractLsb' 6 2 != 0#2

/-- The model error a state shows, if any (U2, U14). -/
def State.modelError (s : State) : Option Fault :=
  if s.holdsReservedPhase then some .reservedPhase
  else if s.holdsReservedBits then some .reservedStateBits
  else none

end Sys2Proof.Machine
end

