-- ==== Sys2Proof/Machine/FaultEvents.lean ====
section
/-! DEFINITION. The error and abort events: each records a flag and frees nothing (42_fault_events.md R140 to R143). -/

namespace Sys2Proof.Machine

/-- EV_ERROR (R140): ERR, and CODE ORed into err_code. -/
def execEvError (d : DevIx) (code : Byte) (s : State) : Host.Outcome State Fault Refusal :=
  if s.ignores d then .next s
  else .next (s.modDev d fun D => { D.setState maskErr with errCode := D.errCode ||| code })

/-- EV_ABORT (R141): ABT. -/
def execEvAbort (d : DevIx) (s : State) : Host.Outcome State Fault Refusal :=
  if s.ignores d then .next s
  else .next (s.modDev d fun D => D.setState maskAbt)

end Sys2Proof.Machine
end

