-- ==== Sys2Proof/Machine/HostAccess.lean ====
section
/-! DEFINITION. The host's observation and corrective commands: STATUS, REGREAD, CLEAR (44_host_access.md R160 to
R162). -/

namespace Sys2Proof.Machine

/-- STATUS (R160). -/
def execStatus (d : DevIx) (s : State) : Host.Outcome State Fault Refusal :=
  match checkChannel s d with
  | some c => .next (s.reject c)
  | none => .next (s.respond true (statusWord (s.dev d)) [])

/-- REGREAD (R161): the REG_SIZE bytes of the slot. -/
def execRegread (d : DevIx) (reg : Byte) (s : State) : Host.Outcome State Fault Refusal :=
  match checkRegread s d reg with
  | some c => .next (s.reject c)
  | none => .next (s.respond true 0 ((s.dev d).regs.memRead (slotBase s.cfg.regSize reg) s.cfg.regSize))

/-- The bits of `state` and `err_code` a CLEAR clears (R162). -/
def clearBits (stmask ecmask : Byte) (D : Device) : Device :=
  { D.clearState (clearMask stmask) with errCode := D.errCode &&& ~~~ecmask }

/-- OPMASK bit 0 of CLEAR (R162): op.TX, and with it the target, which is deselected. -/
def clearOpTx (d : DevIx) (opmask : Byte) (s : State) : State :=
  if opmask.getLsbD 0 = true ∧ (s.dev d).opTx = true then
    let s := s.modDev d Device.clearTx
    match (s.dev d).targetDevice with
    | none => s
    | some t => deselect t (s.modDev d fun D => { D with targetDevice := none })
  else s

/-- OPMASK bit 1 of CLEAR (R162): op.RX. -/
def clearOpRx (d : DevIx) (opmask : Byte) (s : State) : State :=
  if opmask.getLsbD 1 = true then s.modDev d Device.clearRx else s

/-- CLEAR (R162). STMASK bits 7:4 and OPMASK bits 7:2 are ignored. -/
def execClear (d : DevIx) (stmask opmask ecmask : Byte) (s : State) : Host.Outcome State Fault Refusal :=
  match checkChannel s d with
  | some c => .next (s.reject c)
  | none =>
    .next (clearOpRx d opmask (clearOpTx d opmask (s.modDev d (clearBits stmask ecmask)))).accept

end Sys2Proof.Machine
end

