-- ==== Sys2Proof/Machine/Registry.lean ====
section
/-! DEFINITION. The Device Registry commands: INIT, IS_INIT, LOOKUP (40_registry.md R100 to R103). -/

namespace Sys2Proof.Machine

/-- INIT (R100): sets `initialized`, once; always OK. -/
def execInit (s : State) : Host.Outcome State Fault Refusal :=
  .next (if s.initialized = false then { s with initialized := true }.accept else s.accept)

/-- IS_INIT (R101): bit 0 is `initialized`. -/
def execIsInit (s : State) : Host.Outcome State Fault Refusal :=
  .next (s.respond true ((BitVec.ofBool s.initialized).setWidth 63) [])

/-- The first channel, in index order, with an identity (R102). -/
def lookupIndex (c : Config) (id : BitVec 32) : Option Nat :=
  (List.range c.nDev).find? fun d => decide (c.devId[d]? = some id)

/-- LOOKUP (R102). -/
def execLookup (id : BitVec 32) (s : State) : Host.Outcome State Fault Refusal :=
  if s.initialized = false then .next (s.reject .notInitialized)
  else
    match lookupIndex s.cfg id with
    | some d => .next (s.respond true (BitVec.ofNat 63 d) [])
    | none => .next (s.respond false 0 [])

end Sys2Proof.Machine
end

