-- ==== Sys2Proof/Machine/Selection.lean ====
section
/-! DEFINITION. The chip-select edge events (43_selection.md R151 to R153, R156). -/

namespace Sys2Proof.Machine

/-- EV_CSFALL (R151): SEL, and a receive armed where no operation is in flight in either direction. The RECEIVE it
runs has no response: only a host command responds (R82). -/
def execEvCsfall (d : DevIx) (s : State) : Host.Outcome State Fault Refusal :=
  if s.ignores d then .next s
  else
    let s := s.modDev d fun D => D.setState maskSel
    if (s.dev d).op = 0 then .next (acceptReceive d s) else .next s

/-- EV_CSRISE (R152): clears SEL and nothing else. -/
def execEvCsrise (d : DevIx) (s : State) : Host.Outcome State Fault Refusal :=
  if s.ignores d then .next s
  else .next (s.modDev d fun D => D.clearState maskSel)

end Sys2Proof.Machine
end

