-- ==== Sys2Proof/Machine/Transfer.lean ====
section
/-! DEFINITION. The Transfer Engine: TRANSMIT, RECEIVE and the completion events with their two phases
(41_transfer.md R110 to R124). -/

namespace Sys2Proof.Machine

/-- TRANSMIT (R110, R111). An accepted TRANSMIT whose data port carries fewer than min(LEN, 64) bytes has no effect
given (R78, R190) and is refused (U6, log entry 10). -/
def execTransmit (d : DevIx) (target : Option DevIx) (len dst rxreg rxlen opc : Byte) (data : List Byte)
    (s : State) : Host.Outcome State Fault Refusal :=
  match checkTransmit s d target len dst with
  | some c => .next (s.reject c)
  | none =>
    if data.length < (clampLen len).toNat then .refused .shortData
    else .next (acceptTransmit d target len dst rxreg rxlen opc data s).accept

/-- RECEIVE (R113). -/
def execReceive (d : DevIx) (s : State) : Host.Outcome State Fault Refusal :=
  match checkReceive s d with
  | some c => .next (s.reject c)
  | none => .next (acceptReceive d s).accept

/-- TxHeaderDone(d) (R119). A length byte that no TRANSMIT wrote could reach past the buffer, where no address exists
(R52): a fault in states no run reaches (log entry 16). -/
def txHeaderDone (d : DevIx) (s : State) : Host.Outcome State Fault Refusal :=
  let s := s.modDev d fun D => { D with txPos := true }
  let n := sentLen (s.dev d).txBuff
  if hdrLen + n ≤ bufLen then .next (s.emit (.linkSend d ((s.dev d).txBuff.memRead hdrLen n)))
  else .fault .pastBuffer

/-- TxPayloadDone(d) (R120). -/
def txPayloadDone (d : DevIx) (s : State) : State :=
  let s :=
    match (s.dev d).targetDevice with
    | none => s
    | some t => (deselect t s).modDev d fun D => { D with targetDevice := none }
  s.modDev d fun D => (D.setState maskTxComplete).clearTx

/-- EV_TXDONE (R117): ignored when no transmit is in flight (D19). -/
def execEvTxdone (d : DevIx) (s : State) : Host.Outcome State Fault Refusal :=
  if s.ignores d then .next s
  else if (s.dev d).opTx = false then .next s
  else if (s.dev d).txPos = false then txHeaderDone d s
  else .next (txPayloadDone d s)

/-- How many bytes the receive in flight asked for: 8 in phase 0, the declared payload length in phase 1 (R118). -/
def Device.expectedRx (D : Device) : Nat :=
  if D.rxPos = false then hdrLen else (hdrTxLen D.rxBuff).toNat

/-- RxHeaderDone(d, bytes) (R121). -/
def rxHeaderDone (d : DevIx) (bytes : List Byte) (s : State) : State :=
  let s := s.modDev d fun D => { D with rxBuff := D.rxBuff.memWrite 0 hdrLen bytes, rxPos := true }
  s.emit (.linkRecv d (hdrTxLen (s.dev d).rxBuff).toNat)

/-- The channel's part of RxPayloadDone (R122): the payload into rx_buff, then into the slot its header names where
the length is nonzero and the slot exists, then rx-complete, then op.RX. -/
def storePayload (c : Config) (bytes : List Byte) (D : Device) : Device :=
  let n := (hdrTxLen D.rxBuff).toNat
  let D := { D with rxBuff := D.rxBuff.memWrite hdrLen n bytes }
  let r := hdrTxReg D.rxBuff
  let D :=
    if n ≠ 0 ∧ r.toNat < c.regCount then
      { D with regs := D.regs.memWrite (slotBase c.regSize r) n (D.rxBuff.memRead hdrLen n) }
    else D
  (D.setState maskRxComplete).clearRx

/-- RxPayloadDone(d, bytes) (R122), the turnaround in the same step. -/
def rxPayloadDone (d : DevIx) (bytes : List Byte) (s : State) : State :=
  turnaround d (s.modDev d (storePayload s.cfg bytes))

/-- EV_RXDONE (R118): ignored when no receive is in flight (D19). A byte count other than the one asked for has no
meaning and is refused (U4, log entry 9). -/
def execEvRxdone (d : DevIx) (bytes : List Byte) (s : State) : Host.Outcome State Fault Refusal :=
  if s.ignores d then .next s
  else if (s.dev d).opRx = false then .next s
  else if bytes.length ≠ (s.dev d).expectedRx then .refused .receiveLength
  else if (s.dev d).rxPos = false then .next (rxHeaderDone d bytes s)
  else .next (rxPayloadDone d bytes s)

end Sys2Proof.Machine
end

