-- ==== Sys2Proof/Machine/Dispatch.lean ====
section
/-! DEFINITION. One arm per instruction, each a direct call of its meaning: the handler selection by CMD and EV code
(30_encoding.md R79, R81, 60_exceptions.md R180). -/

namespace Sys2Proof.Machine

def exec (i : Instr) (s : State) : Host.Outcome State Fault Refusal :=
  match i with
  | .init => Sys2Proof.Machine.execInit s
  | .isInit => Sys2Proof.Machine.execIsInit s
  | .lookup id => Sys2Proof.Machine.execLookup id s
  | .transmit dev target len dst rxreg rxlen opc data => Sys2Proof.Machine.execTransmit dev target len dst rxreg rxlen opc data s
  | .receive dev => Sys2Proof.Machine.execReceive dev s
  | .status dev => Sys2Proof.Machine.execStatus dev s
  | .regread dev reg => Sys2Proof.Machine.execRegread dev reg s
  | .clear dev stmask opmask ecmask => Sys2Proof.Machine.execClear dev stmask opmask ecmask s
  | .evTxdone dev => Sys2Proof.Machine.execEvTxdone dev s
  | .evRxdone dev bytes => Sys2Proof.Machine.execEvRxdone dev bytes s
  | .evError dev code => Sys2Proof.Machine.execEvError dev code s
  | .evAbort dev => Sys2Proof.Machine.execEvAbort dev s
  | .evCsfall dev => Sys2Proof.Machine.execEvCsfall dev s
  | .evCsrise dev => Sys2Proof.Machine.execEvCsrise dev s

end Sys2Proof.Machine
end

