-- ==== Sys2Proof/Machine/Schedule.lean ====
section
/-! DEFINITION. Taking one input: a word off a port, the block reset, or a move of the reference loopback environment
(00_scope.md R7, R8; 60_exceptions.md R178, R185 to R189). -/

namespace Sys2Proof.Machine

/-- The completions of d among the undelivered events: its EV_TXDONE and its EV_RXDONE. -/
def completionOf (d : DevIx) (e : Event) : Bool :=
  decide (fieldDev e.word = d) && (decide (fieldCode e.word = 1) || decide (fieldCode e.word = 2))

/-- What delivering an event does to the environment's own side, before the block handles it (R40): a completion ends
the outstanding operation of its direction; an error or an abort ends both, and no completion of them follows, so the
reference environment drops those it still held (R187 d); an edge of the general environment is the level change of
its line. In the reference environment the line changed when it was driven (R189 a). DESIGN CHOICE, unsafe (log entry 25):
where an error or an abort on d comes while both completions of a pairing are undelivered, d's own is dropped and the
peer's stays deliverable. -/
def State.delivered (s : State) : Instr → State
  | .init => s
  | .isInit => s
  | .lookup _ => s
  | .transmit _ _ _ _ _ _ _ _ => s
  | .receive _ => s
  | .status _ => s
  | .regread _ _ => s
  | .clear _ _ _ _ => s
  | .evTxdone d => s.modLink d fun l => { l with send := none }
  | .evRxdone d _ => s.modLink d fun l => { l with recv := none }
  | .evError d _ =>
    { s.modLink d fun l => { l with send := none, recv := none } with
      undelivered := s.undelivered.filter fun e => !completionOf d e }
  | .evAbort d =>
    { s.modLink d fun l => { l with send := none, recv := none } with
      undelivered := s.undelivered.filter fun e => !completionOf d e }
  | .evCsfall d =>
    match s.cfg.environment with
    | .general => s.modLink d fun l => { l with csIn := false }
    | .loopback => s
  | .evCsrise d =>
    match s.cfg.environment with
    | .general => s.modLink d fun l => { l with csIn := true }
    | .loopback => s

/-- Handles one word off a port: the decoded instruction runs, and a reserved code has the effect R83 gives it. -/
def runWord (e : Encoded) (s : State) : Host.Outcome State Fault Refusal :=
  match decode e with
  | .ok i => exec i (s.delivered i)
  | .error err => .next (reservedCode err s)

/-- PEER of the reference environment, given for two devices only (R189 d). -/
def State.peer (s : State) (c : DevIx) : Option DevIx :=
  if s.cfg.environment = .loopback ∧ s.cfg.nDev = 2 then
    if c = 0 then some 1 else if c = 1 then some 0 else none
  else none

/-- An edge event of some chip-select line. -/
def isEdge (e : Event) : Bool := decide (fieldCode e.word = 5) || decide (fieldCode e.word = 6)

/-- The event an instruction stands for. -/
def eventOf (i : Instr) : Event := { word := (encode i).word, data := (encode i).data }

/-- R189 (c): the outstanding send of c and an outstanding receive of the same length on its peer complete together;
both completions become undelivered events. Without such a receive the send has no completion step (R189 e, U12). -/
def pairTransfer (c : DevIx) (s : State) : Host.Outcome State Fault Refusal :=
  match s.peer c with
  | none => .refused .noMatchingReceive
  | some p =>
    match (s.link c).send, (s.link p).recv with
    | some bytes, some n =>
      if bytes.length = n ∧ s.undelivered.any (fun e =>
          (completionOf c e && decide (fieldCode e.word = 1)) || (completionOf p e && decide (fieldCode e.word = 2)))
          = false then
        .next { s with undelivered := s.undelivered ++ [eventOf (.evTxdone c), eventOf (.evRxdone p bytes)] }
      else .refused .noMatchingReceive
    | _, _ => .refused .noMatchingReceive

/-- The k-th undelivered event is an edge and an earlier edge is still undelivered: edges are delivered in the order of
the drives that made them, whatever their lines (R60, R178 b, R189 a). -/
def State.overtakesEdge (s : State) (k : Nat) (e : Event) : Bool := isEdge e && (s.undelivered.take k).any isEdge

/-- Delivers the k-th undelivered event (R189 a, c): in any order (R178), but no edge before an earlier edge. -/
def deliverEvent (k : Nat) (s : State) : Host.Outcome State Fault Refusal :=
  match s.undelivered[k]? with
  | none => .refused .nothingToDeliver
  | some e =>
    if s.overtakesEdge k e then .refused .edgeOrder
    else runWord ⟨.event, e.word, e.data⟩ { s with undelivered := s.undelivered.eraseIdx k }

/-- Whether an instruction may come in from the schedule as it is. A command always may (R183). The general environment
may report any event (R188). In the reference environment a completion comes of a pairing and an edge of a drive only
(R189 a to c, R213, R214, U12), and the link may still report an error or an abort (R186; program P3). -/
def State.mayArrive (s : State) : Instr → Bool
  | .init => true
  | .isInit => true
  | .lookup _ => true
  | .transmit _ _ _ _ _ _ _ _ => true
  | .receive _ => true
  | .status _ => true
  | .regread _ _ => true
  | .clear _ _ _ _ => true
  | .evTxdone _ => decide (s.cfg.environment = .general)
  | .evRxdone _ _ => decide (s.cfg.environment = .general)
  | .evError _ _ => true
  | .evAbort _ => true
  | .evCsfall _ => decide (s.cfg.environment = .general)
  | .evCsrise _ => decide (s.cfg.environment = .general)

/-- The same for an event word; a reserved code is no completion and no edge. -/
def State.mayArriveWord (s : State) (word : Word) (data : List Byte) : Bool :=
  match decode ⟨.event, word, data⟩ with
  | .ok i => s.mayArrive i
  | .error _ => true

/-- Takes one input off the schedule, in one atomic step (R8). -/
def takeInput (i : Input) (s : State) : Host.Outcome State Fault Refusal :=
  match i with
  | .command word data => runWord ⟨.command, word, data⟩ s
  | .event word data => if s.mayArriveWord word data then runWord ⟨.event, word, data⟩ s else .refused .foreignEvent
  | .reset draw => .next (s.blockReset draw)
  | .pair c => pairTransfer c s
  | .deliver k => deliverEvent k s

/-- The agent an input comes from (R7): commands are the host's, everything else is the environment's. -/
def Input.agent : Input → Agent
  | .command _ _ => .host
  | .event _ _ => .environment
  | .reset _ => .environment
  | .pair _ => .environment
  | .deliver _ => .environment

/-- The agent that acts next, the block handling what it brings; none where the schedule is empty (R7, R178). -/
def State.nextAgent (s : State) : Option Agent := s.inputs.head?.map Input.agent

/-- The input that a number in the opcode table's numbering stands for (log entry 5). -/
def tableInput (nbits w : Nat) : Input :=
  let e := tableEncoded nbits w
  match e.port with
  | .command => .command e.word e.data
  | .event => .event e.word e.data

end Sys2Proof.Machine
end

