-- ==== Sys2Proof/Machine/Step.lean ====
section
/-! DEFINITION. One step: the next input of the schedule is handled, in one atomic step (00_scope.md R8). -/

namespace Sys2Proof.Machine

/-- One step. Parameters out of range are refused (U16, log entry 12), a state word no rule produces is a fault (R22,
R26, U2, U14, log entry 11). With no input nothing happens: the block never steps on its own (R7 c, log entry 4). -/
def step (s : State) : Host.Outcome State Fault Refusal :=
  if s.cfg.ok = false then .refused .badParameters
  else
    match s.modelError with
    | some f => .fault f
    | none =>
      match s.inputs with
      | [] => .next s
      | i :: rest => takeInput i { s with inputs := rest }

/-- Puts the instruction a number of the opcode table stands for at the head of the schedule (log entries 4 and 5). -/
def State.withFetchWord (s : State) (nbits w : Nat) : State :=
  { s with inputs := tableInput nbits w :: s.inputs }

end Sys2Proof.Machine
end

