-- ==== Sys2Proof/WellFormed.lean ====
section
/-! DEFINITION. What a transcriber asks of an instruction beyond its operands' widths: the data port carries enough
bytes for a TRANSMIT (30_encoding.md R78, U6), and no more than MAX_PAYLOAD bytes with an EV_RXDONE (60_exceptions.md
R185: no LinkRecv asks for more). The other operands are fields of fixed width, every value of which the encoding
admits (R84). -/

namespace Sys2Proof

/-- The transcriber's check; true where it accepts. -/
def Instr.wellFormed : Instr → Bool
  | .init => true
  | .isInit => true
  | .lookup _ => true
  | .transmit _ _ len _ _ _ _ data => decide ((Machine.clampLen len).toNat ≤ data.length)
  | .receive _ => true
  | .status _ => true
  | .regread _ _ => true
  | .clear _ _ _ _ => true
  | .evTxdone _ => true
  | .evRxdone _ bytes => decide (bytes.length ≤ maxPayload)
  | .evError _ _ => true
  | .evAbort _ => true
  | .evCsfall _ => true
  | .evCsrise _ => true

end Sys2Proof
end

