-- ==== Sys2Proof/Machine/Assembler.lean ====
section
/-! DEFINITION. The textual form: one line per command or event, the pseudo-instructions, and the lines a trace shows
for what the block puts out (30_encoding.md R85, R86). Text is a list of characters. Conventions R85 leaves open are in
log entry 21. -/

namespace Sys2Proof.Machine

/-- Why a line has no meaning. -/
inductive AsmError where
  /-- The first word is no mnemonic of R85 or R86. -/
  | unknownMnemonic
  /-- A word after it is not of the form key=value. -/
  | badOperand
  /-- The key is no operand of the mnemonic. -/
  | unknownOperand
  /-- The key stands twice. -/
  | repeatedOperand
  /-- A SEND or REQUEST without tgt: R86 gives it none (log entry 21). -/
  | missingTarget
  /-- Not a decimal or hexadecimal number, or one wider than its field. -/
  | badNumber
  /-- Neither a quoted ASCII string nor bracketed hex bytes. -/
  | badBytes
  /-- The transcriber refuses the instruction (U6, U4). -/
  | illFormed
  deriving DecidableEq, Repr

/-- The quotation mark. -/
def quoteMark : Char := Char.ofNat 34

/-- A space or a tab. -/
def isBlank (c : Char) : Bool := c == ' ' || c == Char.ofNat 9

/-- The line without its comment (R85). -/
def stripComment (line : List Char) : List Char := line.takeWhile (· != ';')

/-- Splits at blanks outside quotes and brackets. `closing` is the character that ends the open quote or bracket,
`word` what stands of the current word, last character first. -/
def splitWords (closing : Option Char) (word : List Char) : List Char → List (List Char)
  | [] => if word.isEmpty then [] else [word.reverse]
  | c :: cs =>
    match closing with
    | some e => splitWords (if c == e then none else some e) (c :: word) cs
    | none =>
      if isBlank c then
        if word.isEmpty then splitWords none [] cs else word.reverse :: splitWords none [] cs
      else if c == quoteMark then splitWords (some quoteMark) (c :: word) cs
      else if c == '[' then splitWords (some ']') (c :: word) cs
      else splitWords none (c :: word) cs

/-- The value of a decimal or hexadecimal digit, of either letter case. -/
def digitValue (c : Char) : Option Nat :=
  let n := c.toNat
  if 48 ≤ n ∧ n ≤ 57 then some (n - 48)
  else if 65 ≤ n ∧ n ≤ 70 then some (n - 55)
  else if 97 ≤ n ∧ n ≤ 102 then some (n - 87)
  else none

/-- The number a string of digits writes in a base, on top of what stands already. -/
def digitsValue (base acc : Nat) : List Char → Option Nat
  | [] => some acc
  | c :: cs =>
    match digitValue c with
    | none => none
    | some v => if v < base then digitsValue base (acc * base + v) cs else none

/-- A number: hexadecimal with 0x, else decimal (R85). -/
def parseNumber : List Char → Option Nat
  | [] => none
  | '0' :: 'x' :: cs => if cs.isEmpty then none else digitsValue 16 0 cs
  | c :: cs => digitsValue 10 0 (c :: cs)

/-- The ASCII codes of the characters up to the closing quotation mark, which ends the word (R12, R85). -/
def parseQuoted : List Char → Option (List Byte)
  | [] => none
  | c :: cs =>
    if c == quoteMark then (if cs.isEmpty then some [] else none)
    else if c.toNat < 128 then (parseQuoted cs).map (BitVec.ofNat 8 c.toNat :: ·)
    else none

/-- A byte of two hexadecimal digits. -/
def parseHexByte : List Char → Option Byte
  | [a, b] => (digitsValue 16 0 [a, b]).map (BitVec.ofNat 8)
  | _ => none

/-- The bytes of a quoted string or of bracketed hex bytes (R85). -/
def parseBytes : List Char → Option (List Byte)
  | [] => none
  | c :: cs =>
    if c == quoteMark then parseQuoted cs
    else if c == '[' && cs.getLast? == some ']' then (splitWords none [] cs.dropLast).mapM parseHexByte
    else none

/-- key=value. -/
def parseOperand (word : List Char) : Except AsmError (List Char × List Char) :=
  match word.dropWhile (· != '=') with
  | [] => .error .badOperand
  | _ :: value => .ok (word.takeWhile (· != '='), value)

/-- The operands of one line. -/
abbrev Operands := List (List Char × List Char)

/-- The operands of a line, each a known key that stands once. -/
def parseOperands (known : List (List Char)) (words : List (List Char)) : Except AsmError Operands :=
  match words.mapM parseOperand with
  | .error e => .error e
  | .ok ops =>
    let keys := ops.map fun o => o.1
    if keys.any (fun k => !known.contains k) then .error .unknownOperand
    else if keys.Nodup then .ok ops
    else .error .repeatedOperand

/-- What an operand's key stands for, where it is given. -/
def operandText (ops : Operands) (key : List Char) : Option (List Char) :=
  (ops.find? fun o => o.1 == key).map fun o => o.2

/-- A number operand of n bits; 0 where it is omitted (R85). -/
def number (n : Nat) (ops : Operands) (key : List Char) : Except AsmError (BitVec n) :=
  match operandText ops key with
  | none => .ok 0
  | some text =>
    match parseNumber text with
    | none => .error .badNumber
    | some v => if v < 2 ^ n then .ok (BitVec.ofNat n v) else .error .badNumber

/-- The bytes of the data operand; none where it is omitted. -/
def dataBytes (ops : Operands) : Except AsmError (List Byte) :=
  match operandText ops "data".toList with
  | none => .ok []
  | some text =>
    match parseBytes text with
    | none => .error .badBytes
    | some bytes => .ok bytes

/-- The target: an omitted tgt means TGTV = 0 (R85). -/
def targetOperand (ops : Operands) : Except AsmError (Option DevIx) :=
  match operandText ops "tgt".toList with
  | none => .ok none
  | some _ => (number 4 ops "tgt".toList).map some

/-- The length: an omitted len means the number of data bytes given (R85). -/
def lengthOperand (ops : Operands) (data : List Byte) : Except AsmError Byte :=
  match operandText ops "len".toList with
  | some _ => number 8 ops "len".toList
  | none => if data.length < 256 then .ok (BitVec.ofNat 8 data.length) else .error .badNumber

/-- A line that carries only a device. -/
def deviceLine (make : DevIx → Instr) (words : List (List Char)) : Except AsmError Instr := do
  let ops ← parseOperands ["dev".toList] words
  return make (← number 4 ops "dev".toList)

/-- LOOKUP of R85. -/
def lookupLine (words : List (List Char)) : Except AsmError Instr := do
  let ops ← parseOperands ["id".toList] words
  return .lookup (← number 32 ops "id".toList)

/-- TRANSMIT of R85. -/
def transmitLine (words : List (List Char)) : Except AsmError Instr := do
  let ops ← parseOperands
    ["dev".toList, "tgt".toList, "len".toList, "dst".toList, "rxreg".toList, "rxlen".toList, "opc".toList,
      "data".toList] words
  let data ← dataBytes ops
  return .transmit (← number 4 ops "dev".toList) (← targetOperand ops) (← lengthOperand ops data)
    (← number 8 ops "dst".toList) (← number 8 ops "rxreg".toList) (← number 8 ops "rxlen".toList)
    (← number 8 ops "opc".toList) data

/-- REGREAD of R85. -/
def regreadLine (words : List (List Char)) : Except AsmError Instr := do
  let ops ← parseOperands ["dev".toList, "reg".toList] words
  return .regread (← number 4 ops "dev".toList) (← number 8 ops "reg".toList)

/-- CLEAR of R85. -/
def clearLine (words : List (List Char)) : Except AsmError Instr := do
  let ops ← parseOperands ["dev".toList, "st".toList, "op".toList, "ec".toList] words
  return .clear (← number 4 ops "dev".toList) (← number 8 ops "st".toList) (← number 8 ops "op".toList)
    (← number 8 ops "ec".toList)

/-- @RXDONE of R85. -/
def rxdoneLine (words : List (List Char)) : Except AsmError Instr := do
  let ops ← parseOperands ["dev".toList, "data".toList] words
  return .evRxdone (← number 4 ops "dev".toList) (← dataBytes ops)

/-- @ERROR of R85. -/
def errorLine (words : List (List Char)) : Except AsmError Instr := do
  let ops ← parseOperands ["dev".toList, "code".toList] words
  return .evError (← number 4 ops "dev".toList) (← number 8 ops "code".toList)

/-- The target of a SEND or REQUEST, which R86 always shows. DESIGN CHOICE, safe (log entry 21): a line without it is an
error, since R86 gives no meaning to it and the default R85 gives an omitted tgt would contradict R86. -/
def requiredTarget (ops : Operands) : Except AsmError DevIx :=
  match operandText ops "tgt".toList with
  | none => .error .missingTarget
  | some _ => number 4 ops "tgt".toList

/-- SEND of R86; another omitted operand is 0 or no bytes, as R85 has it (log entry 21). -/
def sendLine (words : List (List Char)) : Except AsmError Instr := do
  let ops ← parseOperands ["dev".toList, "tgt".toList, "dst".toList, "data".toList] words
  let data ← dataBytes ops
  let _ ← lengthOperand ops data
  return pseudoSend (← number 4 ops "dev".toList) (← requiredTarget ops) (← number 8 ops "dst".toList) data

/-- REQUEST of R86; another omitted operand is 0 or no bytes, as R85 has it (log entry 21). -/
def requestLine (words : List (List Char)) : Except AsmError Instr := do
  let ops ← parseOperands
    ["dev".toList, "tgt".toList, "dst".toList, "data".toList, "rxreg".toList, "rxlen".toList] words
  let data ← dataBytes ops
  let _ ← lengthOperand ops data
  return pseudoRequest (← number 4 ops "dev".toList) (← requiredTarget ops) (← number 8 ops "dst".toList) data
    (← number 8 ops "rxreg".toList) (← number 8 ops "rxlen".toList)

/-- A line without operands. -/
def bareLine (i : Instr) (words : List (List Char)) : Except AsmError Instr :=
  (parseOperands [] words).map fun _ => i

/-- The line of each mnemonic and pseudo-instruction (R85, R86). -/
def parseLine (mnemonic : List Char) (words : List (List Char)) : Except AsmError Instr :=
  if mnemonic = "INIT".toList then bareLine .init words
  else if mnemonic = "IS_INIT".toList then bareLine .isInit words
  else if mnemonic = "LOOKUP".toList then lookupLine words
  else if mnemonic = "TRANSMIT".toList then transmitLine words
  else if mnemonic = "RECEIVE".toList then deviceLine .receive words
  else if mnemonic = "STATUS".toList then deviceLine .status words
  else if mnemonic = "REGREAD".toList then regreadLine words
  else if mnemonic = "CLEAR".toList then clearLine words
  else if mnemonic = "@TXDONE".toList then deviceLine .evTxdone words
  else if mnemonic = "@RXDONE".toList then rxdoneLine words
  else if mnemonic = "@ERROR".toList then errorLine words
  else if mnemonic = "@ABORT".toList then deviceLine .evAbort words
  else if mnemonic = "@CSFALL".toList then deviceLine .evCsfall words
  else if mnemonic = "@CSRISE".toList then deviceLine .evCsrise words
  else if mnemonic = "SEND".toList then sendLine words
  else if mnemonic = "REQUEST".toList then requestLine words
  else if mnemonic = "RESETDEV".toList then deviceLine pseudoResetdev words
  else .error .unknownMnemonic

/-- The instruction a line stands for, none for a line that holds only a comment; the transcriber's check is applied
(93_implementation_defined.md U6). -/
def assemble (line : List Char) : Except AsmError (Option Instr) :=
  match splitWords none [] (stripComment line) with
  | [] => .ok none
  | mnemonic :: words =>
    match parseLine mnemonic words with
    | .error e => .error e
    | .ok i => if i.wellFormed then .ok (some i) else .error .illFormed

/-- An instruction as an input on its port. -/
def inputOf (i : Instr) : Input :=
  let e := encode i
  match e.port with
  | .command => .command e.word e.data
  | .event => .event e.word e.data

/-- One digit, capital above nine. -/
def digitChar (n : Nat) : Char := if n < 10 then Char.ofNat (48 + n) else Char.ofNat (55 + n)

/-- The low k hexadecimal digits of a number, most significant first. -/
def hexDigits : Nat → Nat → List Char
  | 0, _ => []
  | k + 1, n => hexDigits k (n / 16) ++ [digitChar (n % 16)]

/-- A number below 1000 in decimal, without leading zeros: the indices, levels and lengths of a trace are. -/
def decimal (n : Nat) : List Char :=
  (if n < 100 then [] else [digitChar (n / 100 % 10)]) ++ (if n < 10 then [] else [digitChar (n / 10 % 10)]) ++
    [digitChar (n % 10)]

/-- Bracketed hex bytes. -/
def renderBytes (bytes : List Byte) : List Char :=
  ['['] ++ [' '].intercalate (bytes.map fun b => hexDigits 2 b.toNat) ++ [']']

/-- The line a trace shows for an output action or a response (R85). -/
def renderOutput : Output → List Char
  | .action (.csDrive t l) => "> CsDrive(".toList ++ decimal t.toNat ++ ", ".toList ++ decimal l.toNat ++ [')']
  | .action (.settle _) => "> Settle(T_SETTLE)".toList
  | .action (.linkSend d bytes) =>
    "> LinkSend(".toList ++ decimal d.toNat ++ ", ".toList ++ renderBytes bytes ++ [')']
  | .action (.linkRecv d n) => "> LinkRecv(".toList ++ decimal d.toNat ++ ", ".toList ++ decimal n ++ [')']
  | .response word bytes =>
    "< resp=0x".toList ++ hexDigits 16 word.toNat ++
      (if bytes.isEmpty then [] else " bytes=".toList ++ renderBytes bytes)

end Sys2Proof.Machine
end

