-- ==== Sys2Proof/Machine/Admission.lean ====
section
/-! DEFINITION. The admission check: inputs outside the contracts of the host and the link (60_exceptions.md R186,
R187, R190) or outside the transcriber's encodings (93_implementation_defined.md U3 to U7, U13, U18). The block's own
behaviour on such inputs is `step`'s wherever a rule gives it one; `stepAdmitted` is the reading in which the run is
refused by name (log entries 6, 7, 8). -/

namespace Sys2Proof.Machine

/-- The contract that an instruction needs kept, against what the link holds. -/
def admitInstr (i : Instr) (s : State) : Option Refusal :=
  match i with
  | .init => none
  | .isInit => none
  | .lookup _ => none
  | .transmit _ _ _ _ _ _ _ _ => if i.wellFormed then none else some .shortData
  | .receive _ => none
  | .status _ => none
  | .regread _ _ => none
  | .clear d _ opmask _ =>
    if (opmask.getLsbD 0 && (s.link d).send.isSome) || (opmask.getLsbD 1 && (s.link d).recv.isSome)
    then some .clearInFlight else none
  | .evTxdone d => if (s.link d).send.isSome then none else some .strayCompletion
  | .evRxdone d bytes =>
    match (s.link d).recv with
    | none => some .strayCompletion
    | some n => if bytes.length = n then none else some .receiveLength
  | .evError _ _ => none
  | .evAbort _ => none
  | .evCsfall _ => none
  | .evCsrise _ => none

/-- The check of one word off a port: its code (U3), its reserved bits (U13), then its instruction's contract. Data bytes
that come with an instruction that takes none pass (DESIGN CHOICE, log entry 24). -/
def admitWord (e : Encoded) (s : State) : Option Refusal :=
  match decode e with
  | .error _ => some .reservedCode
  | .ok i => if canonicalWord e then admitInstr i s else some .reservedBits

/-- The check of one input: its word, and whether the attached environment makes it (R189). -/
def admitInput (i : Input) (s : State) : Option Refusal :=
  match i with
  | .command word data => admitWord ⟨.command, word, data⟩ s
  | .event word data =>
    match admitWord ⟨.event, word, data⟩ s with
    | some r => some r
    | none => if s.mayArriveWord word data then none else some .foreignEvent
  | .reset _ => none
  | .pair c =>
    match pairTransfer c s with
    | .next _ => none
    | .fault _ => none
    | .refused r => some r
  | .deliver k =>
    match s.undelivered[k]? with
    | none => some .nothingToDeliver
    | some e => if s.overtakesEdge k e then some .edgeOrder else admitWord ⟨.event, e.word, e.data⟩ s

/-- One step of a run that keeps the contracts; an input outside them is refused by name. -/
def stepAdmitted (s : State) : Host.Outcome State Fault Refusal :=
  match s.inputs.head?.bind (fun i => admitInput i s) with
  | some r => .refused r
  | none => step s

end Sys2Proof.Machine
end

