-- ==== Sys2Proof/Safety.lean ====
section
/-! DEFINITION. What claims about the block are stated with: the invariants the rules keep (10_state.md R22, R26, R37,
20_memory.md R52, 41_transfer.md R119), the link contract's invariant (60_exceptions.md R187), the host's predicates
(R38, R192, R193) and the parts of the state a rule leaves alone. -/

namespace Sys2Proof

/-- The channel an event or a command names; none for the commands that name none (R78, R80). -/
def Instr.device : Instr → Option DevIx
  | .init => none
  | .isInit => none
  | .lookup _ => none
  | .transmit d _ _ _ _ _ _ _ => some d
  | .receive d => some d
  | .status d => some d
  | .regread d _ => some d
  | .clear d _ _ _ => some d
  | .evTxdone d => some d
  | .evRxdone d _ => some d
  | .evError d _ => some d
  | .evAbort d => some d
  | .evCsfall d => some d
  | .evCsrise d => some d

/-- Whether an instruction is a host command; the others are events (R79, R81). -/
def Instr.isCommand (i : Instr) : Bool := decide ((encode i).port = .command)

/-- The bits of its word that an instruction uses: its code and the fields R78 and R80 give it; TGT only with TGTV = 1
(log entry 7). -/
def usedBits : Instr → Word
  | .init => 0x000000000000000F
  | .isInit => 0x000000000000000F
  | .lookup _ => 0xFFFFFFFF0000000F
  | .transmit _ target _ _ _ _ _ _ => if target.isSome then 0x00FFFFFFFFFF1FFF else 0x00FFFFFFFFFF10FF
  | .receive _ => 0x00000000000000FF
  | .status _ => 0x00000000000000FF
  | .regread _ _ => 0x00000000FF0000FF
  | .clear _ _ _ _ => 0x000000FFFFFF00FF
  | .evTxdone _ => 0x00000000000000FF
  | .evRxdone _ _ => 0x00000000000000FF
  | .evError _ _ => 0x000000000000FFFF
  | .evAbort _ => 0x00000000000000FF
  | .evCsfall _ => 0x00000000000000FF
  | .evCsrise _ => 0x00000000000000FF

end Sys2Proof

namespace Sys2Proof.Machine

/-- The status word is one the rules can produce: bits 7:6 are 0 and PHASE is not 0b100 (R22, R26). -/
def legalState (state : Byte) : Bool := decide (state.extractLsb' 6 2 = 0#2) && decide (phaseOf state ≠ 0b100#3)

/-- A memory in canonical form that lists no offset outside its buffer (R52). -/
def Mem.legal (m : Mem) (size : Nat) : Bool := m.wf && m.within size

/-- The invariant of one channel. -/
structure Device.Inv (c : Config) (D : Device) : Prop where
  /-- R22, R26. -/
  state : legalState D.state = true
  /-- R37 (4): a target only while op.TX is set. -/
  targetTx : D.targetDevice ≠ none → D.opTx = true
  /-- R31: a target is a device index below N_DEV. -/
  targetIndex : ∀ t, D.targetDevice = some t → t.toNat < c.nDev
  /-- R119: while a transmit is in flight the length byte of tx_buff is 1 to 64. -/
  sent : D.opTx = true → 1 ≤ sentLen D.txBuff ∧ sentLen D.txBuff ≤ maxPayload
  /-- The buffers and the register file hold offsets that exist (R50 to R52), in canonical form. -/
  tx : D.txBuff.legal bufLen = true
  rx : D.rxBuff.legal bufLen = true
  regs : D.regs.legal (c.regCount * c.regSize) = true

/-- The channel's scalar fields stand at their reset values (R200). -/
def Device.scalarsAtReset (c : Config) (D : Device) : Prop :=
  D.state = 0 ∧ D.op = 0 ∧ D.txPos = false ∧ D.rxPos = false ∧ D.targetDevice = none ∧ D.errCode = 0 ∧
    D.csOut = c.csOutReset

/-- The invariant of the machine: parameters in range, every channel's invariant, and before INIT no channel has left
its reset values (R9, R100, R103). -/
structure State.Inv (s : State) : Prop where
  cfg : s.cfg.ok = true
  devs : ∀ d, s.absent d = false → (s.dev d).Inv s.cfg
  fresh : s.initialized = false → ∀ d, s.absent d = false → (s.dev d).scalarsAtReset s.cfg

/-- The invariant of a run that keeps the contracts: what the link holds belongs to a direction in flight of a channel
that exists, and a receive it holds is the one the channel waits for (R40, R186, R187). -/
def State.LinkInv (s : State) : Prop :=
  ∀ d, ((s.link d).send.isSome = true → s.absent d = false ∧ (s.dev d).opTx = true) ∧
    ∀ n, (s.link d).recv = some n → s.absent d = false ∧ (s.dev d).opRx = true ∧ n = (s.dev d).expectedRx

/-- The states of R38's view of one direction. -/
inductive DirView where
  | idle
  | headerInFlight
  | payloadInFlight
  | complete
  | faulted
  deriving DecidableEq, Repr

/-- DirView of R38 for one direction: its op bit, its phase counter and its PHASE bit. The view is informative. -/
def dirView (state : Byte) (opBit pos phaseBit : Bool) : DirView :=
  if opBit && (state.getLsbD 1 || state.getLsbD 2) then .faulted
  else if opBit && !pos then .headerInFlight
  else if opBit then .payloadInFlight
  else if state.getLsbD 5 && phaseBit then .complete
  else .idle

/-- The transmit direction's view (R38). -/
def Device.txView (D : Device) : DirView := dirView D.state D.opTx D.txPos (D.state.getLsbD 3)

/-- The receive direction's view (R38). -/
def Device.rxView (D : Device) : DirView := dirView D.state D.opRx D.rxPos (D.state.getLsbD 4)

/-- The monitor's stop condition for a controller and a target (R192). -/
def State.quiescent (s : State) (c t : DevIx) : Bool :=
  decide ((s.dev c).op = 0) && decide ((s.dev t).op = 0) && !(s.dev t).state.getLsbD 0

/-- The state bits that differ between two samples: what the monitor reports (R5, R192). -/
def stateDelta (before after : Byte) : Byte := before ^^^ after

/-- The link holds an operation it has not answered (R40, R186). -/
def State.outstanding (s : State) : Bool := s.links.toList.any fun l => l.send.isSome || l.recv.isSome

/-- The end of a run (R193): no further input, nothing outstanding on the link, nothing undelivered. -/
def State.ended (s : State) : Bool := s.inputs.isEmpty && s.undelivered.isEmpty && !s.outstanding

/-- A run that waits for a link that may never answer: no further input while the link holds an operation or an event
is undelivered (R186, R193, R212, U11). -/
def State.waiting (s : State) : Bool := s.inputs.isEmpty && !s.ended

/-- An answer of the link: the completion of an operation it holds, with the bytes asked for, or an error or abort of a
channel it holds an operation of (R186, R187). -/
def State.isAnswer (s : State) : Instr → Bool
  | .init => false
  | .isInit => false
  | .lookup _ => false
  | .transmit _ _ _ _ _ _ _ _ => false
  | .receive _ => false
  | .status _ => false
  | .regread _ _ => false
  | .clear _ _ _ _ => false
  | .evTxdone d => (s.link d).send.isSome
  | .evRxdone d bytes => decide ((s.link d).recv = some bytes.length)
  | .evError d _ => (s.link d).send.isSome || (s.link d).recv.isSome
  | .evAbort d => (s.link d).send.isSome || (s.link d).recv.isSome
  | .evCsfall _ => false
  | .evCsrise _ => false

/-- The state after the link has given these answers in order; none where one of them is no answer or stops. -/
def State.answered (s : State) : List Instr → Option State
  | [] => some s
  | i :: answers =>
    if s.isAnswer i then
      match exec i (s.delivered i) with
      | .next t => t.answered answers
      | .fault _ => none
      | .refused _ => none
    else none

/-- How many answers of the link one channel can still take before it holds nothing: a send its header and its payload,
a receive those and the two of the reply it may start (R124). -/
def channelWork (D : Device) (l : LinkSide) : Nat :=
  (if l.send.isSome then (if D.txPos then 1 else 2) else 0) + (if l.recv.isSome then (if D.rxPos then 3 else 4) else 0)

/-- The same for the whole block, over every value of the index. -/
def State.linkWork (s : State) : Nat :=
  ((List.range 16).map fun k => channelWork (s.dev (BitVec.ofNat 4 k)) (s.link (BitVec.ofNat 4 k))).sum

/-- What a number operand of a line stands for (R85): 0 where it is omitted, else the number its text writes. -/
def numberMeans {n : Nat} (ops : Operands) (key : String) (v : BitVec n) : Prop :=
  match operandText ops key.toList with
  | none => v = 0
  | some text => parseNumber text = some v.toNat

/-- What the data operand of a line stands for (R85). -/
def dataMeans (ops : Operands) (bytes : List Byte) : Prop :=
  match operandText ops "data".toList with
  | none => bytes = []
  | some text => parseBytes text = some bytes

/-- What the tgt operand of a TRANSMIT stands for: omitted, it means TGTV = 0 (R85). -/
def targetMeans (ops : Operands) (target : Option DevIx) : Prop :=
  match operandText ops "tgt".toList with
  | none => target = none
  | some text => ∃ t : DevIx, target = some t ∧ parseNumber text = some t.toNat

/-- What the len operand of a TRANSMIT stands for: omitted, it means the number of data bytes given (R85). -/
def lengthMeans (ops : Operands) (len : Byte) (bytes : List Byte) : Prop :=
  match operandText ops "len".toList with
  | none => len.toNat = bytes.length
  | some text => parseNumber text = some len.toNat

/-- Parameters, schedule and registry flag are left alone. -/
def sameControl (s t : State) : Prop :=
  t.cfg = s.cfg ∧ t.inputs = s.inputs ∧ t.initialized = s.initialized

/-- Nothing but the output list differs: a command that only answers. -/
def onlyAnswers (s t : State) (word : Word) (bytes : List Byte) : Prop :=
  t = { s with outputs := s.outputs ++ [.response word bytes] }

/-- The environment's side is left alone: link operations, chip-select levels, undelivered events. -/
def sameEnvironment (s t : State) : Prop := t.links = s.links ∧ t.undelivered = s.undelivered

/-- Every channel but one is left alone in every field. -/
def sameOthers (d : DevIx) (s t : State) : Prop := ∀ e, e ≠ d → t.dev e = s.dev e

/-- A channel keeps every field but cs_out, the one field another channel's step may write (R184). -/
def sameButCsOut (D D' : Device) : Prop := D' = { D with csOut := D'.csOut }

/-- The link operations among a list of outputs (R59 c). -/
def linkPosts (out : List Output) : List Output :=
  out.filter fun o =>
    match o with
    | .action (.linkSend _ _) => true
    | .action (.linkRecv _ _) => true
    | .action (.csDrive _ _) => false
    | .action (.settle _) => false
    | .response _ _ => false

/-- The responses among a list of outputs (R13). -/
def responses (out : List Output) : List Output :=
  out.filter fun o =>
    match o with
    | .action _ => false
    | .response _ _ => true

end Sys2Proof.Machine
end

