-- ==== Sys2Proof/Certificates/Slice0/Obligations.lean ====
section
/-! DEFINITION. What the spec's numbered rules say the block does, stated for the provers. Addresses in a register file
are written out as slot times REG_SIZE plus offset (20_memory.md R51). A premise `.wf` asks for the canonical form of a
memory that is read back after a write; `StepKeepsInvariant` says every reachable state has it. -/

open Sys2Proof Sys2Proof.Machine

/-! ## Encodings -/

/-- R78 to R81: no bit of an operand is lost between the encoder and the decoder. -/
def Obligations.DecodeOfEncodeIsIdentity : Prop := ∀ i : Instr, decode (encode i) = .ok i

/-- R87: each line of the table stands for its instruction, whose word on its port is the table's, and the word decodes
to it; the port tells 0x15 of RECEIVE from 0x15 of @CSFALL. -/
def Obligations.WorkedEncodings : Prop :=
  ∀ row ∈ ([
      ("INIT", .init, ⟨.command, 0x0000000000000001, []⟩),
      ("IS_INIT", .isInit, ⟨.command, 0x0000000000000002, []⟩),
      ("LOOKUP id=0x1002", .lookup 0x1002, ⟨.command, 0x0000100200000003, []⟩),
      ("TRANSMIT dev=0 tgt=1 len=4 dst=0 opc=0x01 data=\"PING\"", .transmit 0 (some 1) 4 0 0 0 0x01 [0x50, 0x49, 0x4E, 0x47], ⟨.command, 0x0001000000041104, [0x50, 0x49, 0x4E, 0x47]⟩),
      ("RECEIVE dev=1", .receive 1, ⟨.command, 0x0000000000000015, []⟩),
      ("STATUS dev=0", .status 0, ⟨.command, 0x0000000000000006, []⟩),
      ("REGREAD dev=1 reg=0", .regread 1 0, ⟨.command, 0x0000000000000017, []⟩),
      ("CLEAR dev=0 st=0x0F op=0x3 ec=0xFF", .clear 0 0x0F 0x3 0xFF, ⟨.command, 0x000000FF030F0008, []⟩),
      ("@TXDONE dev=1", .evTxdone 1, ⟨.event, 0x0000000000000011, []⟩),
      ("@RXDONE dev=1", .evRxdone 1 [], ⟨.event, 0x0000000000000012, []⟩),
      ("@ERROR dev=1 code=0x01", .evError 1 0x01, ⟨.event, 0x0000000000000113, []⟩),
      ("@ABORT dev=1", .evAbort 1, ⟨.event, 0x0000000000000014, []⟩),
      ("@CSFALL dev=1", .evCsfall 1, ⟨.event, 0x0000000000000015, []⟩),
      ("@CSRISE dev=1", .evCsrise 1, ⟨.event, 0x0000000000000016, []⟩)] : List (String × Instr × Encoded)),
    assemble row.1.toList = .ok (some row.2.1) ∧ encode row.2.1 = row.2.2 ∧ decode row.2.2 = .ok row.2.1

/-- R85, U4, U6, U13: what a line of text assembles to passes the transcriber's check, which asks of a TRANSMIT at least
min(LEN, 64) data bytes and of an EV_RXDONE at most 64 bytes; its word has every reserved bit and every unused field 0, and
decodes to it. That TGT counts as unused with TGTV = 0 is the model's choice (log entry 7). -/
def Obligations.AssembledLinesAreWellFormed : Prop :=
  ∀ (line : List Char) (i : Instr), assemble line = .ok (some i) →
    i.wellFormed = true ∧
    (∀ d tg len dst rr rl opc data, i = .transmit d tg len dst rr rl opc data → min len.toNat 64 ≤ data.length) ∧
    (∀ d bytes, i = .evRxdone d bytes → bytes.length ≤ 64) ∧
    (encode i).word &&& ~~~usedBits i = 0 ∧ decode (encode i) = .ok i

/-- R83: a reserved command code is answered with word 0 and a reserved event code is ignored; the decoder rejects both
by name. R78, R80: the bits an instruction does not use are ignored: a word that differs only in them decodes to the same.
That TGT counts as unused with TGTV = 0 is the model's choice (log entry 7), and so is that data bytes beside a word that
takes none change nothing (log entry 24). -/
def Obligations.ReservedCodesAndBits : Prop :=
  ∀ (s : State) (w : Word) (data : List Byte) (rest : List Input), s.cfg.ok = true → s.modelError = none →
    ((fieldCode w).toNat = 0 ∨ 9 ≤ (fieldCode w).toNat →
      decode ⟨.command, w, data⟩ = .error (.reservedCommand (fieldCode w)) ∧
      (s.inputs = .command w data :: rest →
        step s = .next { s with inputs := rest, outputs := s.outputs ++ [.response 0 []] })) ∧
    ((fieldCode w).toNat = 0 ∨ 7 ≤ (fieldCode w).toNat →
      decode ⟨.event, w, data⟩ = .error (.reservedEvent (fieldCode w)) ∧
      (s.inputs = .event w data :: rest → step s = .next { s with inputs := rest })) ∧
    (∀ p i w', decode ⟨p, w, data⟩ = .ok i → w' &&& usedBits i = w &&& usedBits i → decode ⟨p, w', data⟩ = .ok i)

/-! ## Steps, reset, stops -/

/-- R8, R180: a word that decodes to an instruction is handled by that instruction's meaning, after the input is taken
off the schedule and the environment has noted the delivery (R40, log entry 13; a command notes nothing); with no input the block
does nothing (R7). R189: with the reference environment attached a completion or an edge comes only of the environment's
own undelivered events: from the schedule it is refused, and a `deliver` of one that overtakes no edge runs it. That data bytes which come with an instruction that takes none are
dropped is the model's choice (log entry 24), and so is which undelivered completions an error or an abort drops (log
entry 25). -/
def Obligations.StepRunsDecodedInstruction : Prop :=
  ∀ s : State, s.cfg.ok = true → s.modelError = none →
    (s.inputs = [] → step s = .next s) ∧
    (∀ w data rest i, s.inputs = .command w data :: rest → decode ⟨.command, w, data⟩ = .ok i →
      step s = exec i { s with inputs := rest }) ∧
    (∀ w data rest i, s.inputs = .event w data :: rest → decode ⟨.event, w, data⟩ = .ok i →
      step s = if s.mayArrive i then exec i ({ s with inputs := rest }.delivered i) else .refused .foreignEvent) ∧
    (∀ k e rest i, s.inputs = .deliver k :: rest → s.undelivered[k]? = some e →
      decode ⟨.event, e.word, e.data⟩ = .ok i → s.overtakesEdge k e = false →
      step s = exec i ({ s with inputs := rest, undelivered := s.undelivered.eraseIdx k }.delivered i)) ∧
    (∀ nbits n i, decodeTableWord nbits n = some i → s.mayArrive i = true →
      step (s.withFetchWord nbits n) = exec i (s.delivered i))

/-- R200, R202: what the block reset leaves in every field, on any state, and that each unspecified byte takes the value
drawn for it, any value; nothing is emitted, nothing stays outstanding or undelivered, and in the reference environment
CS_IN is at CS_OUT_RESET. That the list of what was put out before is kept is the model's choice (log entry 17), and so is
that the inputs still to come are (log entry 19). -/
def Obligations.ResetLeavesStatedValues : Prop :=
  ∀ (s : State) (draw : List ChannelDraw) (rest : List Input), s.cfg.ok = true → s.modelError = none →
    s.inputs = .reset draw :: rest →
    ∃ t, step s = .next t ∧ t.cfg = s.cfg ∧ t.initialized = false ∧ t.inputs = rest ∧ t.outputs = s.outputs ∧
      t.undelivered = [] ∧
      ∀ d : DevIx,
        (t.dev d).state = 0 ∧ (t.dev d).op = 0 ∧ (t.dev d).txPos = false ∧ (t.dev d).rxPos = false ∧
        (t.dev d).targetDevice = none ∧ (t.dev d).errCode = 0 ∧ (t.dev d).csOut = s.cfg.csOutReset ∧
        (t.link d).send = none ∧ (t.link d).recv = none ∧
        (s.cfg.environment = .loopback → (t.link d).csIn = s.cfg.csOutReset) ∧
        ∀ c, draw[d.toNat]? = some c →
          (∀ a, a < 72 → a < c.tx.length → (t.dev d).txBuff.read a = c.tx.getD a 0) ∧
          (∀ a, a < 72 → a < c.rx.length → (t.dev d).rxBuff.read a = c.rx.getD a 0) ∧
          (∀ a, a < s.cfg.regCount * s.cfg.regSize → a < c.regs.length →
            (t.dev d).regs.read a = c.regs.getD a 0)

/-- R204: the state after reset and INIT, and what STATUS then answers. -/
def Obligations.StatusAfterResetAndInit : Prop :=
  ∀ (c : Config) (draw : List ChannelDraw) (d : DevIx), d.toNat < c.nDev →
    ∃ t u, exec .init (State.resetWith c draw) = .next t ∧
      (t.dev d).state = 0 ∧ (t.dev d).op = 0 ∧ (t.dev d).targetDevice = none ∧ (t.dev d).errCode = 0 ∧
      (t.dev d).csOut = c.csOutReset ∧
      exec (.status d) t = .next u ∧
      u.outputs = t.outputs ++
        [.response (0x8000000000000000#64 ||| (BitVec.ofBool c.csOutReset).setWidth 64 <<< 17) []] ∧
      (c = Config.reference → u.outputs = t.outputs ++ [.response 0x8000000000020000#64 []])

/-- Parameters outside R9's ranges are refused (U16), and a status word with PHASE 0b100 (R26, U2) or with a 1 in bit 6
or 7 (R22, U14) is a fault, in any channel that exists. -/
def Obligations.IllegalMachinesAreStopped : Prop :=
  ∀ s : State,
    (s.cfg.ok = false → step s = .refused .badParameters) ∧
    (s.cfg.ok = true → ∀ d : DevIx, d.toNat < s.cfg.nDev → (s.dev d).state.extractLsb' 3 3 = 0b100#3 →
      step s = .fault .reservedPhase) ∧
    (s.cfg.ok = true → (∀ d : DevIx, d.toNat < s.cfg.nDev → (s.dev d).state.extractLsb' 3 3 ≠ 0b100#3) →
      ∀ d : DevIx, d.toNat < s.cfg.nDev → (s.dev d).state.extractLsb' 6 2 ≠ 0#2 →
        step s = .fault .reservedStateBits)

/-! ## Device Registry -/

/-- R100: INIT sets `initialized` and nothing else, the first time and every time, and answers OK. -/
def Obligations.InitSetsFlagAndAnswersOk : Prop :=
  ∀ s : State, ∃ t, exec .init s = .next t ∧ t.initialized = true ∧ t.cfg = s.cfg ∧ t.devs = s.devs ∧
    sameEnvironment s t ∧ t.inputs = s.inputs ∧ t.outputs = s.outputs ++ [.response 0x8000000000000000#64 []]

/-- R101: IS_INIT answers the flag in bit 0, before INIT too, and writes nothing. -/
def Obligations.IsInitAnswersFlag : Prop :=
  ∀ s : State, ∃ t, exec .isInit s = .next t ∧
    onlyAnswers s t (if s.initialized then 0x8000000000000001#64 else 0x8000000000000000#64) []

/-- R102: LOOKUP answers the index of the channel with the identity, or word 0, and writes nothing. -/
def Obligations.LookupAnswersIndex : Prop :=
  ∀ (s : State) (id : BitVec 32), s.cfg.ok = true →
    ∃ t, exec (.lookup id) s = .next t ∧
      (∀ d, s.initialized = true → d < s.cfg.nDev → s.cfg.devId[d]? = some id →
        onlyAnswers s t (0x8000000000000000#64 ||| BitVec.ofNat 64 d) []) ∧
      (s.initialized = false ∨ (∀ d, d < s.cfg.nDev → s.cfg.devId[d]? ≠ some id) → onlyAnswers s t 0 [])

/-- R103: before INIT every command but INIT and IS_INIT answers word 0 and every event is ignored. -/
def Obligations.OnlyInitAndIsInitActBeforeInit : Prop :=
  ∀ (s : State) (i : Instr), s.initialized = false → i ≠ .init → i ≠ .isInit →
    (i.isCommand = true → exec i s = .next { s with outputs := s.outputs ++ [.response 0 []] }) ∧
    (i.isCommand = false → exec i s = .next s)

/-! ## Transfer Engine: commands -/

/-- R110 with R75: an accepted TRANSMIT, in every field. That in the general environment the drives of its target leave
every CS_IN as it was is the model's choice (log entry 13). -/
def Obligations.TransmitAcceptedStartsTransfer : Prop :=
  ∀ (s : State) (d : DevIx) (target : Option DevIx) (len dst rxreg rxlen opc : Byte) (data : List Byte),
    s.initialized = true → d.toNat < s.cfg.nDev → 1 ≤ len.toNat → dst.toNat < s.cfg.regCount →
    (∀ t, target = some t → t.toNat < s.cfg.nDev) → (s.dev d).opTx = false →
    min len.toNat 64 ≤ data.length → (s.dev d).txBuff.wf = true →
    ∃ t, exec (.transmit d target len dst rxreg rxlen opc data) s = .next t ∧ sameControl s t ∧
      t.dev d = { s.dev d with
        state := (s.dev d).state ||| 0x08
        op := (s.dev d).op ||| 0b01#2
        txPos := false
        txBuff := (t.dev d).txBuff
        targetDevice := if target.isSome then target else (s.dev d).targetDevice
        csOut := if target = some d then false else (s.dev d).csOut } ∧
      (∀ a, (t.dev d).txBuff.read a =
        if a < 8 then
          [0xFF, 0xFF, opc, dst, BitVec.ofNat 8 (min len.toNat 64), rxreg, BitVec.ofNat 8 (min rxlen.toNat 64),
            0xFF].getD a 0
        else if a < 8 + min len.toNat 64 then data.getD (a - 8) 0
        else (s.dev d).txBuff.read a) ∧
      (∀ e, e ≠ d → t.dev e = { s.dev e with csOut := if target = some e then false else (s.dev e).csOut }) ∧
      t.outputs = s.outputs ++
        (match target with
          | none => []
          | some x => [.action (.csDrive x true), .action (.settle s.cfg.tSettle), .action (.csDrive x false)]) ++
        [.action (.linkSend d [0xFF, 0xFF, opc, dst, BitVec.ofNat 8 (min len.toNat 64), rxreg,
            BitVec.ofNat 8 (min rxlen.toNat 64), 0xFF]),
          .response 0x8000000000000000#64 []] ∧
      (∀ e, (t.link e).recv = (s.link e).recv) ∧ (∀ e, e ≠ d → (t.link e).send = (s.link e).send) ∧
      (t.link d).send = some [0xFF, 0xFF, opc, dst, BitVec.ofNat 8 (min len.toNat 64), rxreg,
        BitVec.ofNat 8 (min rxlen.toNat 64), 0xFF] ∧
      (target = none ∨ s.cfg.environment = .general →
        t.undelivered = s.undelivered ∧ ∀ e, (t.link e).csIn = (s.link e).csIn)

/-- R111: each failing check rejects with word 0 and writes nothing; and the class is that of the first failing check.
That this holds whatever the data port carries, too few bytes included, is the model's choice (log entry 10). -/
def Obligations.TransmitRejected : Prop :=
  ∀ (s : State) (d : DevIx) (target : Option DevIx) (len dst rxreg rxlen opc : Byte) (data : List Byte),
    let badArgument := s.cfg.nDev ≤ d.toNat ∨ len.toNat < 1 ∨ s.cfg.regCount ≤ dst.toNat ∨
      ∃ t, target = some t ∧ s.cfg.nDev ≤ t.toNat
    (s.initialized = false ∨ badArgument ∨ (s.dev d).opTx = true →
      exec (.transmit d target len dst rxreg rxlen opc data) s =
        .next { s with outputs := s.outputs ++ [.response 0 []] }) ∧
    (s.initialized = false → checkTransmit s d target len dst = some .notInitialized) ∧
    (s.initialized = true → badArgument → checkTransmit s d target len dst = some .invalidArgument) ∧
    (s.initialized = true → ¬badArgument → (s.dev d).opTx = true → checkTransmit s d target len dst = some .busy)

/-- R78, R190, U6: a TRANSMIT that no check rejects and whose data port carries too few bytes is refused by name. -/
def Obligations.TransmitShortDataRefused : Prop :=
  ∀ (s : State) (d : DevIx) (target : Option DevIx) (len dst rxreg rxlen opc : Byte) (data : List Byte),
    s.initialized = true → d.toNat < s.cfg.nDev → dst.toNat < s.cfg.regCount →
    (∀ t, target = some t → t.toNat < s.cfg.nDev) → (s.dev d).opTx = false → data.length < min len.toNat 64 →
    exec (.transmit d target len dst rxreg rxlen opc data) s = .refused .shortData

/-- R113: RECEIVE accepted, and RECEIVE rejected. -/
def Obligations.ReceiveArmsHeaderReceive : Prop :=
  ∀ (s : State) (d : DevIx),
    (s.initialized = true → d.toNat < s.cfg.nDev → (s.dev d).opRx = false →
      ∃ t, exec (.receive d) s = .next t ∧ sameControl s t ∧ t.undelivered = s.undelivered ∧
        t.dev d = { s.dev d with
          state := (s.dev d).state ||| 0x10, op := (s.dev d).op ||| 0b10#2, rxPos := false } ∧
        sameOthers d s t ∧
        t.outputs = s.outputs ++ [.action (.linkRecv d 8), .response 0x8000000000000000#64 []] ∧
        t.link d = { s.link d with recv := some 8 } ∧ ∀ e, e ≠ d → t.link e = s.link e) ∧
    (s.initialized = false ∨ s.cfg.nDev ≤ d.toNat ∨ (s.dev d).opRx = true →
      exec (.receive d) s = .next { s with outputs := s.outputs ++ [.response 0 []] })

/-! ## Transfer Engine: completions -/

/-- R117: EV_TXDONE is ignored before INIT, for a channel that does not exist, and with no transmit in flight. -/
def Obligations.StrayTxdoneIgnored : Prop :=
  ∀ (s : State) (d : DevIx), s.initialized = false ∨ s.cfg.nDev ≤ d.toNat ∨ (s.dev d).opTx = false →
    exec (.evTxdone d) s = .next s

/-- R119: the header was sent; the payload send, of the length in the header, is posted. The length byte is at most 64
in every reachable state (`StepKeepsInvariant`). -/
def Obligations.TxHeaderDonePostsPayload : Prop :=
  ∀ (s : State) (d : DevIx), s.initialized = true → d.toNat < s.cfg.nDev → (s.dev d).opTx = true →
    (s.dev d).txPos = false → ((s.dev d).txBuff.read 4).toNat ≤ 64 →
    ∃ t bytes, exec (.evTxdone d) s = .next t ∧ sameControl s t ∧ t.undelivered = s.undelivered ∧
      t.dev d = { s.dev d with txPos := true } ∧ sameOthers d s t ∧
      bytes.length = ((s.dev d).txBuff.read 4).toNat ∧
      (∀ j, j < bytes.length → bytes.getD j 0 = (s.dev d).txBuff.read (8 + j)) ∧
      t.outputs = s.outputs ++ [.action (.linkSend d bytes)] ∧
      t.link d = { s.link d with send := some bytes } ∧ ∀ e, e ≠ d → t.link e = s.link e

/-- R52: a length byte past 64, which no TRANSMIT writes, would read where no address exists, and faults. -/
def Obligations.TxHeaderDonePastBufferFaults : Prop :=
  ∀ (s : State) (d : DevIx), s.initialized = true → d.toNat < s.cfg.nDev → (s.dev d).opTx = true →
    (s.dev d).txPos = false → 64 < ((s.dev d).txBuff.read 4).toNat → exec (.evTxdone d) s = .fault .pastBuffer

/-- R120: the payload was sent; a recorded target is deselected and forgotten, tx-complete set, op.TX cleared. That in the
general environment the deselecting drive leaves every CS_IN as it was is the model's choice (log entry 13). -/
def Obligations.TxPayloadDoneCompletes : Prop :=
  ∀ (s : State) (d : DevIx), s.initialized = true → d.toNat < s.cfg.nDev → (s.dev d).opTx = true →
    (s.dev d).txPos = true →
    ∃ t, exec (.evTxdone d) s = .next t ∧ sameControl s t ∧
      t.dev d = { s.dev d with
        state := (s.dev d).state ||| 0x28
        op := (s.dev d).op &&& 0b10#2
        targetDevice := none
        csOut := if (s.dev d).targetDevice = some d then true else (s.dev d).csOut } ∧
      (∀ e, e ≠ d →
        t.dev e = { s.dev e with csOut := if (s.dev d).targetDevice = some e then true else (s.dev e).csOut }) ∧
      t.outputs = s.outputs ++
        (match (s.dev d).targetDevice with
          | none => []
          | some x => [.action (.csDrive x true)]) ∧
      (∀ e, (t.link e).send = (s.link e).send ∧ (t.link e).recv = (s.link e).recv) ∧
      ((s.dev d).targetDevice = none ∨ s.cfg.environment = .general →
        t.undelivered = s.undelivered ∧ ∀ e, (t.link e).csIn = (s.link e).csIn)

/-- R118: EV_RXDONE is ignored before INIT, for a channel that does not exist, and with no receive in flight; with one
in flight, a byte count other than 8 in phase 0 or the declared length in phase 1 is refused by name (U4). -/
def Obligations.StrayRxdoneIgnoredAndWrongLengthRefused : Prop :=
  ∀ (s : State) (d : DevIx) (bytes : List Byte),
    (s.initialized = false ∨ s.cfg.nDev ≤ d.toNat ∨ (s.dev d).opRx = false →
      exec (.evRxdone d bytes) s = .next s) ∧
    (s.initialized = true → d.toNat < s.cfg.nDev → (s.dev d).opRx = true →
      bytes.length ≠ (if (s.dev d).rxPos then min ((s.dev d).rxBuff.read 4).toNat 64 else 8) →
      exec (.evRxdone d bytes) s = .refused .receiveLength)

/-- R121: the header was received; it lands in rx_buff and a receive of the declared length, at most 64, is posted. -/
def Obligations.RxHeaderDonePostsPayload : Prop :=
  ∀ (s : State) (d : DevIx) (bytes : List Byte), s.initialized = true → d.toNat < s.cfg.nDev →
    (s.dev d).opRx = true → (s.dev d).rxPos = false → bytes.length = 8 → (s.dev d).rxBuff.wf = true →
    ∃ t, exec (.evRxdone d bytes) s = .next t ∧ sameControl s t ∧ t.undelivered = s.undelivered ∧
      t.dev d = { s.dev d with rxBuff := (t.dev d).rxBuff, rxPos := true } ∧
      (∀ a, (t.dev d).rxBuff.read a = if a < 8 then bytes.getD a 0 else (s.dev d).rxBuff.read a) ∧
      sameOthers d s t ∧
      t.outputs = s.outputs ++ [.action (.linkRecv d (min (bytes.getD 4 0).toNat 64))] ∧
      t.link d = { s.link d with recv := some (min (bytes.getD 4 0).toNat 64) } ∧ ∀ e, e ≠ d → t.link e = s.link e

/-- R122: the payload was received and no reply is sent (none requested, an index out of range, or op.TX set: R123):
rx_buff, the slot, the flags, and no other byte or field. -/
def Obligations.RxPayloadDoneStoresSlot : Prop :=
  ∀ (s : State) (d : DevIx) (bytes : List Byte),
    let D := s.dev d
    let n := min (D.rxBuff.read 4).toNat 64
    let r := (D.rxBuff.read 3).toNat
    s.initialized = true → d.toNat < s.cfg.nDev → D.opRx = true → D.rxPos = true → bytes.length = n →
    D.rxBuff.wf = true → D.regs.wf = true →
    (D.rxBuff.read 6 = 0 ∨ s.cfg.regCount ≤ (D.rxBuff.read 5).toNat ∨ D.opTx = true) →
    ∃ t, exec (.evRxdone d bytes) s = .next t ∧ sameControl s t ∧ sameEnvironment s t ∧ t.outputs = s.outputs ∧
      t.dev d = { D with
        state := D.state ||| 0x30, op := D.op &&& 0b01#2, rxBuff := (t.dev d).rxBuff, regs := (t.dev d).regs } ∧
      (∀ a, (t.dev d).rxBuff.read a = if 8 ≤ a ∧ a < 8 + n then bytes.getD (a - 8) 0 else D.rxBuff.read a) ∧
      (∀ a, (t.dev d).regs.read a =
        if n ≠ 0 ∧ r < s.cfg.regCount ∧ r * s.cfg.regSize ≤ a ∧ a < r * s.cfg.regSize + n
        then bytes.getD (a - r * s.cfg.regSize) 0 else D.regs.read a) ∧
      sameOthers d s t

/-- R123: the turnaround. With a reply requested of a slot in range and op.TX clear, the payload is stored as in R122
and the reply transmit starts in the same step: no target, the requested slot as destination, the opcode echoed, no
reply asked for, the data the slot's bytes after the store. -/
def Obligations.TurnaroundSendsSlotBack : Prop :=
  ∀ (s : State) (d : DevIx) (bytes : List Byte),
    let D := s.dev d
    let n := min (D.rxBuff.read 4).toNat 64
    let r := (D.rxBuff.read 3).toNat
    let q := D.rxBuff.read 5
    let m := min (D.rxBuff.read 6).toNat 64
    let header : List Byte := [0xFF, 0xFF, D.rxBuff.read 2, q, BitVec.ofNat 8 m, 0, 0, 0xFF]
    s.initialized = true → d.toNat < s.cfg.nDev → D.opRx = true → D.rxPos = true → bytes.length = n →
    D.rxBuff.wf = true → D.regs.wf = true → D.txBuff.wf = true →
    m ≠ 0 → q.toNat < s.cfg.regCount → D.opTx = false →
    ∃ t, exec (.evRxdone d bytes) s = .next t ∧ sameControl s t ∧ t.undelivered = s.undelivered ∧
      t.dev d = { D with
        state := D.state ||| 0x38, op := 0b01#2, txPos := false
        txBuff := (t.dev d).txBuff, rxBuff := (t.dev d).rxBuff, regs := (t.dev d).regs } ∧
      (∀ a, (t.dev d).rxBuff.read a = if 8 ≤ a ∧ a < 8 + n then bytes.getD (a - 8) 0 else D.rxBuff.read a) ∧
      (∀ a, (t.dev d).regs.read a =
        if n ≠ 0 ∧ r < s.cfg.regCount ∧ r * s.cfg.regSize ≤ a ∧ a < r * s.cfg.regSize + n
        then bytes.getD (a - r * s.cfg.regSize) 0 else D.regs.read a) ∧
      (∀ a, (t.dev d).txBuff.read a =
        if a < 8 then header.getD a 0
        else if a < 8 + m then (t.dev d).regs.read (q.toNat * s.cfg.regSize + (a - 8))
        else D.txBuff.read a) ∧
      sameOthers d s t ∧
      t.outputs = s.outputs ++ [.action (.linkSend d header)] ∧
      t.link d = { s.link d with send := some header } ∧ ∀ e, e ≠ d → t.link e = s.link e

/-- R36, R51: bytes of two slots never share an address, every byte of a slot lies in the register file, and a payload
fits in a slot. Where a slot begins (`slotBase`) is the model's choice (log entry 18). -/
def Obligations.SlotsDoNotAlias : Prop :=
  ∀ (c : Config) (i j : Byte) (a b : Nat), c.ok = true → i.toNat < c.regCount → j.toNat < c.regCount →
    a < c.regSize → b < c.regSize →
    (slotBase c.regSize i + a = slotBase c.regSize j + b → i = j ∧ a = b) ∧
      slotBase c.regSize i + a < c.regCount * c.regSize ∧ 64 ≤ c.regSize

/-- R77: the header of an encoded packet, delivered unchanged into any rx_buff, gives back the clamped length and the
register; the sentinels are 0xFF whatever the payload. -/
def Obligations.HeaderRoundTrips : Prop :=
  ∀ (tx rx : Mem) (opc dst len rxreg rxlen : Byte) (data : List Byte), tx.wf = true → rx.wf = true →
    min len.toNat 64 ≤ data.length →
    let wire := (encodePacket tx opc dst len rxreg rxlen data).memRead 0 8
    let rx' := rx.memWrite 0 8 wire
    (hdrTxLen rx').toNat = min len.toNat 64 ∧ (len.toNat ≤ 64 → hdrTxLen rx' = len) ∧ hdrTxReg rx' = dst ∧
      hdrRxReg rx' = rxreg ∧ (hdrRxLen rx').toNat = min rxlen.toNat 64 ∧ hdrOpcode rx' = opc ∧
      wire.getD 0 0 = 0xFF ∧ wire.getD 1 0 = 0xFF ∧ wire.getD 7 0 = 0xFF

/-- R125 (a): the whole chain of one transfer from channel c to a listening channel p, its bytes delivered unchanged:
the destination slot's first bytes equal the data, nothing outside them changed, and both directions are free. A LEN above
64 is clamped (R74), and the header may ask for any reply (R123). -/
def Obligations.TransferDeliversData : Prop :=
  ∀ (s : State) (c p : DevIx) (target : Option DevIx) (len dst rxreg rxlen opc : Byte) (data : List Byte),
    let n := min len.toNat 64
    s.initialized = true → c ≠ p → c.toNat < s.cfg.nDev → p.toNat < s.cfg.nDev →
    (∀ t, target = some t → t.toNat < s.cfg.nDev) → 1 ≤ len.toNat → n ≤ data.length →
    dst.toNat < s.cfg.regCount → (s.dev c).opTx = false → (s.dev p).opRx = true → (s.dev p).rxPos = false →
    (s.dev c).txBuff.wf = true → (s.dev p).rxBuff.wf = true → (s.dev p).regs.wf = true →
    ∃ header payload t1 t2 t3 t4 t5,
      exec (.transmit c target len dst rxreg rxlen opc data) s = .next t1 ∧ (t1.link c).send = some header ∧
      exec (.evTxdone c) t1 = .next t2 ∧ (t2.link c).send = some payload ∧
      exec (.evRxdone p header) t2 = .next t3 ∧
      exec (.evTxdone c) t3 = .next t4 ∧
      exec (.evRxdone p payload) t4 = .next t5 ∧
      (∀ j, j < n → (t5.dev p).regs.read (dst.toNat * s.cfg.regSize + j) = data.getD j 0) ∧
      (∀ a, ¬(dst.toNat * s.cfg.regSize ≤ a ∧ a < dst.toNat * s.cfg.regSize + n) →
        (t5.dev p).regs.read a = (s.dev p).regs.read a) ∧
      (∀ e, e ≠ p → (t5.dev e).regs = (s.dev e).regs) ∧
      (t5.dev c).opTx = false ∧ (t5.dev p).opRx = false

/-- R59 (c): a completion posts at most one link operation and answers nothing. -/
def Obligations.CompletionPostsAtMostOne : Prop :=
  ∀ (s t : State) (d : DevIx) (bytes : List Byte),
    exec (.evTxdone d) s = .next t ∨ exec (.evRxdone d bytes) s = .next t →
    ∃ new, t.outputs = s.outputs ++ new ∧ (linkPosts new).length ≤ 1 ∧ responses new = []

/-! ## Error and abort events -/

/-- R140: EV_ERROR sets ERR and ORs CODE into err_code; nothing else changes and nothing is emitted; ignored before
INIT and for a channel that does not exist. -/
def Obligations.ErrorEventRecordsCode : Prop :=
  ∀ (s : State) (d : DevIx) (code : Byte),
    (s.initialized = true → d.toNat < s.cfg.nDev →
      ∃ t, exec (.evError d code) s = .next t ∧ sameControl s t ∧ sameEnvironment s t ∧ t.outputs = s.outputs ∧
        t.dev d = { s.dev d with state := (s.dev d).state ||| 0x02, errCode := (s.dev d).errCode ||| code } ∧
        sameOthers d s t) ∧
    (s.initialized = false ∨ s.cfg.nDev ≤ d.toNat → exec (.evError d code) s = .next s)

/-- R141: EV_ABORT sets ABT and nothing else. -/
def Obligations.AbortEventSetsFlag : Prop :=
  ∀ (s : State) (d : DevIx),
    (s.initialized = true → d.toNat < s.cfg.nDev →
      ∃ t, exec (.evAbort d) s = .next t ∧ sameControl s t ∧ sameEnvironment s t ∧ t.outputs = s.outputs ∧
        t.dev d = { s.dev d with state := (s.dev d).state ||| 0x04 } ∧ sameOthers d s t) ∧
    (s.initialized = false ∨ s.cfg.nDev ≤ d.toNat → exec (.evAbort d) s = .next s)

/-- R142, R187 (d): after an error or an abort the link holds nothing of d; and while it holds nothing of a direction
whose op bit is set, no admitted input but a CLEAR of that bit or a reset frees the direction. -/
def Obligations.FaultedDirectionStaysBusy : Prop :=
  ∀ (s t : State) (d : DevIx), stepAdmitted s = .next t →
    (∀ w data rest i, s.inputs = .event w data :: rest → decode ⟨.event, w, data⟩ = .ok i →
      (i = .evAbort d ∨ ∃ code, i = .evError d code) →
      (t.link d).send = none ∧ (t.link d).recv = none ∧ (t.dev d).op = (s.dev d).op) ∧
    ((∀ draw, s.inputs.head? ≠ some (.reset draw)) →
      ((s.link d).send = none → (s.dev d).opTx = true →
        (∀ w data st opm ec, s.inputs.head? = some (.command w data) →
          decode ⟨.command, w, data⟩ = .ok (.clear d st opm ec) → opm.getLsbD 0 = false) →
        (t.link d).send = none ∧ (t.dev d).opTx = true) ∧
      ((s.link d).recv = none → (s.dev d).opRx = true →
        (∀ w data st opm ec, s.inputs.head? = some (.command w data) →
          decode ⟨.command, w, data⟩ = .ok (.clear d st opm ec) → opm.getLsbD 1 = false) →
        (t.link d).recv = none ∧ (t.dev d).opRx = true))

/-! ## Selection Controller -/

/-- R151: EV_CSFALL selects, and arms a receive exactly when no operation is in flight in either direction. -/
def Obligations.FallingEdgeSelectsAndArms : Prop :=
  ∀ (s : State) (d : DevIx),
    (s.initialized = true → d.toNat < s.cfg.nDev → (s.dev d).op = 0 →
      ∃ t, exec (.evCsfall d) s = .next t ∧ sameControl s t ∧ t.undelivered = s.undelivered ∧
        t.dev d = { s.dev d with state := (s.dev d).state ||| 0x11, op := 0b10#2, rxPos := false } ∧
        sameOthers d s t ∧ t.outputs = s.outputs ++ [.action (.linkRecv d 8)] ∧
        t.link d = { s.link d with recv := some 8 } ∧ ∀ e, e ≠ d → t.link e = s.link e) ∧
    (s.initialized = true → d.toNat < s.cfg.nDev → (s.dev d).op ≠ 0 →
      ∃ t, exec (.evCsfall d) s = .next t ∧ sameControl s t ∧ sameEnvironment s t ∧ t.outputs = s.outputs ∧
        t.dev d = { s.dev d with state := (s.dev d).state ||| 0x01 } ∧ sameOthers d s t) ∧
    (s.initialized = false ∨ s.cfg.nDev ≤ d.toNat → exec (.evCsfall d) s = .next s)

/-- R152: EV_CSRISE clears SEL and nothing else. -/
def Obligations.RisingEdgeClearsSelected : Prop :=
  ∀ (s : State) (d : DevIx),
    (s.initialized = true → d.toNat < s.cfg.nDev →
      ∃ t, exec (.evCsrise d) s = .next t ∧ sameControl s t ∧ sameEnvironment s t ∧ t.outputs = s.outputs ∧
        t.dev d = { s.dev d with state := (s.dev d).state &&& 0xFE } ∧ sameOthers d s t) ∧
    (s.initialized = false ∨ s.cfg.nDev ≤ d.toNat → exec (.evCsrise d) s = .next s)

/-! ## Host access -/

/-- R160: STATUS answers every scalar field at its place and writes nothing. -/
def Obligations.StatusAnswersFields : Prop :=
  ∀ (s : State) (d : DevIx),
    (s.initialized = true → d.toNat < s.cfg.nDev →
      ∃ t w, exec (.status d) s = .next t ∧ onlyAnswers s t w [] ∧
        w.extractLsb' 0 8 = (s.dev d).state ∧ w.extractLsb' 8 2 = (s.dev d).op ∧
        w.getLsbD 10 = (s.dev d).txPos ∧ w.getLsbD 11 = (s.dev d).rxPos ∧
        w.extractLsb' 12 4 = (s.dev d).targetDevice.getD 0 ∧ w.getLsbD 16 = (s.dev d).targetDevice.isSome ∧
        w.getLsbD 17 = (s.dev d).csOut ∧ w.extractLsb' 18 6 = 0 ∧ w.extractLsb' 24 8 = (s.dev d).errCode ∧
        w.extractLsb' 32 31 = 0 ∧ w.getLsbD 63 = true) ∧
    (s.initialized = false ∨ s.cfg.nDev ≤ d.toNat →
      exec (.status d) s = .next { s with outputs := s.outputs ++ [.response 0 []] })

/-- R161: REGREAD answers the REG_SIZE bytes of the slot and writes nothing. -/
def Obligations.RegreadAnswersSlot : Prop :=
  ∀ (s : State) (d : DevIx) (reg : Byte),
    (s.initialized = true → d.toNat < s.cfg.nDev → reg.toNat < s.cfg.regCount →
      ∃ t bytes, exec (.regread d reg) s = .next t ∧ onlyAnswers s t 0x8000000000000000#64 bytes ∧
        bytes.length = s.cfg.regSize ∧
        ∀ j, j < s.cfg.regSize → bytes.getD j 0 = (s.dev d).regs.read (reg.toNat * s.cfg.regSize + j)) ∧
    (s.initialized = false ∨ s.cfg.nDev ≤ d.toNat ∨ s.cfg.regCount ≤ reg.toNat →
      exec (.regread d reg) s = .next { s with outputs := s.outputs ++ [.response 0 []] })

/-- R162: CLEAR clears the chosen bits; clearing op.TX releases and deselects the target; rejected before INIT and for
a channel that does not exist. That in the general environment the release of a target leaves every CS_IN as it was is the
model's choice (log entry 13). -/
def Obligations.ClearClearsChosenBits : Prop :=
  ∀ (s : State) (d : DevIx) (stmask opmask ecmask : Byte),
    let D := s.dev d
    let m : Byte := (stmask &&& 0x07) ||| (if stmask.getLsbD 3 then 0x38 else 0)
    let freed : Option DevIx := if opmask.getLsbD 0 && D.opTx then D.targetDevice else none
    (s.initialized = true → d.toNat < s.cfg.nDev →
      ∃ t, exec (.clear d stmask opmask ecmask) s = .next t ∧ sameControl s t ∧
        t.dev d = { D with
          state := D.state &&& ~~~m
          errCode := D.errCode &&& ~~~ecmask
          op := D.op &&& ~~~(opmask.setWidth 2)
          targetDevice := if opmask.getLsbD 0 && D.opTx then none else D.targetDevice
          csOut := if freed = some d then true else D.csOut } ∧
        (∀ e, e ≠ d → t.dev e = { s.dev e with csOut := if freed = some e then true else (s.dev e).csOut }) ∧
        t.outputs = s.outputs ++
          (match freed with
            | none => []
            | some x => [.action (.csDrive x true)]) ++
          [.response 0x8000000000000000#64 []] ∧
        (∀ e, (t.link e).send = (s.link e).send ∧ (t.link e).recv = (s.link e).recv) ∧
        (freed = none ∨ s.cfg.environment = .general →
          t.undelivered = s.undelivered ∧ ∀ e, (t.link e).csIn = (s.link e).csIn)) ∧
    (s.initialized = false ∨ s.cfg.nDev ≤ d.toNat →
      exec (.clear d stmask opmask ecmask) s = .next { s with outputs := s.outputs ++ [.response 0 []] })

/-! ## Rules about every instruction -/

/-- R13: outputs are only appended; a host command answers exactly once, last; an event answers nothing. -/
def Obligations.EveryCommandAnswersOnce : Prop :=
  ∀ (i : Instr) (s t : State), exec i s = .next t →
    ∃ new, t.outputs = s.outputs ++ new ∧
      (i.isCommand = true → ∃ acts w bytes, new = acts ++ [.response w bytes] ∧ responses acts = []) ∧
      (i.isCommand = false → responses new = [])

/-- R24, R25, R28, R32: no instruction but CLEAR clears ERR, ABT, a PHASE bit or a bit of err_code, in any channel. -/
def Obligations.OnlyClearClearsStickyBits : Prop :=
  ∀ (i : Instr) (s t : State), exec i s = .next t → (∀ d st opm ec, i ≠ .clear d st opm ec) →
    ∀ d : DevIx, (s.dev d).state &&& 0x3E &&& ~~~(t.dev d).state = 0 ∧ (s.dev d).errCode &&& ~~~(t.dev d).errCode = 0

/-- R23: SEL is set by EV_CSFALL and cleared by EV_CSRISE and CLEAR, and no other instruction changes it. -/
def Obligations.OnlyEdgesAndClearChangeSelected : Prop :=
  ∀ (i : Instr) (s t : State) (d : DevIx), exec i s = .next t → (t.dev d).state.getLsbD 0 ≠ (s.dev d).state.getLsbD 0 →
    ((t.dev d).state.getLsbD 0 = true ∧ i = .evCsfall d) ∨
    ((t.dev d).state.getLsbD 0 = false ∧ (i = .evCsrise d ∨ ∃ st opm ec, i = .clear d st opm ec))

/-- R29: which instructions set and clear an op bit. -/
def Obligations.OpBitsChangeOnlyByTheirRules : Prop :=
  ∀ (i : Instr) (s t : State) (d : DevIx), exec i s = .next t →
    ((s.dev d).opTx = false → (t.dev d).opTx = true →
      (∃ tg len dst rr rl opc data, i = .transmit d tg len dst rr rl opc data) ∨
        ∃ bytes, i = .evRxdone d bytes ∧ (s.dev d).opRx = true ∧ (s.dev d).rxPos = true) ∧
    ((s.dev d).opTx = true → (t.dev d).opTx = false →
      (i = .evTxdone d ∧ (s.dev d).txPos = true) ∨ ∃ st opm ec, i = .clear d st opm ec ∧ opm.getLsbD 0 = true) ∧
    ((s.dev d).opRx = false → (t.dev d).opRx = true → i = .receive d ∨ i = .evCsfall d) ∧
    ((s.dev d).opRx = true → (t.dev d).opRx = false →
      (∃ bytes, i = .evRxdone d bytes ∧ (s.dev d).rxPos = true) ∨
        ∃ st opm ec, i = .clear d st opm ec ∧ opm.getLsbD 1 = true)

/-- R36, R217: only a receive completion writes a register slot or rx_buff, and only its own channel's. -/
def Obligations.OnlyReceiveCompletionsWriteSlots : Prop :=
  ∀ (i : Instr) (s t : State) (d : DevIx), exec i s = .next t → (∀ bytes, i ≠ .evRxdone d bytes) →
    (t.dev d).regs = (s.dev d).regs ∧ (t.dev d).rxBuff = (s.dev d).rxBuff

/-- R217: while a transmit is in flight no instruction changes tx_buff. -/
def Obligations.TxBufferKeptWhileInFlight : Prop :=
  ∀ (i : Instr) (s t : State) (d : DevIx), exec i s = .next t → (s.dev d).opTx = true →
    (t.dev d).txBuff = (s.dev d).txBuff

/-- R184 (a): an instruction that names channel d writes of another channel only cs_out, and only of a target: the one
its TRANSMIT names or the one d has recorded. -/
def Obligations.ChannelsAreIsolated : Prop :=
  ∀ (i : Instr) (s t : State) (d e : DevIx), exec i s = .next t → i.device = some d → e ≠ d →
    sameButCsOut (s.dev e) (t.dev e) ∧
    ((t.dev e).csOut ≠ (s.dev e).csOut →
      (s.dev d).targetDevice = some e ∨
        ∃ len dst rr rl opc data, i = .transmit d (some e) len dst rr rl opc data)

/-- R52, R33, R39: no instruction changes the parameters, clears `initialized`, or touches an index that is no channel. -/
def Obligations.ParametersAndAbsentChannelsKept : Prop :=
  ∀ (i : Instr) (s t : State), s.Inv → exec i s = .next t →
    t.cfg = s.cfg ∧ t.inputs = s.inputs ∧ (s.initialized = true → t.initialized = true) ∧
      ∀ d, s.cfg.nDev ≤ d.toNat → t.dev d = s.dev d

/-- R26, R27: setting phases from idle in any order gives one of the seven named values and never 0b100, and each of
the seven can be had; the other state bits are left alone. -/
def Obligations.PhaseSettingGivesTheSevenValues : Prop :=
  (∀ (D : Device) (ms : List Byte),
    (∀ m ∈ ms, m = maskTxPending ∨ m = maskTxComplete ∨ m = maskRxPending ∨ m = maskRxComplete) →
    D.state.extractLsb' 3 3 = 0 →
    (ms.foldl Device.setState D).state.extractLsb' 3 3 ≠ 0b100#3 ∧
      (ms.foldl Device.setState D).state &&& 0xC7 = D.state &&& 0xC7 ∧
      (ms.foldl Device.setState D).op = D.op) ∧
  (∀ (D : Device) (p : BitVec 3), D.state.extractLsb' 3 3 = 0 → p ≠ 0b100#3 →
    ∃ ms : List Byte, (∀ m ∈ ms, m = maskTxPending ∨ m = maskTxComplete ∨ m = maskRxPending ∨ m = maskRxComplete) ∧
      (ms.foldl Device.setState D).state.extractLsb' 3 3 = p)

/-! ## Invariants -/

/-- R200, R202: the machine right after reset meets the invariants, for all parameters in range and every draw. -/
def Obligations.ResetMeetsInvariants : Prop :=
  State.reset.Inv ∧ State.reset.LinkInv ∧
    ∀ (c : Config) (draw : List ChannelDraw), c.ok = true →
      (State.resetWith c draw).Inv ∧ (State.resetWith c draw).LinkInv

/-- R22, R26, R31, R37, R52, R100, R119: every step, an external reset and the reference environment's moves included,
keeps the invariant. -/
def Obligations.StepKeepsInvariant : Prop :=
  ∀ s t : State, s.Inv → step s = .next t → t.Inv

/-- R176: in a state with the invariant no step faults. -/
def Obligations.StepNeverFaults : Prop :=
  ∀ (s : State) (f : Fault), s.Inv → step s ≠ .fault f

/-- R186, R187: in a run that keeps the contracts, what the link holds belongs to a direction in flight, and a receive
it holds is the one the channel waits for. -/
def Obligations.AdmittedStepKeepsLinkInvariant : Prop :=
  ∀ s t : State, s.LinkInv → stepAdmitted s = .next t → t.LinkInv

/-- R187: in a run that keeps the contracts the block posts an operation only where the link holds none of that
direction: at most one outstanding send and one outstanding receive per device. -/
def Obligations.AtMostOneOutstandingPerDirection : Prop :=
  ∀ (s t : State) (i : Instr) (d : DevIx) (new : List Output), s.LinkInv → admitInstr i s = none →
    exec i (s.delivered i) = .next t → t.outputs = s.outputs ++ new →
    ((∃ bytes, Output.action (.linkSend d bytes) ∈ new) → ((s.delivered i).link d).send = none) ∧
    ((∃ n, Output.action (.linkRecv d n) ∈ new) → ((s.delivered i).link d).recv = none)

/-- R118, R176, R187, R190: an admitted input, of any kind, always takes a next state: in a run that keeps the contracts
the block never stops. The admission check is the model's form of the contracts (log entries 6 to 8; for stray data bytes log entry 24). -/
def Obligations.AdmittedInputsAlwaysTaken : Prop :=
  ∀ (s : State) (i : Input) (rest : List Input), s.Inv → s.LinkInv → s.inputs = i :: rest → admitInput i s = none →
    ∃ t, stepAdmitted s = .next t

/-- R187, R190, U3 to U7, U13: what the admission check refuses by name: a completion with nothing outstanding, or with
another length than the link holds; a CLEAR of a direction the link holds; too few data bytes; a reserved code; a reserved
bit or unused field that is not 0. The admission check is the model's form of the contracts (log entries 6 to 8). -/
def Obligations.ContractBreachesRefusedByAdmission : Prop :=
  ∀ (s : State) (rest : List Input),
    (∀ d, (s.link d).send = none → s.inputs = .event (encode (.evTxdone d)).word [] :: rest →
      stepAdmitted s = .refused .strayCompletion) ∧
    (∀ d bytes, (s.link d).recv = none → s.inputs = .event (encode (.evRxdone d bytes)).word bytes :: rest →
      stepAdmitted s = .refused .strayCompletion) ∧
    (∀ d bytes n, (s.link d).recv = some n → bytes.length ≠ n →
      s.inputs = .event (encode (.evRxdone d bytes)).word bytes :: rest →
      stepAdmitted s = .refused .receiveLength) ∧
    (∀ d st opm ec, ((s.link d).send ≠ none ∧ opm.getLsbD 0 = true) ∨ ((s.link d).recv ≠ none ∧ opm.getLsbD 1 = true) →
      s.inputs = .command (encode (.clear d st opm ec)).word [] :: rest →
      stepAdmitted s = .refused .clearInFlight) ∧
    (∀ d tg len dst rr rl opc data, data.length < min len.toNat 64 →
      s.inputs = .command (encode (.transmit d tg len dst rr rl opc data)).word data :: rest →
      stepAdmitted s = .refused .shortData) ∧
    (∀ w data, (fieldCode w).toNat = 0 ∨ 9 ≤ (fieldCode w).toNat → s.inputs = .command w data :: rest →
      stepAdmitted s = .refused .reservedCode) ∧
    (∀ w data, (fieldCode w).toNat = 0 ∨ 7 ≤ (fieldCode w).toNat → s.inputs = .event w data :: rest →
      stepAdmitted s = .refused .reservedCode) ∧
    (∀ w data i, decode ⟨.command, w, data⟩ = .ok i → w &&& ~~~usedBits i ≠ 0 → s.inputs = .command w data :: rest →
      stepAdmitted s = .refused .reservedBits) ∧
    (∀ w data i, decode ⟨.event, w, data⟩ = .ok i → w &&& ~~~usedBits i ≠ 0 → s.inputs = .event w data :: rest →
      stepAdmitted s = .refused .reservedBits)

/-! ## Memories and the reference environment -/

/-- A memory is determined by what it reads: two canonical memories that read alike are equal. The canonical list and its
unlisted byte 00 are the model's own representation of the bytes of R50 to R52 (log entries 3 and 18). -/
def Obligations.MemoriesThatReadAlikeAreEqual : Prop :=
  ∀ m m' : Mem, m.wf = true → m'.wf = true → (∀ a, m.read a = m'.read a) → m = m'

/-- R189 (a) (b): in the reference environment a drive that changes the level of CS_IN makes one edge event, last in
line, and a drive to the level already present makes none. -/
def Obligations.DriveMakesEdgeInLoopback : Prop :=
  ∀ (s : State) (t : DevIx) (level : Bool), s.cfg.environment = .loopback →
    ((s.emit (.csDrive t level)).link t).csIn = level ∧
    ((s.link t).csIn = level → (s.emit (.csDrive t level)).undelivered = s.undelivered) ∧
    ((s.link t).csIn ≠ level →
      ∃ e, (s.emit (.csDrive t level)).undelivered = s.undelivered ++ [e] ∧
        decode ⟨.event, e.word, e.data⟩ = .ok (if level then .evCsrise t else .evCsfall t))

/-- R189 (c) (d) (e): in the reference environment with two devices, a send of n bytes and a receive of n bytes on the
peer complete together, both completions undelivered, whatever else is undelivered; without such a receive (of another
length, or none at all) the send has no completion step (U12). A pair whose completions are already undelivered is not made
again. -/
def Obligations.PairCompletesSendWithReceive : Prop :=
  ∀ (s : State) (c p : DevIx) (bytes : List Byte), s.cfg.environment = .loopback → s.cfg.nDev = 2 →
    (c = 0 ∧ p = 1) ∨ (c = 1 ∧ p = 0) → (s.link c).send = some bytes →
    let undeliveredCompletion := ∃ e ∈ s.undelivered,
      decode ⟨.event, e.word, e.data⟩ = .ok (.evTxdone c) ∨ ∃ b, decode ⟨.event, e.word, e.data⟩ = .ok (.evRxdone p b)
    ((s.link p).recv = some bytes.length → ¬undeliveredCompletion →
      ∃ e e' t, takeInput (.pair c) s = .next t ∧ t = { s with undelivered := s.undelivered ++ [e, e'] } ∧
        decode ⟨.event, e.word, e.data⟩ = .ok (.evTxdone c) ∧
        decode ⟨.event, e'.word, e'.data⟩ = .ok (.evRxdone p bytes)) ∧
    ((s.link p).recv ≠ some bytes.length ∨ undeliveredCompletion →
      takeInput (.pair c) s = .refused .noMatchingReceive)

/-- R60, R178 (b), R189 (a): an undelivered edge event is not delivered before an earlier edge, of its own line or of
another: edges arrive in the order of the drives. -/
def Obligations.EdgesKeepTheOrderOfTheDrives : Prop :=
  ∀ (s : State) (j k : Nat) (e e' : Event) (d d' : DevIx), s.undelivered[j]? = some e' → s.undelivered[k]? = some e →
    j < k →
    (decode ⟨.event, e.word, e.data⟩ = .ok (.evCsfall d) ∨ decode ⟨.event, e.word, e.data⟩ = .ok (.evCsrise d)) →
    (decode ⟨.event, e'.word, e'.data⟩ = .ok (.evCsfall d') ∨ decode ⟨.event, e'.word, e'.data⟩ = .ok (.evCsrise d')) →
    takeInput (.deliver k) s = .refused .edgeOrder

/-! ## Agents, and the end of a run -/

/-- R7, R183: the block never acts on its own: where a step changes the state, an input of the host or of the environment
was taken; a command word comes from the host only, everything else from the environment. -/
def Obligations.OnlyHostAndEnvironmentAct : Prop :=
  ∀ s t : State, step s = .next t → t ≠ s →
    ∃ i rest, s.inputs = i :: rest ∧ t.inputs = rest ∧ s.nextAgent = some i.agent ∧
      (i.agent = .host ∨ i.agent = .environment) ∧ (i.agent = .host ↔ ∃ w data, i = .command w data)

/-- R186, R193, R212, U11: a run ends if the link answers, and only then. With no further command and no further edge, the
link can give at most `linkWork` answers; while it holds an operation, each completion R186 names is an answer the block
takes; some answers leave it holding nothing, and in the general environment the run has then ended. While the link holds
an operation and gives no answer, a step changes nothing and the run has not ended, for ever. (That the link answers is
R186's fairness assumption, a blind spot; in the reference environment a send without a matching receive has no answer but
an error or abort: U12.) -/
def Obligations.RunEndsWhenTheLinkAnswers : Prop :=
  ∀ s : State, s.Inv → s.LinkInv →
    (∀ answers t, s.answered answers = some t → answers.length ≤ s.linkWork) ∧
    (∀ d, (s.link d).send ≠ none → ∃ t, exec (.evTxdone d) (s.delivered (.evTxdone d)) = .next t) ∧
    (∀ d bytes, (s.link d).recv = some bytes.length →
      ∃ t, exec (.evRxdone d bytes) (s.delivered (.evRxdone d bytes)) = .next t) ∧
    (∃ answers t, s.answered answers = some t ∧ t.outstanding = false) ∧
    (∀ answers t, s.answered answers = some t → t.outstanding = false → s.cfg.environment = .general →
      s.inputs = [] → s.undelivered = [] → t.ended = true) ∧
    (s.inputs = [] → s.outstanding = true → step s = .next s ∧ s.ended = false)

/-! ## The textual form -/

/-- R85: what each operand of a line means, and what an omitted one means: the target none, the length the number of data
bytes, every other operand 0. -/
def Obligations.OperandsMeanTheirText : Prop :=
  ∀ (words : List (List Char)) (i : Instr),
    (transmitLine words = .ok i → ∃ ops d target len dst rxreg rxlen opc data,
      words.mapM parseOperand = .ok ops ∧ i = .transmit d target len dst rxreg rxlen opc data ∧
      numberMeans ops "dev" d ∧ targetMeans ops target ∧ lengthMeans ops len data ∧ numberMeans ops "dst" dst ∧
      numberMeans ops "rxreg" rxreg ∧ numberMeans ops "rxlen" rxlen ∧ numberMeans ops "opc" opc ∧ dataMeans ops data) ∧
    (lookupLine words = .ok i → ∃ ops id, words.mapM parseOperand = .ok ops ∧ i = .lookup id ∧
      numberMeans ops "id" id) ∧
    (regreadLine words = .ok i → ∃ ops d reg, words.mapM parseOperand = .ok ops ∧ i = .regread d reg ∧
      numberMeans ops "dev" d ∧ numberMeans ops "reg" reg) ∧
    (clearLine words = .ok i → ∃ ops d st op ec, words.mapM parseOperand = .ok ops ∧ i = .clear d st op ec ∧
      numberMeans ops "dev" d ∧ numberMeans ops "st" st ∧ numberMeans ops "op" op ∧ numberMeans ops "ec" ec) ∧
    (rxdoneLine words = .ok i → ∃ ops d data, words.mapM parseOperand = .ok ops ∧ i = .evRxdone d data ∧
      numberMeans ops "dev" d ∧ dataMeans ops data) ∧
    (errorLine words = .ok i → ∃ ops d code, words.mapM parseOperand = .ok ops ∧ i = .evError d code ∧
      numberMeans ops "dev" d ∧ numberMeans ops "code" code) ∧
    (∀ make, deviceLine make words = .ok i → ∃ ops d, words.mapM parseOperand = .ok ops ∧ i = make d ∧
      numberMeans ops "dev" d)

/-- R86: each pseudo-instruction is shorthand for the command that its line stands for: SEND and REQUEST for the TRANSMIT
line of the same operands, RESETDEV for the CLEAR line of its device with st=0x0F op=0x3 ec=0xFF. A SEND or REQUEST without
tgt is an error, by the model's choice (log entry 21). -/
def Obligations.PseudoInstructionsAreShorthand : Prop :=
  ∀ (words : List (List Char)) (i : Instr),
    (parseLine "SEND".toList words = .ok i → parseLine "TRANSMIT".toList words = .ok i ∧
      ∃ d t len dst data, i = .transmit d (some t) len dst 0 0 0 data ∧ len.toNat = data.length) ∧
    (parseLine "REQUEST".toList words = .ok i → parseLine "TRANSMIT".toList words = .ok i ∧
      ∃ d t len dst rxreg rxlen data, i = .transmit d (some t) len dst rxreg rxlen 0 data ∧ len.toNat = data.length) ∧
    (parseLine "RESETDEV".toList words = .ok i →
      parseLine "CLEAR".toList (words ++ ["st=0x0F".toList, "op=0x3".toList, "ec=0xFF".toList]) = .ok i ∧
      ∃ d, i = .clear d 0x0F 0x03 0xFF)
end

