-- ==== Sys2Proof/Laws/Memory.lean ====
section
/-! SUPPORT. What the memory operations do: a read after a write, and that every operation keeps the canonical form. -/

namespace Sys2Proof.Machine

@[simp] theorem Mem.read_nil (a : Nat) : Mem.read [] a = memBackground := rfl

theorem Mem.read_cell (k : Nat) (b : Byte) (m : Mem) (a : Nat) :
    Mem.read ((k, b) :: m) a = if k = a then b else Mem.read m a := rfl

/-- Every offset a canonical memory lists after its head is larger. -/
theorem Mem.wf_tail {k : Nat} {b : Byte} {m : Mem} (h : Mem.wf ((k, b) :: m) = true) :
    b ≠ memBackground ∧ (∀ c ∈ m, k < c.1) ∧ Mem.wf m = true := by
  simpa [Mem.wf, and_assoc] using h

theorem Mem.wf_cell {k : Nat} {b : Byte} {m : Mem} (hb : b ≠ memBackground) (hm : ∀ c ∈ m, k < c.1)
    (h : Mem.wf m = true) : Mem.wf ((k, b) :: m) = true := by
  simp only [Mem.wf, Bool.and_eq_true, decide_eq_true_eq, List.all_eq_true]
  exact ⟨⟨hb, hm⟩, h⟩

/-- An offset below every listed one reads as unlisted. -/
theorem Mem.read_below {m : Mem} {a : Nat} (h : ∀ c ∈ m, a < c.1) : m.read a = memBackground := by
  induction m with
  | nil => rfl
  | cons c m ih =>
    obtain ⟨k, b⟩ := c
    have hk : a < k := h (k, b) (by simp)
    rw [Mem.read_cell, if_neg (by omega)]
    exact ih fun c hc => h c (by simp [hc])

theorem Mem.read_cons {m : Mem} {a : Nat} (b : Byte) (hm : ∀ c ∈ m, a < c.1) (x : Nat) :
    (Mem.cons a b m).read x = if x = a then b else m.read x := by
  unfold Mem.cons
  split
  · next hb =>
    split
    · next hx => subst hx; rw [Mem.read_below hm, hb]
    · rfl
  · rw [Mem.read_cell]
    by_cases hx : a = x
    · simp [hx]
    · simp [hx, Ne.symm hx]

theorem Mem.wf_cons {m : Mem} {a : Nat} (b : Byte) (hm : ∀ c ∈ m, a < c.1) (h : m.wf = true) :
    (Mem.cons a b m).wf = true := by
  unfold Mem.cons
  split
  · exact h
  · next hb => exact Mem.wf_cell hb hm h

theorem Mem.mem_cons {m : Mem} {a : Nat} {b : Byte} {c : Host.Cell} (h : c ∈ Mem.cons a b m) : c = (a, b) ∨ c ∈ m := by
  unfold Mem.cons at h
  split at h
  · exact Or.inr h
  · simpa using h

/-- What a write lists: cells of before, and the cell written. -/
theorem Mem.mem_write {m : Mem} {a : Nat} {b : Byte} {c : Host.Cell} (h : c ∈ m.write a b) : c = (a, b) ∨ c ∈ m := by
  induction m with
  | nil => simpa using Mem.mem_cons h
  | cons d m ih =>
    obtain ⟨k, e⟩ := d
    unfold Mem.write at h
    split at h
    · exact Mem.mem_cons h
    · split at h
      · exact (Mem.mem_cons h).imp id fun h => by simp [h]
      · rcases List.mem_cons.1 h with h | h
        · exact Or.inr (by simp [h])
        · exact (ih h).imp id fun h => by simp [h]

/-- A write keeps the canonical form. -/
theorem Mem.wf_write {m : Mem} (a : Nat) (b : Byte) (h : m.wf = true) : (m.write a b).wf = true := by
  induction m with
  | nil => exact Mem.wf_cons b (by simp) rfl
  | cons d m ih =>
    obtain ⟨k, e⟩ := d
    obtain ⟨he, hk, hm⟩ := Mem.wf_tail h
    unfold Mem.write
    split
    · next hlt =>
      refine Mem.wf_cons b ?_ h
      intro c hc
      rcases List.mem_cons.1 hc with rfl | hc
      · exact hlt
      · exact lt_trans hlt (hk c hc)
    · split
      · next heq => subst heq; exact Mem.wf_cons b hk hm
      · next hlt hne =>
        refine Mem.wf_cell he ?_ (ih hm)
        intro c hc
        rcases Mem.mem_write hc with rfl | hc
        · show k < a; omega
        · exact hk c hc

/-- A read after a write: the byte written, and every other offset as before. -/
theorem Mem.read_write {m : Mem} (a : Nat) (b : Byte) (h : m.wf = true) (x : Nat) :
    (m.write a b).read x = if x = a then b else m.read x := by
  induction m with
  | nil => exact Mem.read_cons b (by simp) x
  | cons d m ih =>
    obtain ⟨k, e⟩ := d
    obtain ⟨he, hk, hm⟩ := Mem.wf_tail h
    unfold Mem.write
    split
    · next hlt =>
      rw [Mem.read_cons]
      intro c hc
      rcases List.mem_cons.1 hc with rfl | hc
      · exact hlt
      · exact lt_trans hlt (hk c hc)
    · split
      · next heq =>
        subst heq
        rw [Mem.read_cons b hk, Mem.read_cell]
        by_cases hx : x = a
        · simp [hx]
        · simp [hx, Ne.symm hx]
      · next hlt hne =>
        rw [Mem.read_cell, Mem.read_cell, ih hm]
        by_cases hx : k = x
        · subst hx; simp [Ne.symm hne]
        · simp [hx]

theorem Mem.wf_writeList {m : Mem} (off : Nat) (bs : List Byte) (h : m.wf = true) :
    (m.writeList off bs).wf = true := by
  induction bs generalizing m off with
  | nil => exact h
  | cons b bs ih => exact ih _ (Mem.wf_write _ _ h)

/-- A read after a string of bytes was written. -/
theorem Mem.read_writeList {m : Mem} (off : Nat) (bs : List Byte) (h : m.wf = true) (x : Nat) :
    (m.writeList off bs).read x = if off ≤ x ∧ x < off + bs.length then bs.getD (x - off) 0 else m.read x := by
  induction bs generalizing m off with
  | nil => simp [Mem.writeList, show ¬ (off ≤ x ∧ x < off) by omega]
  | cons b bs ih =>
    rw [Mem.writeList, ih _ (Mem.wf_write _ _ h), Mem.read_write _ _ h]
    by_cases h1 : x = off
    · subst h1; simp
    · by_cases h2 : off ≤ x ∧ x < off + (bs.length + 1)
      · have h3 : x - off = (x - (off + 1)) + 1 := by omega
        rw [if_pos (by omega), if_pos (by simpa using h2), h3, List.getD_cons_succ]
      · rw [if_neg (by omega), if_neg h1, if_neg (by simpa using h2)]

theorem Mem.wf_memWrite {m : Mem} (off n : Nat) (bs : List Byte) (h : m.wf = true) :
    (m.memWrite off n bs).wf = true := Mem.wf_writeList _ _ h

/-- A read after MemWrite of at least n bytes (R13). -/
theorem Mem.read_memWrite {m : Mem} (off n : Nat) (bs : List Byte) (h : m.wf = true) (hn : n ≤ bs.length) (x : Nat) :
    (m.memWrite off n bs).read x = if off ≤ x ∧ x < off + n then bs.getD (x - off) 0 else m.read x := by
  rw [Mem.memWrite, Mem.read_writeList _ _ h, List.length_take, Nat.min_eq_left hn]
  split
  · next hx =>
    have h1 : x - off < n := by omega
    simp [List.getD_eq_getElem?_getD, h1]
  · rfl

/-- The bytes a MemRead gives (R13). -/
@[simp] theorem Mem.length_memRead (m : Mem) (off n : Nat) : (m.memRead off n).length = n := by simp [Mem.memRead]

theorem Mem.getD_memRead (m : Mem) (off n i : Nat) (h : i < n) : (m.memRead off n).getD i 0 = m.read (off + i) := by
  simp [Mem.memRead, List.getD_eq_getElem?_getD, h]

/-- A write inside the buffer lists no offset outside it. -/
theorem Mem.within_write {m : Mem} {a size : Nat} (b : Byte) (ha : a < size) (h : m.within size = true) :
    (m.write a b).within size = true := by
  simp only [Mem.within, List.all_eq_true, decide_eq_true_eq] at h ⊢
  intro c hc
  rcases Mem.mem_write hc with rfl | hc
  · exact ha
  · exact h c hc

theorem Mem.within_writeList {m : Mem} {off size : Nat} (bs : List Byte) (ho : off + bs.length ≤ size)
    (h : m.within size = true) : (m.writeList off bs).within size = true := by
  induction bs generalizing m off with
  | nil => exact h
  | cons b bs ih =>
    simp only [List.length_cons] at ho
    exact ih (by omega) (Mem.within_write _ (by omega) h)

theorem Mem.within_memWrite {m : Mem} {off n size : Nat} (bs : List Byte) (ho : off + n ≤ size)
    (h : m.within size = true) : (m.memWrite off n bs).within size = true :=
  Mem.within_writeList _ (by rw [List.length_take]; omega) h

end Sys2Proof.Machine
end

