-- ==== Sys2Proof/Laws/State.lean ====
section
/-! SUPPORT. The small lemmas of State: what each field reads after each update, so that no proof unfolds one. -/

namespace Sys2Proof.Machine

@[simp] theorem State.dev_setDev (s : State) (d e : DevIx) (D : Device) :
    (s.setDev d D).dev e = if e = d then D else s.dev e := by
  unfold State.setDev State.dev
  by_cases h : e = d
  · subst h; simp
  · have : d.toNat ≠ e.toNat := fun hn => h (BitVec.eq_of_toNat_eq hn.symm)
    simp [h, Vector.getElem_set_ne, this]

@[simp] theorem State.dev_modDev (s : State) (d e : DevIx) (f : Device → Device) :
    (s.modDev d f).dev e = if e = d then f (s.dev d) else s.dev e := by simp [State.modDev]

@[simp] theorem State.link_modLink (s : State) (d e : DevIx) (f : LinkSide → LinkSide) :
    (s.modLink d f).link e = if e = d then f (s.link d) else s.link e := by
  unfold State.modLink State.link
  by_cases h : e = d
  · subst h; simp
  · have : d.toNat ≠ e.toNat := fun hn => h (BitVec.eq_of_toNat_eq hn.symm)
    simp [h, Vector.getElem_set_ne, this]

@[simp] theorem State.modDev_cfg (s : State) (d : DevIx) (f : Device → Device) : (s.modDev d f).cfg = s.cfg := rfl
@[simp] theorem State.modDev_initialized (s : State) (d : DevIx) (f : Device → Device) :
    (s.modDev d f).initialized = s.initialized := rfl
@[simp] theorem State.modDev_links (s : State) (d : DevIx) (f : Device → Device) : (s.modDev d f).links = s.links := rfl
@[simp] theorem State.modDev_link (s : State) (d e : DevIx) (f : Device → Device) :
    (s.modDev d f).link e = s.link e := rfl
@[simp] theorem State.modDev_undelivered (s : State) (d : DevIx) (f : Device → Device) :
    (s.modDev d f).undelivered = s.undelivered := rfl
@[simp] theorem State.modDev_inputs (s : State) (d : DevIx) (f : Device → Device) : (s.modDev d f).inputs = s.inputs := rfl
@[simp] theorem State.modDev_outputs (s : State) (d : DevIx) (f : Device → Device) :
    (s.modDev d f).outputs = s.outputs := rfl
@[simp] theorem State.modDev_absent (s : State) (d e : DevIx) (f : Device → Device) :
    (s.modDev d f).absent e = s.absent e := rfl

@[simp] theorem State.modLink_cfg (s : State) (d : DevIx) (f : LinkSide → LinkSide) : (s.modLink d f).cfg = s.cfg := rfl
@[simp] theorem State.modLink_initialized (s : State) (d : DevIx) (f : LinkSide → LinkSide) :
    (s.modLink d f).initialized = s.initialized := rfl
@[simp] theorem State.modLink_dev (s : State) (d e : DevIx) (f : LinkSide → LinkSide) :
    (s.modLink d f).dev e = s.dev e := rfl
@[simp] theorem State.modLink_undelivered (s : State) (d : DevIx) (f : LinkSide → LinkSide) :
    (s.modLink d f).undelivered = s.undelivered := rfl
@[simp] theorem State.modLink_inputs (s : State) (d : DevIx) (f : LinkSide → LinkSide) :
    (s.modLink d f).inputs = s.inputs := rfl
@[simp] theorem State.modLink_outputs (s : State) (d : DevIx) (f : LinkSide → LinkSide) :
    (s.modLink d f).outputs = s.outputs := rfl
@[simp] theorem State.modLink_absent (s : State) (d e : DevIx) (f : LinkSide → LinkSide) :
    (s.modLink d f).absent e = s.absent e := rfl

@[simp] theorem State.respond_cfg (s : State) (ok : Bool) (p : BitVec 63) (bs : List Byte) :
    (s.respond ok p bs).cfg = s.cfg := rfl
@[simp] theorem State.respond_initialized (s : State) (ok : Bool) (p : BitVec 63) (bs : List Byte) :
    (s.respond ok p bs).initialized = s.initialized := rfl
@[simp] theorem State.respond_dev (s : State) (ok : Bool) (p : BitVec 63) (bs : List Byte) (e : DevIx) :
    (s.respond ok p bs).dev e = s.dev e := rfl
@[simp] theorem State.respond_link (s : State) (ok : Bool) (p : BitVec 63) (bs : List Byte) (e : DevIx) :
    (s.respond ok p bs).link e = s.link e := rfl
@[simp] theorem State.respond_undelivered (s : State) (ok : Bool) (p : BitVec 63) (bs : List Byte) :
    (s.respond ok p bs).undelivered = s.undelivered := rfl
@[simp] theorem State.respond_inputs (s : State) (ok : Bool) (p : BitVec 63) (bs : List Byte) :
    (s.respond ok p bs).inputs = s.inputs := rfl
@[simp] theorem State.respond_outputs (s : State) (ok : Bool) (p : BitVec 63) (bs : List Byte) :
    (s.respond ok p bs).outputs = s.outputs ++ [.response (responseWord ok p) bs] := rfl
@[simp] theorem State.respond_absent (s : State) (ok : Bool) (p : BitVec 63) (bs : List Byte) (e : DevIx) :
    (s.respond ok p bs).absent e = s.absent e := rfl

@[simp] theorem State.reject_eq (s : State) (c : RejectClass) : s.reject c = s.respond false 0 [] := rfl
@[simp] theorem State.accept_eq (s : State) : s.accept = s.respond true 0 [] := rfl

/-- The environment changes only its own side when it takes an output action. -/
@[simp] theorem State.environmentTakes_cfg (s : State) (a : Action) : (s.environmentTakes a).cfg = s.cfg := by
  cases a <;> simp only [State.environmentTakes] <;> repeat' split
  all_goals rfl
@[simp] theorem State.environmentTakes_initialized (s : State) (a : Action) :
    (s.environmentTakes a).initialized = s.initialized := by
  cases a <;> simp only [State.environmentTakes] <;> repeat' split
  all_goals rfl
@[simp] theorem State.environmentTakes_dev (s : State) (a : Action) (e : DevIx) :
    (s.environmentTakes a).dev e = s.dev e := by
  cases a <;> simp only [State.environmentTakes] <;> repeat' split
  all_goals rfl
@[simp] theorem State.environmentTakes_inputs (s : State) (a : Action) :
    (s.environmentTakes a).inputs = s.inputs := by
  cases a <;> simp only [State.environmentTakes] <;> repeat' split
  all_goals rfl

@[simp] theorem State.emit_cfg (s : State) (a : Action) : (s.emit a).cfg = s.cfg := s.environmentTakes_cfg a
@[simp] theorem State.emit_initialized (s : State) (a : Action) : (s.emit a).initialized = s.initialized :=
  s.environmentTakes_initialized a
@[simp] theorem State.emit_dev (s : State) (a : Action) (e : DevIx) : (s.emit a).dev e = s.dev e :=
  s.environmentTakes_dev a e
@[simp] theorem State.emit_inputs (s : State) (a : Action) : (s.emit a).inputs = s.inputs := s.environmentTakes_inputs a
@[simp] theorem State.emit_outputs (s : State) (a : Action) : (s.emit a).outputs = s.outputs ++ [.action a] := rfl
@[simp] theorem State.emit_absent (s : State) (a : Action) (e : DevIx) : (s.emit a).absent e = s.absent e := by
  simp [State.absent]

/-- A posted send is the outstanding send of its channel (R40 a). -/
@[simp] theorem State.emit_linkSend_link (s : State) (d e : DevIx) (bytes : List Byte) :
    (s.emit (.linkSend d bytes)).link e = if e = d then { s.link d with send := some bytes } else s.link e :=
  s.link_modLink d e fun l => { l with send := some bytes }

@[simp] theorem State.emit_linkSend_undelivered (s : State) (d : DevIx) (bytes : List Byte) :
    (s.emit (.linkSend d bytes)).undelivered = s.undelivered := rfl

/-- A posted receive is the outstanding receive of its channel (R40 b). -/
@[simp] theorem State.emit_linkRecv_link (s : State) (d e : DevIx) (n : Nat) :
    (s.emit (.linkRecv d n)).link e = if e = d then { s.link d with recv := some n } else s.link e :=
  s.link_modLink d e fun l => { l with recv := some n }

@[simp] theorem State.emit_linkRecv_undelivered (s : State) (d : DevIx) (n : Nat) :
    (s.emit (.linkRecv d n)).undelivered = s.undelivered := rfl

@[simp] theorem State.emit_settle_link (s : State) (n : Nat) (e : DevIx) : (s.emit (.settle n)).link e = s.link e := rfl

/-- Driving a chip-select posts and ends no link operation. -/
@[simp] theorem State.emit_csDrive_send (s : State) (t e : DevIx) (l : Bool) :
    ((s.emit (.csDrive t l)).link e).send = (s.link e).send := by
  show ((s.environmentTakes (.csDrive t l)).link e).send = _
  simp only [State.environmentTakes]
  split
  · rfl
  · split
    · rfl
    · show ((s.modLink t fun k => { k with csIn := l }).link e).send = _
      rw [State.link_modLink]
      split
      · next h => rw [h]
      · rfl

@[simp] theorem State.emit_csDrive_recv (s : State) (t e : DevIx) (l : Bool) :
    ((s.emit (.csDrive t l)).link e).recv = (s.link e).recv := by
  show ((s.environmentTakes (.csDrive t l)).link e).recv = _
  simp only [State.environmentTakes]
  split
  · rfl
  · split
    · rfl
    · show ((s.modLink t fun k => { k with csIn := l }).link e).recv = _
      rw [State.link_modLink]
      split
      · next h => rw [h]
      · rfl

/-- The general environment makes no event of a chip-select drive. -/
theorem State.emit_csDrive_general (s : State) (t : DevIx) (l : Bool) (h : s.cfg.environment = .general) :
    s.emit (.csDrive t l) = { s with outputs := s.outputs ++ [.action (.csDrive t l)] } := by
  simp [State.emit, State.environmentTakes, h]

/-- A channel of the machine right after reset. -/
@[simp] theorem State.dev_resetWith (c : Config) (draw : List ChannelDraw) (d : DevIx) :
    (State.resetWith c draw).dev d = deviceAtReset c (draw.getD d.toNat ChannelDraw.blank) := by
  simp [State.dev, State.resetWith]

@[simp] theorem State.link_resetWith (c : Config) (draw : List ChannelDraw) (d : DevIx) :
    (State.resetWith c draw).link d = linkAtReset c := by
  simp [State.link, State.resetWith]

end Sys2Proof.Machine
end

