-- ==== Sys2Proof/Laws/Ops.lean ====
section
/-! SUPPORT. What each shared operation does, said once; and the inversion of the acceptance checks and of a step. -/

namespace Sys2Proof.Machine

/-- A clamped length is the smaller of the length and 64 (R74). -/
theorem toNat_clampLen (b : Byte) : (clampLen b).toNat = min b.toNat 64 := by
  unfold clampLen maxPayload
  split
  · omega
  · simp; omega

theorem clampLen_le (b : Byte) : (clampLen b).toNat ≤ 64 := by rw [toNat_clampLen]; omega

/-- Clamping is done once: a clamped length stays (R74). -/
theorem clampLen_clampLen (b : Byte) : clampLen (clampLen b) = clampLen b := by
  conv_lhs => unfold clampLen
  exact if_pos (clampLen_le b)

@[simp] theorem length_headerBytes (opc dst len rxreg rxlen : Byte) :
    (headerBytes opc dst len rxreg rxlen).length = hdrLen := rfl

/-- Encode keeps the canonical form (R75). -/
theorem wf_encodePacket {m : Mem} (opc dst len rxreg rxlen : Byte) (data : List Byte) (h : m.wf = true) :
    (encodePacket m opc dst len rxreg rxlen data).wf = true :=
  Mem.wf_memWrite _ _ _ (Mem.wf_memWrite _ _ _ h)

/-- Encode stays inside the buffer (R50, R52). -/
theorem within_encodePacket {m : Mem} (opc dst len rxreg rxlen : Byte) (data : List Byte)
    (h : m.within bufLen = true) : (encodePacket m opc dst len rxreg rxlen data).within bufLen = true := by
  refine Mem.within_memWrite _ ?_ (Mem.within_memWrite _ ?_ h)
  · have := clampLen_le len; simp only [hdrLen, bufLen, maxPayload]; omega
  · simp only [hdrLen, bufLen, maxPayload]; omega

/-- The bytes of tx_buff after Encode: header, payload, and the bytes past it as before (R75). -/
theorem read_encodePacket {m : Mem} (opc dst len rxreg rxlen : Byte) (data : List Byte) (h : m.wf = true)
    (hd : (clampLen len).toNat ≤ data.length) (a : Nat) :
    (encodePacket m opc dst len rxreg rxlen data).read a =
      if a < hdrLen then (headerBytes opc dst len rxreg rxlen).getD a 0
      else if a < hdrLen + (clampLen len).toNat then data.getD (a - hdrLen) 0
      else m.read a := by
  unfold encodePacket
  rw [Mem.read_memWrite _ _ _ (Mem.wf_memWrite _ _ _ h) hd, Mem.read_memWrite _ _ _ h (by simp)]
  by_cases h1 : a < hdrLen
  · rw [if_neg (by omega), if_pos (by omega), if_pos h1, Nat.sub_zero]
  · rw [if_neg h1]
    by_cases h2 : a < hdrLen + (clampLen len).toNat
    · rw [if_pos (by omega), if_pos h2]
    · rw [if_neg (by omega), if_neg h2, if_neg (by omega)]

/-- The header a packet carries (R70, R75). -/
theorem memRead_encodePacket_header {m : Mem} (opc dst len rxreg rxlen : Byte) (data : List Byte) (h : m.wf = true)
    (hd : (clampLen len).toNat ≤ data.length) :
    (encodePacket m opc dst len rxreg rxlen data).memRead 0 hdrLen = headerBytes opc dst len rxreg rxlen := by
  simp [Mem.memRead, hdrLen, List.range_succ, read_encodePacket _ _ _ _ _ _ h hd, headerBytes]

/-- The length byte of a packet (R75, R119). -/
theorem sentLen_encodePacket {m : Mem} (opc dst len rxreg rxlen : Byte) (data : List Byte) (h : m.wf = true)
    (hd : (clampLen len).toNat ≤ data.length) :
    sentLen (encodePacket m opc dst len rxreg rxlen data) = (clampLen len).toNat := by
  simp [sentLen, read_encodePacket _ _ _ _ _ _ h hd, hdrLen, headerBytes]

/-- A response of word 0 (R82). -/
@[simp] theorem responseWord_no : responseWord false 0#63 = 0#64 := by decide

/-- A response of OK with no payload (R82). -/
@[simp] theorem responseWord_ok : responseWord true 0#63 = 0x8000000000000000#64 := by decide

/-- An index names no channel when it is N_DEV or above (R52, D29). -/
theorem absent_eq_true {s : State} {d : DevIx} : s.absent d = true ↔ s.cfg.nDev ≤ d.toNat := by
  simp [State.absent]

theorem absent_eq_false {s : State} {d : DevIx} : s.absent d = false ↔ d.toNat < s.cfg.nDev := by
  simp [State.absent]

/-- TRANSMIT is accepted exactly when no check of R111 fails. -/
theorem checkTransmit_eq_none {s : State} {d : DevIx} {target : Option DevIx} {len dst : Byte} :
    checkTransmit s d target len dst = none ↔
      s.initialized = true ∧ s.absent d = false ∧ 1 ≤ len.toNat ∧ dst.toNat < s.cfg.regCount ∧
        (∀ t, target = some t → s.absent t = false) ∧ (s.dev d).opTx = false := by
  unfold checkTransmit
  cases hi : s.initialized <;> cases ha : s.absent d <;> simp
  cases target <;> cases ht : (s.dev d).opTx <;> simp <;> repeat' split
  all_goals simp_all
  all_goals omega

/-- RECEIVE is accepted exactly when no check of R113 fails. -/
theorem checkReceive_eq_none {s : State} {d : DevIx} :
    checkReceive s d = none ↔ s.initialized = true ∧ s.absent d = false ∧ (s.dev d).opRx = false := by
  unfold checkReceive checkChannel
  cases hi : s.initialized <;> cases ha : s.absent d <;> cases hr : (s.dev d).opRx <;> simp

/-- The checks of the commands that only name a channel. -/
theorem checkChannel_eq_none {s : State} {d : DevIx} :
    checkChannel s d = none ↔ s.initialized = true ∧ s.absent d = false := by
  unfold checkChannel
  cases hi : s.initialized <;> cases ha : s.absent d <;> simp

/-- REGREAD is accepted exactly when no check of R161 fails. -/
theorem checkRegread_eq_none {s : State} {d : DevIx} {reg : Byte} :
    checkRegread s d reg = none ↔
      s.initialized = true ∧ s.absent d = false ∧ reg.toNat < s.cfg.regCount := by
  unfold checkRegread checkChannel
  cases hi : s.initialized <;> cases ha : s.absent d <;> simp

/-- An event is handled exactly after INIT and for a channel that exists (R103, D29). -/
theorem ignores_eq_false {s : State} {d : DevIx} :
    s.ignores d = false ↔ s.initialized = true ∧ s.absent d = false := by
  unfold State.ignores
  cases s.initialized <;> simp

@[simp] theorem deselect_dev (t e : DevIx) (s : State) :
    (deselect t s).dev e = if e = t then { s.dev t with csOut := true } else s.dev e := by simp [deselect]
@[simp] theorem deselect_cfg (t : DevIx) (s : State) : (deselect t s).cfg = s.cfg := by simp [deselect]
@[simp] theorem deselect_initialized (t : DevIx) (s : State) : (deselect t s).initialized = s.initialized := by
  simp [deselect]
@[simp] theorem deselect_inputs (t : DevIx) (s : State) : (deselect t s).inputs = s.inputs := by simp [deselect]
@[simp] theorem deselect_outputs (t : DevIx) (s : State) :
    (deselect t s).outputs = s.outputs ++ [.action (.csDrive t true)] := by simp [deselect]
@[simp] theorem deselect_send (t e : DevIx) (s : State) : ((deselect t s).link e).send = (s.link e).send := by
  simp [deselect]
@[simp] theorem deselect_recv (t e : DevIx) (s : State) : ((deselect t s).link e).recv = (s.link e).recv := by
  simp [deselect]

@[simp] theorem selectSequence_dev (t e : DevIx) (s : State) :
    (selectSequence t s).dev e = if e = t then { s.dev t with csOut := false } else s.dev e := by
  simp [selectSequence]
  by_cases h : e = t <;> simp [h]
@[simp] theorem selectSequence_cfg (t : DevIx) (s : State) : (selectSequence t s).cfg = s.cfg := by
  simp [selectSequence]
@[simp] theorem selectSequence_initialized (t : DevIx) (s : State) :
    (selectSequence t s).initialized = s.initialized := by simp [selectSequence]
@[simp] theorem selectSequence_inputs (t : DevIx) (s : State) : (selectSequence t s).inputs = s.inputs := by
  simp [selectSequence]
/-- SelectSequence emits its three actions in order (R60, R154). -/
@[simp] theorem selectSequence_outputs (t : DevIx) (s : State) :
    (selectSequence t s).outputs =
      s.outputs ++ [.action (.csDrive t true), .action (.settle s.cfg.tSettle), .action (.csDrive t false)] := by
  simp [selectSequence]
@[simp] theorem selectSequence_send (t e : DevIx) (s : State) :
    ((selectSequence t s).link e).send = (s.link e).send := by simp [selectSequence]
@[simp] theorem selectSequence_recv (t e : DevIx) (s : State) :
    ((selectSequence t s).link e).recv = (s.link e).recv := by simp [selectSequence]

/-- What selecting a target does to the channels: the controller records it, the target's cs_out ends at 0 (R110). -/
theorem selectTarget_dev (d e : DevIx) (target : Option DevIx) (s : State) :
    (selectTarget d target s).dev e =
      match target with
      | none => s.dev e
      | some t =>
        { s.dev e with
          targetDevice := if e = d then some t else (s.dev e).targetDevice
          csOut := if e = t then false else (s.dev e).csOut } := by
  cases target with
  | none => rfl
  | some t =>
    simp only [selectTarget, selectSequence_dev, State.dev_modDev]
    by_cases h1 : e = t <;> by_cases h2 : e = d
    · subst h1; subst h2; simp
    · subst h1; simp [h2]
    · subst h2; simp [h1]
    · simp [h1, h2]

@[simp] theorem selectTarget_cfg (d : DevIx) (target : Option DevIx) (s : State) :
    (selectTarget d target s).cfg = s.cfg := by cases target <;> simp [selectTarget]
@[simp] theorem selectTarget_initialized (d : DevIx) (target : Option DevIx) (s : State) :
    (selectTarget d target s).initialized = s.initialized := by cases target <;> simp [selectTarget]
@[simp] theorem selectTarget_inputs (d : DevIx) (target : Option DevIx) (s : State) :
    (selectTarget d target s).inputs = s.inputs := by cases target <;> simp [selectTarget]
@[simp] theorem selectTarget_send (d e : DevIx) (target : Option DevIx) (s : State) :
    ((selectTarget d target s).link e).send = (s.link e).send := by cases target <;> simp [selectTarget]
@[simp] theorem selectTarget_recv (d e : DevIx) (target : Option DevIx) (s : State) :
    ((selectTarget d target s).link e).recv = (s.link e).recv := by cases target <;> simp [selectTarget]

/-- The chip-select actions of an accepted TRANSMIT (R60, R154). -/
def selectOutputs (c : Config) : Option DevIx → List Output
  | none => []
  | some t => [.action (.csDrive t true), .action (.settle c.tSettle), .action (.csDrive t false)]

@[simp] theorem selectTarget_outputs (d : DevIx) (target : Option DevIx) (s : State) :
    (selectTarget d target s).outputs = s.outputs ++ selectOutputs s.cfg target := by
  cases target <;> simp [selectTarget, selectOutputs]

/-- Every channel after an accepted TRANSMIT (R110). -/
theorem acceptTransmit_dev (d e : DevIx) (target : Option DevIx) (len dst rxreg rxlen opc : Byte)
    (data : List Byte) (s : State) :
    (acceptTransmit d target len dst rxreg rxlen opc data s).dev e =
      let D := if e = d then startTransmit len dst rxreg rxlen opc data (s.dev d) else s.dev e
      match target with
      | none => D
      | some t =>
        { D with
          targetDevice := if e = d then some t else D.targetDevice
          csOut := if e = t then false else D.csOut } := by
  simp only [acceptTransmit, State.emit_dev, selectTarget_dev, State.dev_modDev]

@[simp] theorem acceptTransmit_cfg (d : DevIx) (target : Option DevIx) (len dst rxreg rxlen opc : Byte)
    (data : List Byte) (s : State) : (acceptTransmit d target len dst rxreg rxlen opc data s).cfg = s.cfg := by
  simp [acceptTransmit]
@[simp] theorem acceptTransmit_initialized (d : DevIx) (target : Option DevIx) (len dst rxreg rxlen opc : Byte)
    (data : List Byte) (s : State) :
    (acceptTransmit d target len dst rxreg rxlen opc data s).initialized = s.initialized := by
  simp [acceptTransmit]
@[simp] theorem acceptTransmit_inputs (d : DevIx) (target : Option DevIx) (len dst rxreg rxlen opc : Byte)
    (data : List Byte) (s : State) :
    (acceptTransmit d target len dst rxreg rxlen opc data s).inputs = s.inputs := by
  simp [acceptTransmit]

/-- The actions of an accepted TRANSMIT, in order (R60, R110). -/
theorem acceptTransmit_outputs (d : DevIx) (target : Option DevIx) (len dst rxreg rxlen opc : Byte)
    (data : List Byte) (s : State) :
    (acceptTransmit d target len dst rxreg rxlen opc data s).outputs =
      s.outputs ++ selectOutputs s.cfg target ++
        [.action (.linkSend d
          ((startTransmit len dst rxreg rxlen opc data (s.dev d)).txBuff.memRead 0 hdrLen))] := by
  simp only [acceptTransmit, State.emit_outputs, selectTarget_outputs, State.modDev_outputs, State.modDev_cfg,
    selectTarget_dev, State.dev_modDev]
  cases target <;> simp

/-- The link after an accepted TRANSMIT: the header is the outstanding send (R40 a). -/
theorem acceptTransmit_send (d e : DevIx) (target : Option DevIx) (len dst rxreg rxlen opc : Byte)
    (data : List Byte) (s : State) :
    ((acceptTransmit d target len dst rxreg rxlen opc data s).link e).send =
      if e = d then some ((startTransmit len dst rxreg rxlen opc data (s.dev d)).txBuff.memRead 0 hdrLen)
      else (s.link e).send := by
  simp only [acceptTransmit, State.emit_linkSend_link, selectTarget_dev, State.dev_modDev]
  split
  · cases target <;> simp
  · simp

@[simp] theorem acceptTransmit_recv (d e : DevIx) (target : Option DevIx) (len dst rxreg rxlen opc : Byte)
    (data : List Byte) (s : State) :
    ((acceptTransmit d target len dst rxreg rxlen opc data s).link e).recv = (s.link e).recv := by
  simp only [acceptTransmit, State.emit_linkSend_link]
  split
  · next h => subst h; simp
  · simp

@[simp] theorem acceptReceive_dev (d e : DevIx) (s : State) :
    (acceptReceive d s).dev e = if e = d then startReceive (s.dev d) else s.dev e := by simp [acceptReceive]
@[simp] theorem acceptReceive_cfg (d : DevIx) (s : State) : (acceptReceive d s).cfg = s.cfg := by
  simp [acceptReceive]
@[simp] theorem acceptReceive_initialized (d : DevIx) (s : State) :
    (acceptReceive d s).initialized = s.initialized := by simp [acceptReceive]
@[simp] theorem acceptReceive_inputs (d : DevIx) (s : State) : (acceptReceive d s).inputs = s.inputs := by
  simp [acceptReceive]
@[simp] theorem acceptReceive_outputs (d : DevIx) (s : State) :
    (acceptReceive d s).outputs = s.outputs ++ [.action (.linkRecv d hdrLen)] := by simp [acceptReceive]
@[simp] theorem acceptReceive_link (d e : DevIx) (s : State) :
    (acceptReceive d s).link e = if e = d then { s.link d with recv := some hdrLen } else s.link e := by
  simp [acceptReceive]
@[simp] theorem acceptReceive_undelivered (d : DevIx) (s : State) :
    (acceptReceive d s).undelivered = s.undelivered := rfl

/-- Every channel after TxPayloadDone (R120). -/
theorem txPayloadDone_dev (d e : DevIx) (s : State) :
    (txPayloadDone d s).dev e =
      { (if e = d then { ((s.dev d).setState maskTxComplete).clearTx with targetDevice := none } else s.dev e) with
        csOut := if (s.dev d).targetDevice = some e then true else (s.dev e).csOut } := by
  by_cases h : e = d
  · subst h
    cases hx : (s.dev e).targetDevice with
    | none => simp [txPayloadDone, hx, Device.setState, Device.clearTx]
    | some t =>
      by_cases ht : e = t
      · subst ht; simp [txPayloadDone, hx, Device.setState, Device.clearTx]
      · simp [txPayloadDone, hx, Device.setState, Device.clearTx, ht, Ne.symm ht]
  · cases hx : (s.dev d).targetDevice with
    | none => simp [txPayloadDone, hx, h]
    | some t =>
      by_cases ht : e = t
      · subst ht; simp [txPayloadDone, hx, h]
      · simp [txPayloadDone, hx, h, ht, Ne.symm ht]

@[simp] theorem txPayloadDone_send (d e : DevIx) (s : State) :
    ((txPayloadDone d s).link e).send = (s.link e).send := by
  cases hx : (s.dev d).targetDevice <;> simp [txPayloadDone, hx]
@[simp] theorem txPayloadDone_recv (d e : DevIx) (s : State) :
    ((txPayloadDone d s).link e).recv = (s.link e).recv := by
  cases hx : (s.dev d).targetDevice <;> simp [txPayloadDone, hx]
@[simp] theorem txPayloadDone_cfg (d : DevIx) (s : State) : (txPayloadDone d s).cfg = s.cfg := by
  cases hx : (s.dev d).targetDevice <;> simp [txPayloadDone, hx]
@[simp] theorem txPayloadDone_inputs (d : DevIx) (s : State) : (txPayloadDone d s).inputs = s.inputs := by
  cases hx : (s.dev d).targetDevice <;> simp [txPayloadDone, hx]

/-- The turnaround either leaves the state as it is or is an accepted TRANSMIT with no target (R123). -/
theorem turnaround_cases (d : DevIx) (s : State) :
    turnaround d s = s ∨
      ∃ m q data, checkTransmit s d none m q = none ∧ data.length = m.toNat ∧ clampLen m = m ∧
        turnaround d s = acceptTransmit d none m q 0 0 (hdrOpcode (s.dev d).rxBuff) data s := by
  simp only [turnaround]
  split
  · split
    · exact .inl rfl
    · next h => exact .inr ⟨_, _, _, h, Mem.length_memRead _ _ _, clampLen_clampLen _, rfl⟩
  · exact .inl rfl

/-- The model error check passes exactly when every channel's status word is one the rules can produce. -/
theorem modelError_eq_none {s : State} (hn : s.cfg.nDev ≤ 16) :
    s.modelError = none ↔
      ∀ d, s.absent d = false → (s.dev d).state.extractLsb' 6 2 = 0#2 ∧ phaseOf (s.dev d).state ≠ 0b100#3 := by
  have key : ∀ f : Device → Bool,
      (s.devs.toList.zipIdx.any (fun p => decide (p.2 < s.cfg.nDev) && f p.1)) = false ↔
        ∀ d, s.absent d = false → f (s.dev d) = false := by
    intro f
    rw [List.any_eq_false]
    constructor
    · intro h d hd
      have hd' : d.toNat < s.cfg.nDev := by simpa [State.absent] using hd
      have hm : (s.dev d, d.toNat) ∈ s.devs.toList.zipIdx := by
        rw [List.mem_zipIdx_iff_getElem?]
        simp [State.dev, d.isLt]
      simpa [hd'] using h _ hm
    · intro h p hp
      rw [List.mem_zipIdx_iff_getElem?] at hp
      by_cases hlt : p.2 < s.cfg.nDev
      · have h16 : p.2 < 2 ^ 4 := by omega
        have := h (BitVec.ofNat 4 p.2) (by simp [State.absent, Nat.mod_eq_of_lt (show p.2 < 16 from h16), hlt])
        have he : s.dev (BitVec.ofNat 4 p.2) = p.1 := by
          have h2 := hp
          simp [show p.2 < 16 from h16] at h2
          simp only [State.dev, BitVec.toNat_ofNat, Nat.mod_eq_of_lt h16]
          exact h2
        rw [he] at this
        simp [this]
      · simp [hlt]
  unfold State.modelError State.holdsReservedPhase State.holdsReservedBits
  rw [← forall_congr' fun d => forall_congr' fun _ => and_comm]
  have h1 := key fun D => phaseOf D.state == 0b100#3
  have h2 := key fun D => D.state.extractLsb' 6 2 != 0#2
  simp only [beq_eq_false_iff_ne, bne_eq_false_iff_eq] at h1 h2
  constructor
  · intro h d hd
    split at h
    · simp at h
    · next hp =>
      split at h
      · simp at h
      · next hb =>
        exact ⟨h1.1 (by simpa using hp) d hd, h2.1 (by simpa using hb) d hd⟩
  · intro h
    rw [if_neg (by rw [Bool.not_eq_true]; exact h1.2 fun d hd => (h d hd).1),
      if_neg (by rw [Bool.not_eq_true]; exact h2.2 fun d hd => (h d hd).2)]

/-- What a step that answers a next state did. -/
theorem step_eq_next {s t : State} (h : step s = .next t) :
    s.cfg.ok = true ∧ s.modelError = none ∧
      ((s.inputs = [] ∧ t = s) ∨
        ∃ i rest, s.inputs = i :: rest ∧ takeInput i { s with inputs := rest } = .next t) := by
  unfold step at h
  split at h
  · cases h
  · next hc =>
    split at h
    · cases h
    · next hm =>
      refine ⟨by simpa using hc, hm, ?_⟩
      split at h
      · next hi => cases h; exact .inl ⟨hi, rfl⟩
      · next i rest hi => exact .inr ⟨i, rest, hi, h⟩

end Sys2Proof.Machine
end

