-- ==== Sys2Proof/Laws/Exec.lean ====
section
/-! SUPPORT. Said once: every way an instruction can reach a next state, with the guards under which it does. A claim
about all instructions is a case analysis of `ExecEffect`. -/

namespace Sys2Proof.Machine

/-- How `exec i s` reached `t`. -/
inductive ExecEffect (s : State) : Instr → State → Prop
  /-- An ignored event. -/
  | ignored (i : Instr) : i.device ≠ none → ExecEffect s i s
  /-- A command that only answers: a rejection, or a read. -/
  | answered (i : Instr) (ok : Bool) (p : BitVec 63) (bs : List Byte) : i.isCommand = true →
      ExecEffect s i (s.respond ok p bs)
  /-- INIT, the first time. -/
  | initialised : s.initialized = false → ExecEffect s .init { s with initialized := true }.accept
  | transmitted (d : DevIx) (target : Option DevIx) (len dst rxreg rxlen opc : Byte) (data : List Byte) :
      checkTransmit s d target len dst = none → (clampLen len).toNat ≤ data.length →
      ExecEffect s (.transmit d target len dst rxreg rxlen opc data)
        (acceptTransmit d target len dst rxreg rxlen opc data s).accept
  | receiving (d : DevIx) : checkReceive s d = none → ExecEffect s (.receive d) (acceptReceive d s).accept
  | txHeader (d : DevIx) : s.initialized = true → s.absent d = false → (s.dev d).opTx = true →
      (s.dev d).txPos = false → hdrLen + sentLen (s.dev d).txBuff ≤ bufLen →
      ExecEffect s (.evTxdone d)
        ((s.modDev d fun D => { D with txPos := true }).emit
          (.linkSend d ((s.dev d).txBuff.memRead hdrLen (sentLen (s.dev d).txBuff))))
  | txPayload (d : DevIx) : s.initialized = true → s.absent d = false → (s.dev d).opTx = true →
      (s.dev d).txPos = true → ExecEffect s (.evTxdone d) (txPayloadDone d s)
  | rxHeader (d : DevIx) (bytes : List Byte) : s.initialized = true → s.absent d = false →
      (s.dev d).opRx = true → (s.dev d).rxPos = false → bytes.length = hdrLen →
      ExecEffect s (.evRxdone d bytes) (rxHeaderDone d bytes s)
  | rxPayload (d : DevIx) (bytes : List Byte) : s.initialized = true → s.absent d = false →
      (s.dev d).opRx = true → (s.dev d).rxPos = true → bytes.length = (hdrTxLen (s.dev d).rxBuff).toNat →
      ExecEffect s (.evRxdone d bytes) (rxPayloadDone d bytes s)
  | errored (d : DevIx) (code : Byte) : s.initialized = true → s.absent d = false →
      ExecEffect s (.evError d code)
        (s.modDev d fun D => { D.setState maskErr with errCode := D.errCode ||| code })
  | aborted (d : DevIx) : s.initialized = true → s.absent d = false →
      ExecEffect s (.evAbort d) (s.modDev d fun D => D.setState maskAbt)
  | selectedIdle (d : DevIx) : s.initialized = true → s.absent d = false → (s.dev d).op = 0 →
      ExecEffect s (.evCsfall d) (acceptReceive d (s.modDev d fun D => D.setState maskSel))
  | selectedBusy (d : DevIx) : s.initialized = true → s.absent d = false → (s.dev d).op ≠ 0 →
      ExecEffect s (.evCsfall d) (s.modDev d fun D => D.setState maskSel)
  | deselected (d : DevIx) : s.initialized = true → s.absent d = false →
      ExecEffect s (.evCsrise d) (s.modDev d fun D => D.clearState maskSel)
  | cleared (d : DevIx) (stmask opmask ecmask : Byte) : s.initialized = true → s.absent d = false →
      ExecEffect s (.clear d stmask opmask ecmask)
        (clearOpRx d opmask (clearOpTx d opmask (s.modDev d (clearBits stmask ecmask)))).accept

/-- Every next state of an instruction is one of these. -/
theorem exec_effect {i : Instr} {s t : State} (h : exec i s = .next t) : ExecEffect s i t := by
  cases i with
  | init =>
    simp only [exec, execInit] at h
    cases h
    split
    · next hi => exact .initialised hi
    · exact .answered .init true 0 [] rfl
  | isInit => cases h; exact .answered .isInit _ _ _ rfl
  | lookup id =>
    simp only [exec, execLookup] at h
    split at h
    · cases h; exact .answered (.lookup id) _ _ _ rfl
    · split at h <;> cases h <;> exact .answered (.lookup id) _ _ _ rfl
  | transmit d target len dst rxreg rxlen opc data =>
    simp only [exec, execTransmit] at h
    split at h
    · cases h; exact .answered (.transmit d target len dst rxreg rxlen opc data) _ _ _ rfl
    · next hc =>
      split at h
      · cases h
      · next hl => cases h; exact .transmitted d target len dst rxreg rxlen opc data hc (by omega)
  | receive d =>
    simp only [exec, execReceive] at h
    split at h
    · cases h; exact .answered (.receive d) _ _ _ rfl
    · next hc => cases h; exact .receiving d hc
  | status d =>
    simp only [exec, execStatus] at h
    split at h <;> cases h <;> exact .answered (.status d) _ _ _ rfl
  | regread d reg =>
    simp only [exec, execRegread] at h
    split at h <;> cases h <;> exact .answered (.regread d reg) _ _ _ rfl
  | clear d stmask opmask ecmask =>
    simp only [exec, execClear] at h
    split at h
    · cases h; exact .answered (.clear d stmask opmask ecmask) _ _ _ rfl
    · next hc =>
      cases h
      obtain ⟨h1, h2⟩ := checkChannel_eq_none.1 hc
      exact .cleared d stmask opmask ecmask h1 h2
  | evTxdone d =>
    simp only [exec, execEvTxdone] at h
    split at h
    · cases h; exact .ignored (.evTxdone d) (by simp [Instr.device])
    · next hg =>
      obtain ⟨h1, h2⟩ := ignores_eq_false.1 (by simpa using hg)
      split at h
      · cases h; exact .ignored (.evTxdone d) (by simp [Instr.device])
      · next ho =>
        split at h
        · next hp =>
          simp only [txHeaderDone, State.dev_modDev, if_true] at h
          split at h
          · next hl => cases h; exact .txHeader d h1 h2 (by simpa using ho) hp hl
          · cases h
        · next hp => cases h; exact .txPayload d h1 h2 (by simpa using ho) (by simpa using hp)
  | evRxdone d bytes =>
    simp only [exec, execEvRxdone] at h
    split at h
    · cases h; exact .ignored (.evRxdone d bytes) (by simp [Instr.device])
    · next hg =>
      obtain ⟨h1, h2⟩ := ignores_eq_false.1 (by simpa using hg)
      split at h
      · cases h; exact .ignored (.evRxdone d bytes) (by simp [Instr.device])
      · next ho =>
        split at h
        · cases h
        · next hl =>
          rw [not_not] at hl
          split at h
          · next hp =>
            cases h
            exact .rxHeader d bytes h1 h2 (by simpa using ho) hp (by rw [hl, Device.expectedRx, if_pos hp])
          · next hp =>
            cases h
            exact .rxPayload d bytes h1 h2 (by simpa using ho) (by simpa using hp)
              (by rw [hl, Device.expectedRx, if_neg hp])
  | evError d code =>
    simp only [exec, execEvError] at h
    split at h
    · cases h; exact .ignored (.evError d code) (by simp [Instr.device])
    · next hg =>
      cases h
      obtain ⟨h1, h2⟩ := ignores_eq_false.1 (by simpa using hg)
      exact .errored d code h1 h2
  | evAbort d =>
    simp only [exec, execEvAbort] at h
    split at h
    · cases h; exact .ignored (.evAbort d) (by simp [Instr.device])
    · next hg =>
      cases h
      obtain ⟨h1, h2⟩ := ignores_eq_false.1 (by simpa using hg)
      exact .aborted d h1 h2
  | evCsfall d =>
    simp only [exec, execEvCsfall] at h
    split at h
    · cases h; exact .ignored (.evCsfall d) (by simp [Instr.device])
    · next hg =>
      obtain ⟨h1, h2⟩ := ignores_eq_false.1 (by simpa using hg)
      simp only [State.dev_modDev, if_true, Device.setState] at h
      split at h
      · next ho => cases h; exact .selectedIdle d h1 h2 ho
      · next ho => cases h; exact .selectedBusy d h1 h2 ho
  | evCsrise d =>
    simp only [exec, execEvCsrise] at h
    split at h
    · cases h; exact .ignored (.evCsrise d) (by simp [Instr.device])
    · next hg =>
      cases h
      obtain ⟨h1, h2⟩ := ignores_eq_false.1 (by simpa using hg)
      exact .deselected d h1 h2

/-- The receive direction's part of RxPayloadDone on a channel (R122): what it writes, and what it leaves. -/
theorem storePayload_spec (c : Config) (D : Device) (bytes : List Byte)
    (hl : bytes.length = min (D.rxBuff.read 4).toNat 64) (h1 : D.rxBuff.wf = true) (h2 : D.regs.wf = true) :
    let n := min (D.rxBuff.read 4).toNat 64
    let r := (D.rxBuff.read 3).toNat
    let D' := storePayload c bytes D
    (∀ a, D'.rxBuff.read a = if 8 ≤ a ∧ a < 8 + n then bytes.getD (a - 8) 0 else D.rxBuff.read a) ∧
    (∀ a, D'.regs.read a =
      if n ≠ 0 ∧ r < c.regCount ∧ r * c.regSize ≤ a ∧ a < r * c.regSize + n
      then bytes.getD (a - r * c.regSize) 0 else D.regs.read a) ∧
    D'.rxBuff.wf = true ∧ D'.regs.wf = true ∧
    D' = { D with state := D.state ||| 0x30, op := D.op &&& 0b01#2, rxBuff := D'.rxBuff, regs := D'.regs } := by
  intro n r D'
  have e1 : (hdrTxLen D.rxBuff).toNat = n := by rw [hdrTxLen, toNat_clampLen]
  have hr : ∀ a, (D.rxBuff.memWrite hdrLen n bytes).read a =
      if 8 ≤ a ∧ a < 8 + n then bytes.getD (a - 8) 0 else D.rxBuff.read a := by
    intro a
    rw [Mem.read_memWrite _ _ _ h1 (by omega)]
  have e3 : hdrTxReg (D.rxBuff.memWrite hdrLen n bytes) = D.rxBuff.read 3 := by rw [hdrTxReg, hr]; simp
  simp only [D', storePayload, e1, e3]
  by_cases hc : n ≠ 0 ∧ (D.rxBuff.read 3).toNat < c.regCount
  · rw [if_pos hc]
    refine ⟨hr, ?_, Mem.wf_memWrite _ _ _ h1, Mem.wf_memWrite _ _ _ h2, rfl⟩
    intro a
    simp only [Device.setState, Device.clearRx]
    rw [Mem.read_memWrite _ _ _ h2 (by simp),
      show slotBase c.regSize (D.rxBuff.read 3) = (D.rxBuff.read 3).toNat * c.regSize from rfl]
    by_cases hx : (D.rxBuff.read 3).toNat * c.regSize ≤ a ∧ a < (D.rxBuff.read 3).toNat * c.regSize + n
    · rw [if_pos hx, if_pos ⟨hc.1, hc.2, hx⟩, Mem.getD_memRead _ _ _ _ (by omega), hr,
        if_pos (by simp [hdrLen]; omega)]
      simp [hdrLen, r]
    · rw [if_neg hx, if_neg (by tauto)]
  · rw [if_neg hc]
    refine ⟨hr, ?_, Mem.wf_memWrite _ _ _ h1, h2, rfl⟩
    intro a
    simp only [Device.setState, Device.clearRx]
    rw [if_neg (by tauto)]

end Sys2Proof.Machine
end

