-- ==== Sys2Proof/Laws/HostAccess.lean ====
section
/-! SUPPORT. What each part of a CLEAR does (44_host_access.md R162), so that no later proof unfolds it. -/

namespace Sys2Proof.Machine

/-- Whether a CLEAR ends the transmit direction, and with it the target. -/
def endsTx (s : State) (d : DevIx) (opmask : Byte) : Bool := opmask.getLsbD 0 && (s.dev d).opTx

theorem clearOpTx_eq (d : DevIx) (opmask : Byte) (s : State) :
    clearOpTx d opmask s =
      if endsTx s d opmask = true then
        match (s.dev d).targetDevice with
        | none => s.modDev d Device.clearTx
        | some t => deselect t ((s.modDev d Device.clearTx).modDev d fun D => { D with targetDevice := none })
      else s := by
  simp only [clearOpTx, endsTx, Bool.and_eq_true, State.dev_modDev, if_true, Device.clearTx] <;>
    rfl

/-- Every channel after op.TX's part of a CLEAR. -/
theorem clearOpTx_dev (d e : DevIx) (opmask : Byte) (s : State) :
    (clearOpTx d opmask s).dev e =
      if endsTx s d opmask = true then
        { (if e = d then { (s.dev d).clearTx with targetDevice := none } else s.dev e) with
          csOut := if (s.dev d).targetDevice = some e then true else (s.dev e).csOut }
      else s.dev e := by
  rw [clearOpTx_eq]
  split
  · by_cases h : e = d
    · subst h
      cases hx : (s.dev e).targetDevice with
      | none => simp [Device.clearTx, hx]
      | some t =>
        by_cases ht : e = t
        · subst ht; simp [Device.clearTx]
        · simp [Device.clearTx, ht, Ne.symm ht]
    · cases hx : (s.dev d).targetDevice with
      | none => simp [h]
      | some t =>
        by_cases ht : e = t
        · subst ht; simp [h]
        · simp [h, ht, Ne.symm ht]
  · rfl

@[simp] theorem clearOpTx_send (d e : DevIx) (opmask : Byte) (s : State) :
    ((clearOpTx d opmask s).link e).send = (s.link e).send := by
  rw [clearOpTx_eq]
  cases (s.dev d).targetDevice <;> split <;> simp
@[simp] theorem clearOpTx_recv (d e : DevIx) (opmask : Byte) (s : State) :
    ((clearOpTx d opmask s).link e).recv = (s.link e).recv := by
  rw [clearOpTx_eq]
  cases (s.dev d).targetDevice <;> split <;> simp
@[simp] theorem clearOpTx_cfg (d : DevIx) (opmask : Byte) (s : State) : (clearOpTx d opmask s).cfg = s.cfg := by
  rw [clearOpTx_eq]
  cases (s.dev d).targetDevice <;> split <;> simp
@[simp] theorem clearOpTx_initialized (d : DevIx) (opmask : Byte) (s : State) :
    (clearOpTx d opmask s).initialized = s.initialized := by
  rw [clearOpTx_eq]
  cases (s.dev d).targetDevice <;> split <;> simp
@[simp] theorem clearOpTx_inputs (d : DevIx) (opmask : Byte) (s : State) : (clearOpTx d opmask s).inputs = s.inputs := by
  rw [clearOpTx_eq]
  cases (s.dev d).targetDevice <;> split <;> simp

/-- The deselecting drive of a CLEAR that ends a transmit with a target. -/
theorem clearOpTx_outputs (d : DevIx) (opmask : Byte) (s : State) :
    (clearOpTx d opmask s).outputs =
      s.outputs ++
        (match if endsTx s d opmask then (s.dev d).targetDevice else none with
          | none => []
          | some t => [.action (.csDrive t true)]) := by
  rw [clearOpTx_eq]
  cases (s.dev d).targetDevice <;> split <;> simp [*]

@[simp] theorem clearOpRx_dev (d e : DevIx) (opmask : Byte) (s : State) :
    (clearOpRx d opmask s).dev e = if opmask.getLsbD 1 = true ∧ e = d then (s.dev d).clearRx else s.dev e := by
  unfold clearOpRx
  cases opmask.getLsbD 1 <;> simp
@[simp] theorem clearOpRx_link (d e : DevIx) (opmask : Byte) (s : State) :
    (clearOpRx d opmask s).link e = s.link e := by unfold clearOpRx; split <;> rfl
@[simp] theorem clearOpRx_cfg (d : DevIx) (opmask : Byte) (s : State) : (clearOpRx d opmask s).cfg = s.cfg := by
  unfold clearOpRx; split <;> rfl
@[simp] theorem clearOpRx_initialized (d : DevIx) (opmask : Byte) (s : State) :
    (clearOpRx d opmask s).initialized = s.initialized := by unfold clearOpRx; split <;> rfl
@[simp] theorem clearOpRx_inputs (d : DevIx) (opmask : Byte) (s : State) : (clearOpRx d opmask s).inputs = s.inputs := by
  unfold clearOpRx; split <;> rfl
@[simp] theorem clearOpRx_outputs (d : DevIx) (opmask : Byte) (s : State) :
    (clearOpRx d opmask s).outputs = s.outputs := by unfold clearOpRx; split <;> rfl

/-- What a CLEAR leaves of the link, and of each direction. -/
theorem clear_directions (s : State) (d e : DevIx) (stmask opmask ecmask : Byte) :
    let t := clearOpRx d opmask (clearOpTx d opmask (s.modDev d (clearBits stmask ecmask)))
    (t.link e).send = (s.link e).send ∧ (t.link e).recv = (s.link e).recv ∧ t.cfg = s.cfg ∧
      (t.dev e).expectedRx = (s.dev e).expectedRx ∧
      (e ≠ d ∨ opmask.getLsbD 0 = false → (t.dev e).opTx = (s.dev e).opTx) ∧
      (e ≠ d ∨ opmask.getLsbD 1 = false → (t.dev e).opRx = (s.dev e).opRx) := by
  intro t
  have hb : endsTx (s.modDev d (clearBits stmask ecmask)) d opmask = true → opmask.getLsbD 0 = true := by
    simp only [endsTx, Bool.and_eq_true]
    exact And.left
  refine ⟨by simp [t], by simp [t], by simp [t], ?_, fun h => ?_, fun h => ?_⟩ <;>
    simp only [t, clearOpRx_dev, clearOpTx_dev] <;>
    cases h0 : endsTx (s.modDev d (clearBits stmask ecmask)) d opmask <;> rw [h0] at hb <;>
    by_cases hed : e = d <;> by_cases h1 : opmask.getLsbD 1 = true <;>
    simp_all [clearBits, Device.clearState, Device.clearTx, Device.clearRx, Device.opTx, Device.opRx,
      Device.expectedRx]

end Sys2Proof.Machine
end

