-- ==== Sys2Proof/Laws/Delivery.lean ====
section
/-! SUPPORT. What noting a delivery changes (10_state.md R40): only the environment's own side, and there it only ends
operations; and what it keeps of the link's invariant. -/

namespace Sys2Proof.Machine

@[simp] theorem State.delivered_cfg (s : State) (i : Instr) : (s.delivered i).cfg = s.cfg := by
  cases i <;> simp only [State.delivered] <;> (try split) <;> rfl
@[simp] theorem State.delivered_initialized (s : State) (i : Instr) : (s.delivered i).initialized = s.initialized := by
  cases i <;> simp only [State.delivered] <;> (try split) <;> rfl
@[simp] theorem State.delivered_devs (s : State) (i : Instr) : (s.delivered i).devs = s.devs := by
  cases i <;> simp only [State.delivered] <;> (try split) <;> rfl
@[simp] theorem State.delivered_dev (s : State) (i : Instr) (e : DevIx) : (s.delivered i).dev e = s.dev e := by
  simp [State.dev]
@[simp] theorem State.delivered_inputs (s : State) (i : Instr) : (s.delivered i).inputs = s.inputs := by
  cases i <;> simp only [State.delivered] <;> (try split) <;> rfl
@[simp] theorem State.delivered_outputs (s : State) (i : Instr) : (s.delivered i).outputs = s.outputs := by
  cases i <;> simp only [State.delivered] <;> (try split) <;> rfl
@[simp] theorem State.delivered_absent (s : State) (i : Instr) (e : DevIx) :
    (s.delivered i).absent e = s.absent e := by simp [State.absent]

/-- A delivered command notes nothing. -/
theorem State.delivered_command (s : State) {i : Instr} (h : i.isCommand = true) : s.delivered i = s := by
  cases i <;> first | rfl | simp [Instr.isCommand, encode] at h

theorem State.modLink_send (s : State) (d e : DevIx) (f : LinkSide → LinkSide)
    (hf : (f (s.link d)).send = none ∨ (f (s.link d)).send = (s.link d).send) :
    ((s.modLink d f).link e).send = none ∨ ((s.modLink d f).link e).send = (s.link e).send := by
  rw [State.link_modLink]
  by_cases h : e = d
  · subst h; simpa using hf
  · simp [h]

theorem State.modLink_recv (s : State) (d e : DevIx) (f : LinkSide → LinkSide)
    (hf : (f (s.link d)).recv = none ∨ (f (s.link d)).recv = (s.link d).recv) :
    ((s.modLink d f).link e).recv = none ∨ ((s.modLink d f).link e).recv = (s.link e).recv := by
  rw [State.link_modLink]
  by_cases h : e = d
  · subst h; simpa using hf
  · simp [h]

/-- A delivery leaves an outstanding send or ends it. -/
theorem State.delivered_send (s : State) (i : Instr) (e : DevIx) :
    ((s.delivered i).link e).send = none ∨ ((s.delivered i).link e).send = (s.link e).send := by
  cases i <;> unfold State.delivered <;> (try dsimp only) <;> (try split) <;>
    first
      | exact .inr rfl
      | exact s.modLink_send _ e _ (.inl (by rfl))
      | exact s.modLink_send _ e _ (.inr (by rfl))
      | exact s.modLink_send _ e (fun l => LinkSide.mk none none l.csIn) (.inl rfl)

/-- A delivery leaves an outstanding receive or ends it. -/
theorem State.delivered_recv (s : State) (i : Instr) (e : DevIx) :
    ((s.delivered i).link e).recv = none ∨ ((s.delivered i).link e).recv = (s.link e).recv := by
  cases i <;> unfold State.delivered <;> (try dsimp only) <;> (try split) <;>
    first
      | exact .inr rfl
      | exact s.modLink_recv _ e _ (.inl (by rfl))
      | exact s.modLink_recv _ e _ (.inr (by rfl))
      | exact s.modLink_recv _ e (fun l => LinkSide.mk none none l.csIn) (.inl rfl)

/-- The completion of a send ends it. -/
theorem State.delivered_evTxdone (s : State) (d : DevIx) : ((s.delivered (.evTxdone d)).link d).send = none := by
  simp [State.delivered]

/-- The completion of a receive ends it. -/
theorem State.delivered_evRxdone (s : State) (d : DevIx) (bytes : List Byte) :
    ((s.delivered (.evRxdone d bytes)).link d).recv = none := by
  simp [State.delivered]

/-- An error or an abort ends both operations of its channel (R187 d). -/
theorem State.delivered_evError_link (s : State) (d e : DevIx) (code : Byte) :
    (s.delivered (.evError d code)).link e =
      if e = d then { send := none, recv := none, csIn := (s.link d).csIn } else s.link e :=
  s.link_modLink d e fun l => { l with send := none, recv := none }
theorem State.delivered_evAbort_link (s : State) (d e : DevIx) :
    (s.delivered (.evAbort d)).link e =
      if e = d then { send := none, recv := none, csIn := (s.link d).csIn } else s.link e :=
  s.link_modLink d e fun l => { l with send := none, recv := none }

/-- A delivery keeps the link's invariant (R40, R187). -/
theorem State.LinkInv.delivered {s : State} (h : s.LinkInv) (i : Instr) : (s.delivered i).LinkInv := by
  intro e
  obtain ⟨h1, h2⟩ := h e
  simp only [State.delivered_absent, State.delivered_dev]
  constructor
  · intro hs
    rcases s.delivered_send i e with hn | hn <;> rw [hn] at hs
    · simp at hs
    · exact h1 hs
  · intro n hn
    rcases s.delivered_recv i e with hr | hr <;> rw [hr] at hn
    · simp at hn
    · exact h2 n hn

/-- What an accepted TRANSMIT leaves of the receive direction, and the op bit it sets (R110). -/
theorem acceptTransmit_directions (d e : DevIx) (target : Option DevIx) (len dst rxreg rxlen opc : Byte)
    (data : List Byte) (s : State) :
    let D := (acceptTransmit d target len dst rxreg rxlen opc data s).dev e
    D.opRx = (s.dev e).opRx ∧ D.expectedRx = (s.dev e).expectedRx ∧
      D.opTx = if e = d then true else (s.dev e).opTx := by
  intro D
  simp only [D, acceptTransmit_dev]
  cases target <;> by_cases h : e = d <;>
    simp [h, startTransmit, Device.setTx, Device.setState, Device.opRx, Device.opTx, Device.expectedRx]

end Sys2Proof.Machine
end

