-- ==== Sys2Proof/Laws/Encoding.lean ====
section
/-! SUPPORT. A field read back from a word that was put together of placed fields. -/

namespace Sys2Proof

theorem getLsbD_place {n : Nat} (k : Nat) (v : BitVec n) (i : Nat) :
    (place k v).getLsbD i = (decide (i < 64) && decide (k ≤ i) && v.getLsbD (i - k)) := by
  by_cases h : i < 64
  · by_cases hk : k ≤ i
    · simp [place, h, hk, show ¬ i < k by omega]
    · simp [place, h, hk, show i < k by omega]
  · simp [place, h]

/-- A field reads what was placed there. -/
theorem extract_place_same {n : Nat} (k : Nat) (v : BitVec n) (h : k + n ≤ 64) :
    (place k v).extractLsb' k n = v := by
  apply BitVec.eq_of_getLsbD_eq
  intro i hi
  have h1 : k + i < 64 := by omega
  rw [BitVec.getLsbD_extractLsb', getLsbD_place]
  simp [hi, h1]

/-- A placed field has no bit under a mask that is 0 at its place. -/
theorem place_and_eq_zero {n : Nat} (k : Nat) (v : BitVec n) (mask : Word)
    (h : ∀ i, i < n → mask.getLsbD (k + i) = false) : place k v &&& mask = 0#64 := by
  apply BitVec.eq_of_getLsbD_eq
  intro i hi
  rw [BitVec.getLsbD_and, getLsbD_place]
  by_cases hk : k ≤ i
  · by_cases hn : i - k < n
    · have := h (i - k) hn
      rw [show k + (i - k) = i by omega] at this
      simp [this]
    · rw [BitVec.getLsbD_of_ge v (i - k) (by omega)]; simp
  · simp [hk]

/-- A word put together of two parts has no bit under a mask that neither has. -/
theorem or_and_eq_zero {a b mask : Word} (ha : a &&& mask = 0#64) (hb : b &&& mask = 0#64) :
    (a ||| b) &&& mask = 0#64 := by
  rw [BitVec.and_comm, BitVec.and_or_distrib_left, BitVec.and_comm mask a, BitVec.and_comm mask b, ha, hb]
  rfl

/-- A field reads nothing of what was placed beside it. -/
theorem extract_place_disjoint {n : Nat} (k : Nat) (v : BitVec n) (j m : Nat) (h : k + n ≤ j ∨ j + m ≤ k) :
    (place k v).extractLsb' j m = 0 := by
  apply BitVec.eq_of_getLsbD_eq
  intro i hi
  rw [BitVec.getLsbD_extractLsb', getLsbD_place]
  rcases h with h | h
  · rw [BitVec.getLsbD_of_ge v _ (by omega)]; simp
  · simp [show ¬ k ≤ j + i by omega]

/-- A one-bit field reads nothing of what was placed beside it. -/
theorem getLsbD_place_disjoint {n : Nat} (k : Nat) (v : BitVec n) (j : Nat) (h : k + n ≤ j ∨ j < k) :
    (place k v).getLsbD j = false := by
  rw [getLsbD_place]
  rcases h with h | h
  · rw [BitVec.getLsbD_of_ge v _ (by omega)]; simp
  · simp [show ¬ k ≤ j by omega]

/-- The same for a bit read by its index. -/
theorem getElem_place_disjoint {n : Nat} (k : Nat) (v : BitVec n) (j : Nat) (hj : j < 64) (h : k + n ≤ j ∨ j < k) :
    (place k v)[j] = false := by
  rw [← BitVec.getLsbD_eq_getElem]; exact getLsbD_place_disjoint k v j h

/-- A one-bit field reads what was placed there. -/
theorem getElem_place_same (k : Nat) (b : Bool) (hk : k < 64) : (place k (BitVec.ofBool b))[k] = b := by
  rw [← BitVec.getLsbD_eq_getElem, getLsbD_place]; simp [hk]

/-- A field lies in the bits a mask keeps: words that agree under the mask agree in the field. -/
theorem extract_eq_of_mask {w w' mask : Word} {k n : Nat} (h : w' &&& mask = w &&& mask)
    (hm : mask.extractLsb' k n = BitVec.allOnes n) : w'.extractLsb' k n = w.extractLsb' k n := by
  have hw := congrArg (BitVec.extractLsb' k n) h
  rwa [BitVec.extractLsb'_and, BitVec.extractLsb'_and, hm, BitVec.and_allOnes, BitVec.and_allOnes] at hw

/-- The same for one bit. -/
theorem getLsbD_eq_of_mask {w w' mask : Word} {k : Nat} (h : w' &&& mask = w &&& mask)
    (hm : mask.getLsbD k = true) : w'.getLsbD k = w.getLsbD k := by
  have hw := congrArg (fun x : Word => x.getLsbD k) h
  simpa [BitVec.getLsbD_and, hm] using hw

/-- The code field of a word with only a code. -/
theorem fieldCode_bareWord (code : BitVec 4) : fieldCode (bareWord code) = code := by
  simp only [fieldCode, bareWord]; rw [extract_place_same 0 code (by decide)]

/-- The code field of a word with a code and a device index. -/
theorem fieldCode_devWord (d : DevIx) (code : BitVec 4) : fieldCode (devWord d code) = code := by
  simp (disch := omega) [fieldCode, devWord, BitVec.extractLsb'_or, extract_place_same, extract_place_disjoint]

/-- The device field of a word with a code and a device index. -/
theorem fieldDev_devWord (d : DevIx) (code : BitVec 4) : fieldDev (devWord d code) = d := by
  simp (disch := omega) [fieldDev, devWord, BitVec.extractLsb'_or, extract_place_same, extract_place_disjoint]

end Sys2Proof
end

