-- ==== Sys2Proof/Laws/Invariant.lean ====
section
/-! SUPPORT. What each operation on one channel keeps of that channel's invariant. A claim that a step keeps the
invariant is a case analysis of `ExecEffect` over these. -/

namespace Sys2Proof.Machine

/-- Setting any mask the rules set keeps a status word legal (R22, R26, R27). -/
theorem legalState_or (x : Byte) (h : legalState x = true) :
    legalState (x ||| maskTxPending) = true ∧ legalState (x ||| maskRxPending) = true ∧
      legalState (x ||| maskTxComplete) = true ∧ legalState (x ||| maskRxComplete) = true ∧
      legalState (x ||| maskSel) = true ∧ legalState (x ||| maskErr) = true ∧ legalState (x ||| maskAbt) = true := by
  revert x; decide +kernel

/-- Clearing keeps a status word legal where PHASE is cleared whole or not at all (R28, R162). -/
theorem legalState_and (x y : Byte) (h : legalState x = true)
    (hy : y.extractLsb' 3 3 = 0 ∨ y.extractLsb' 3 3 = 7) : legalState (x &&& ~~~y) = true := by
  have e1 : (x &&& ~~~y).extractLsb' 6 2 = x.extractLsb' 6 2 &&& ~~~y.extractLsb' 6 2 := by
    ext i hi
    simp [show 6 + i < 8 by omega]
  have e2 : phaseOf (x &&& ~~~y) = phaseOf x &&& ~~~y.extractLsb' 3 3 := by
    ext i hi
    simp [phaseOf, show 3 + i < 8 by omega]
  simp only [legalState, Bool.and_eq_true, decide_eq_true_eq] at h ⊢
  rw [e1, e2, h.1]
  rcases hy with hy | hy <;> rw [hy]
  · exact ⟨by simp, fun hp => h.2 (by rw [← hp]; exact (BitVec.and_allOnes (w := 3)).symm)⟩
  · exact ⟨by simp, by rw [show ~~~(7 : BitVec 3) = 0#3 from rfl, BitVec.and_zero]; decide⟩

/-- A CLEAR clears PHASE whole or not at all (R162). -/
theorem clearMask_phase (stmask : Byte) :
    (clearMask stmask).extractLsb' 3 3 = 0 ∨ (clearMask stmask).extractLsb' 3 3 = 7 := by
  revert stmask; decide +kernel

/-- cs_out is free (R34). -/
theorem Device.Inv.setCsOut {c : Config} {D : Device} (h : D.Inv c) (level : Bool) :
    ({ D with csOut := level } : Device).Inv c :=
  ⟨h.state, h.targetTx, h.targetIndex, h.sent, h.tx, h.rx, h.regs⟩

/-- SEL, ERR or ABT set, and any fault code (R140, R141, R151). -/
theorem Device.Inv.setFlag {c : Config} {D : Device} (h : D.Inv c) (m : Byte)
    (hm : m = maskSel ∨ m = maskErr ∨ m = maskAbt) (code : Byte) :
    ({ D.setState m with errCode := code } : Device).Inv c := by
  refine ⟨?_, h.targetTx, h.targetIndex, h.sent, h.tx, h.rx, h.regs⟩
  obtain ⟨-, -, -, -, h1, h2, h3⟩ := legalState_or _ h.state
  rcases hm with rfl | rfl | rfl
  · exact h1
  · exact h2
  · exact h3

/-- An accepted TRANSMIT's own channel, its target recorded (R110). -/
theorem Device.Inv.startTransmit {c : Config} {D : Device} {len dst rxreg rxlen opc : Byte} {data : List Byte}
    (h : D.Inv c) (hl : 1 ≤ len.toNat) (hd : (clampLen len).toNat ≤ data.length) (target : Option DevIx)
    (ht : ∀ t, target = some t → t.toNat < c.nDev) (level : Bool) :
    ({ startTransmit len dst rxreg rxlen opc data D with
        targetDevice := if target.isSome then target else D.targetDevice
        csOut := level } : Device).Inv c := by
  have htx := h.tx
  simp only [Mem.legal, Bool.and_eq_true] at htx
  refine ⟨(legalState_or _ h.state).1, ?_, ?_, ?_, ?_, h.rx, h.regs⟩
  · intro _
    simp [Device.opTx, Machine.startTransmit, Device.setTx]
  · intro t hx
    by_cases hs : target.isSome = true
    · simp only [hs, if_true] at hx
      exact ht t hx
    · rw [if_neg hs] at hx
      exact h.targetIndex t hx
  · intro _
    simp only [Machine.startTransmit]
    rw [sentLen_encodePacket _ _ _ _ _ _ (by simpa [Device.setTx, Device.setState] using htx.1) hd, toNat_clampLen]
    simp [maxPayload]
    omega
  · simp only [Machine.startTransmit, Mem.legal, Bool.and_eq_true]
    exact ⟨wf_encodePacket _ _ _ _ _ _ htx.1, within_encodePacket _ _ _ _ _ _ htx.2⟩

/-- An accepted RECEIVE (R113). -/
theorem Device.Inv.startReceive {c : Config} {D : Device} (h : D.Inv c) : (startReceive D).Inv c := by
  refine ⟨(legalState_or _ h.state).2.1, ?_, h.targetIndex, ?_, h.tx, h.rx, h.regs⟩
  · intro hx
    simpa [Machine.startReceive, Device.setRx, Device.setState, Device.opTx] using h.targetTx hx
  · intro hx
    exact h.sent (by simpa [Machine.startReceive, Device.setRx, Device.setState, Device.opTx] using hx)

/-- The header of a receive landing in rx_buff (R121). -/
theorem Device.Inv.headerReceived {c : Config} {D : Device} (h : D.Inv c) (bytes : List Byte) (pos : Bool) :
    ({ D with rxBuff := D.rxBuff.memWrite 0 hdrLen bytes, rxPos := pos } : Device).Inv c := by
  have hr := h.rx
  simp only [Mem.legal, Bool.and_eq_true] at hr
  refine ⟨h.state, h.targetTx, h.targetIndex, h.sent, h.tx, ?_, h.regs⟩
  simp only [Mem.legal, Bool.and_eq_true]
  exact ⟨Mem.wf_memWrite _ _ _ hr.1, Mem.within_memWrite _ (by decide) hr.2⟩

/-- The payload of a receive landing in rx_buff and its slot (R122): no offset outside them is listed (R52). -/
theorem Device.Inv.storePayload {c : Config} {D : Device} {bytes : List Byte} (h : D.Inv c) (hc : 64 ≤ c.regSize)
    (hl : bytes.length = (hdrTxLen D.rxBuff).toNat) : (storePayload c bytes D).Inv c := by
  have hr := h.rx
  have hg := h.regs
  simp only [Mem.legal, Bool.and_eq_true] at hr hg
  rw [hdrTxLen, toNat_clampLen] at hl
  obtain ⟨-, -, w1, w2, e⟩ := storePayload_spec c D bytes hl hr.1 hg.1
  have hn : (hdrTxLen D.rxBuff).toNat ≤ 64 := by rw [hdrTxLen]; exact clampLen_le _
  refine ⟨?_, ?_, ?_, ?_, ?_, ?_, ?_⟩
  · rw [e]; exact (legalState_or _ h.state).2.2.2.1
  · rw [e]; intro hx; simpa [Device.opTx] using h.targetTx hx
  · rw [e]; exact h.targetIndex
  · rw [e]; intro hx; exact h.sent (by simpa [Device.opTx] using hx)
  · rw [e]; exact h.tx
  · simp only [Mem.legal, Bool.and_eq_true, w1, true_and]
    have key : (D.rxBuff.memWrite hdrLen (hdrTxLen D.rxBuff).toNat bytes).within bufLen = true :=
      Mem.within_memWrite _ (by simp only [hdrLen, bufLen, maxPayload]; omega) hr.2
    simp only [Machine.storePayload]
    split <;> exact key
  · simp only [Mem.legal, Bool.and_eq_true, w2, true_and]
    simp only [Machine.storePayload]
    split
    · next hx =>
      refine Mem.within_memWrite _ (le_trans ?_ (Nat.mul_le_mul_right _ (Nat.succ_le_of_lt hx.2))) hg.2
      rw [Nat.succ_mul]
      exact Nat.add_le_add_left (le_trans hn hc) _
    · exact hg.2

/-- A channel whose op.TX ends, or stays with its target: TxPayloadDone and CLEAR (R120, R162). -/
theorem Device.Inv.release {c : Config} {D : Device} (h : D.Inv c) (state code : Byte) (hs : legalState state = true)
    (target : Option DevIx) (ht : target = D.targetDevice ∨ target = none) (op : BitVec 2)
    (ho : op.getLsbD 0 = true → D.opTx = true) (hto : target ≠ none → op.getLsbD 0 = true) (level : Bool) :
    ({ D with state := state, errCode := code, op := op, targetDevice := target, csOut := level } : Device).Inv c := by
  refine ⟨hs, hto, fun t hx => ?_, fun hx => h.sent (ho hx), h.tx, h.rx, h.regs⟩
  rcases ht with rfl | rfl
  · exact h.targetIndex t hx
  · cases hx

end Sys2Proof.Machine
end

