-- ==== Sys2Proof/Laws/PerInstr.lean ====
section
/-! SUPPORT. Statements for all instructions, made per instruction: the port and the code of each instruction's word are
those of its row of spec/opcode_table.json (30_encoding.md R79, R81). -/

namespace Sys2Proof.Laws

/-- The port and the code of each row of the opcode table. -/
def opcodeRow : Instr → Port × BitVec 4
  | .init => (.command, 1)
  | .isInit => (.command, 2)
  | .lookup _ => (.command, 3)
  | .transmit _ _ _ _ _ _ _ _ => (.command, 4)
  | .receive _ => (.command, 5)
  | .status _ => (.command, 6)
  | .regread _ _ => (.command, 7)
  | .clear _ _ _ _ => (.command, 8)
  | .evTxdone _ => (.event, 1)
  | .evRxdone _ _ => (.event, 2)
  | .evError _ _ => (.event, 3)
  | .evAbort _ => (.event, 4)
  | .evCsfall _ => (.event, 5)
  | .evCsrise _ => (.event, 6)

/-- The word of an instruction is put on its port and carries its code in bits 3:0. -/
def OpcodeField.Statement (i : Instr) : Prop :=
  ((encode i).port, fieldCode (encode i).word) = opcodeRow i

theorem OpcodeField.init :
    OpcodeField.Statement (.init) := by
  simp [OpcodeField.Statement, encode, opcodeRow, fieldCode_bareWord]

theorem OpcodeField.isInit :
    OpcodeField.Statement (.isInit) := by
  simp [OpcodeField.Statement, encode, opcodeRow, fieldCode_bareWord]

theorem OpcodeField.lookup (id : BitVec 32) :
    OpcodeField.Statement (.lookup id) := by
  simp (disch := omega) [OpcodeField.Statement, encode, opcodeRow, lookupWord, fieldCode, BitVec.extractLsb'_or,
    extract_place_same, extract_place_disjoint]

theorem OpcodeField.transmit (dev : DevIx) (target : Option DevIx) (len : Byte) (dst : Byte) (rxreg : Byte) (rxlen : Byte) (opc : Byte) (data : List Byte) :
    OpcodeField.Statement (.transmit dev target len dst rxreg rxlen opc data) := by
  simp (disch := omega) [OpcodeField.Statement, encode, opcodeRow, transmitWord, fieldCode, BitVec.extractLsb'_or,
    extract_place_same, extract_place_disjoint]

theorem OpcodeField.receive (dev : DevIx) :
    OpcodeField.Statement (.receive dev) := by
  simp [OpcodeField.Statement, encode, opcodeRow, fieldCode_devWord]

theorem OpcodeField.status (dev : DevIx) :
    OpcodeField.Statement (.status dev) := by
  simp [OpcodeField.Statement, encode, opcodeRow, fieldCode_devWord]

theorem OpcodeField.regread (dev : DevIx) (reg : Byte) :
    OpcodeField.Statement (.regread dev reg) := by
  simp (disch := omega) [OpcodeField.Statement, encode, opcodeRow, regreadWord, fieldCode, BitVec.extractLsb'_or,
    extract_place_same, extract_place_disjoint]

theorem OpcodeField.clear (dev : DevIx) (stmask : Byte) (opmask : Byte) (ecmask : Byte) :
    OpcodeField.Statement (.clear dev stmask opmask ecmask) := by
  simp (disch := omega) [OpcodeField.Statement, encode, opcodeRow, clearWord, fieldCode, BitVec.extractLsb'_or,
    extract_place_same, extract_place_disjoint]

theorem OpcodeField.evTxdone (dev : DevIx) :
    OpcodeField.Statement (.evTxdone dev) := by
  simp [OpcodeField.Statement, encode, opcodeRow, fieldCode_devWord]

theorem OpcodeField.evRxdone (dev : DevIx) (bytes : List Byte) :
    OpcodeField.Statement (.evRxdone dev bytes) := by
  simp [OpcodeField.Statement, encode, opcodeRow, fieldCode_devWord]

theorem OpcodeField.evError (dev : DevIx) (code : Byte) :
    OpcodeField.Statement (.evError dev code) := by
  simp (disch := omega) [OpcodeField.Statement, encode, opcodeRow, errorWord, fieldCode, BitVec.extractLsb'_or,
    extract_place_same, extract_place_disjoint]

theorem OpcodeField.evAbort (dev : DevIx) :
    OpcodeField.Statement (.evAbort dev) := by
  simp [OpcodeField.Statement, encode, opcodeRow, fieldCode_devWord]

theorem OpcodeField.evCsfall (dev : DevIx) :
    OpcodeField.Statement (.evCsfall dev) := by
  simp [OpcodeField.Statement, encode, opcodeRow, fieldCode_devWord]

theorem OpcodeField.evCsrise (dev : DevIx) :
    OpcodeField.Statement (.evCsrise dev) := by
  simp [OpcodeField.Statement, encode, opcodeRow, fieldCode_devWord]

end Sys2Proof.Laws
end

