-- ==== Sys2Proof/Laws/Schedule.lean ====
section
/-! SUPPORT. What taking an input leaves of the schedule, and what an answer of the link does to the work the link has
left (60_exceptions.md R186). -/

namespace Sys2Proof.Machine

/-- The general environment may report any event (R188). -/
@[simp] theorem State.mayArrive_general {s : State} (h : s.cfg.environment = .general) (i : Instr) :
    s.mayArrive i = true := by
  cases i <;> simp [State.mayArrive, h]

/-- No instruction reads or writes the schedule (log entry 4). -/
theorem exec_inputs {i : Instr} {s t : State} (h : exec i s = .next t) : t.inputs = s.inputs := by
  cases exec_effect h with
  | rxPayload d bytes =>
    rcases turnaround_cases d (s.modDev d (storePayload s.cfg bytes)) with ht | ⟨m, q, data, -, -, -, ht⟩ <;>
      rw [rxPayloadDone, ht] <;> simp
  | cleared d stmask opmask ecmask => simp [clearOpRx]; split <;> simp
  | _ => first | rfl | simp

theorem runWord_inputs {e : Encoded} {s t : State} (h : runWord e s = .next t) : t.inputs = s.inputs := by
  unfold runWord at h
  split at h
  · rw [exec_inputs h, State.delivered_inputs]
  · next err _ => cases h; cases err <;> rfl

/-- Taking an input leaves the inputs after it. -/
theorem takeInput_inputs {i : Input} {s t : State} (h : takeInput i s = .next t) : t.inputs = s.inputs := by
  cases i with
  | command w data => exact runWord_inputs h
  | event w data =>
    simp only [takeInput] at h
    split at h
    · exact runWord_inputs h
    · cases h
  | reset draw => cases h; rfl
  | pair c =>
    simp only [takeInput, pairTransfer] at h
    split at h
    · cases h
    · split at h
      · split at h <;> cases h
        rfl
      · cases h
  | deliver k =>
    simp only [takeInput, deliverEvent] at h
    split at h
    · cases h
    · split at h
      · cases h
      · rw [runWord_inputs h]

/-! ## The work the link has left -/

/-- One channel's work falls and no other's grows. -/
theorem State.linkWork_lt {s t : State} (d : DevIx)
    (hd : channelWork (t.dev d) (t.link d) < channelWork (s.dev d) (s.link d))
    (hle : ∀ e, e ≠ d → channelWork (t.dev e) (t.link e) ≤ channelWork (s.dev e) (s.link e)) :
    t.linkWork < s.linkWork := by
  refine List.sum_lt_sum _ _ (fun k _ => ?_) ⟨d.toNat, by simpa using d.isLt, ?_⟩
  · by_cases h : BitVec.ofNat 4 k = d
    · subst h; exact Nat.le_of_lt hd
    · exact hle _ h
  · simpa using hd

/-- What an instruction leaves of one channel's work, from what it does to the parts of it the work is counted from. -/
theorem channelWork_congr {D D' : Device} {l l' : LinkSide} (h1 : D'.txPos = D.txPos) (h2 : D'.rxPos = D.rxPos)
    (h3 : l'.send = l.send) (h4 : l'.recv = l.recv) : channelWork D' l' = channelWork D l := by
  simp [channelWork, h1, h2, h3, h4]

/-- A turnaround that transmits found op.TX clear (R123). -/
theorem checkTransmit_opTx {s : State} {d : DevIx} {m q : Byte}
    (h : checkTransmit s d none m q = none) : (s.dev d).opTx = false := by
  rw [checkTransmit_eq_none] at h
  tauto

theorem State.linkWork_congr {s t : State}
    (h : ∀ e, channelWork (t.dev e) (t.link e) = channelWork (s.dev e) (s.link e)) : t.linkWork = s.linkWork := by
  simp [State.linkWork, h]

/-- Ending every operation the link holds of one channel leaves less work. -/
theorem State.linkWork_lt_of_ended {s t : State} {d : DevIx} (hdev : ∀ e, t.dev e = s.dev e)
    (hd : (s.link d).send.isSome = true ∨ (s.link d).recv.isSome = true) (h1 : (t.link d).send = none)
    (h2 : (t.link d).recv = none) (h3 : ∀ e, e ≠ d → t.link e = s.link e) : t.linkWork < s.linkWork := by
  refine State.linkWork_lt d ?_ fun e he => by rw [hdev, h3 e he]
  rw [hdev]
  rcases hd with hd | hd <;> simp only [channelWork, h1, h2, hd] <;> (repeat' split) <;> simp_all

/-- An answer of the link leaves it less to answer (R124, R186). -/
theorem answer_linkWork_lt {i : Instr} {s t : State} (hl : s.LinkInv) (ha : s.isAnswer i = true)
    (h : exec i (s.delivered i) = .next t) : t.linkWork < s.linkWork := by
  cases i with
  | evTxdone d =>
    simp only [State.isAnswer] at ha
    have hmine : ((s.delivered (.evTxdone d)).link d).send = none := s.delivered_evTxdone d
    have hrecv : ∀ e, ((s.delivered (.evTxdone d)).link e).recv = (s.link e).recv := by
      intro e; simp only [State.delivered, State.link_modLink]; split
      · next h => subst h; rfl
      · rfl
    have hsend : ∀ e, e ≠ d → ((s.delivered (.evTxdone d)).link e).send = (s.link e).send := by
      intro e he; simp [State.delivered, he]
    obtain ⟨b, hb⟩ := Option.isSome_iff_exists.1 ha
    cases exec_effect h with
    | answered _ _ _ _ hc => simp [Instr.isCommand, encode] at hc
    | ignored =>
      refine State.linkWork_lt d ?_ fun e he => ?_
      · simp [channelWork, hmine, hrecv, hb]; split <;> omega
      · simp [channelWork, hsend e he, hrecv]
    | txHeader _ _ _ _ h4 =>
      refine State.linkWork_lt d ?_ fun e he => ?_
      · simp at h4
        simp [channelWork, hrecv, hb, h4]
      · simp [channelWork, hsend e he, hrecv, he]
    | txPayload _ _ _ _ h4 =>
      simp at h4
      refine State.linkWork_lt d ?_ fun e he => ?_
      · simp [channelWork, txPayloadDone_dev, hmine, hrecv, hb, h4, Device.setState, Device.clearTx]
      · simp [channelWork, txPayloadDone_dev, hsend e he, hrecv, he]
  | evRxdone d bytes =>
    simp only [State.isAnswer, decide_eq_true_eq] at ha
    have hsend : ∀ e, ((s.delivered (.evRxdone d bytes)).link e).send = (s.link e).send := by
      intro e; simp only [State.delivered, State.link_modLink]; split
      · next h => subst h; rfl
      · rfl
    have hmine : ((s.delivered (.evRxdone d bytes)).link d).recv = none := s.delivered_evRxdone d bytes
    have hrecv : ∀ e, e ≠ d → ((s.delivered (.evRxdone d bytes)).link e).recv = (s.link e).recv := by
      intro e he; simp [State.delivered, he]
    cases exec_effect h with
    | answered _ _ _ _ hc => simp [Instr.isCommand, encode] at hc
    | ignored =>
      refine State.linkWork_lt d ?_ fun e he => ?_
      · simp [channelWork, hmine, hsend, ha]; split <;> omega
      · simp [channelWork, hsend e, hrecv e he]
    | rxHeader _ _ _ _ _ h4 =>
      simp at h4
      refine State.linkWork_lt d ?_ fun e he => ?_
      · simp [channelWork, rxHeaderDone, hsend, ha, h4]
      · simp [channelWork, rxHeaderDone, hsend e, hrecv e he, he]
    | rxPayload _ _ _ _ _ h4 =>
      simp at h4
      rcases turnaround_cases d ((s.delivered (.evRxdone d bytes)).modDev d
          (storePayload (s.delivered (.evRxdone d bytes)).cfg bytes)) with ht | ⟨m, q, data, hc, -, -, ht⟩
      · rw [rxPayloadDone, ht]
        have hp : (storePayload s.cfg bytes (s.dev d)).txPos = (s.dev d).txPos := by
          simp only [storePayload]; split <;> rfl
        refine State.linkWork_lt d ?_ fun e he => ?_
        · simp [channelWork, hsend, hmine, ha, hp, h4]
        · simp [channelWork, hsend e, hrecv e he, he]
      · have ho := checkTransmit_opTx hc
        have hn : (s.link d).send = none := by
          have := (hl d).1
          cases hs : (s.link d).send with
          | none => rfl
          | some b =>
            have := (this (by simp [hs])).2
            simp at ho
            have e : (storePayload s.cfg bytes (s.dev d)).opTx = (s.dev d).opTx := by
              simp only [storePayload]; split <;> simp [Device.opTx, Device.setState, Device.clearRx]
            rw [e, this] at ho; cases ho
        rw [rxPayloadDone, ht]
        refine State.linkWork_lt d ?_ fun e he => ?_
        · simp [channelWork, acceptTransmit_dev, acceptTransmit_send, hmine, hn, ha, h4, startTransmit]
        · simp [channelWork, acceptTransmit_dev, acceptTransmit_send, hsend, hrecv e he, he]
  | evError d code =>
    have hd : (s.delivered (.evError d code)).linkWork < s.linkWork :=
      State.linkWork_lt_of_ended (d := d) (fun e => s.delivered_dev _ e)
        (by simpa only [State.isAnswer, Bool.or_eq_true] using ha)
        (by rw [State.delivered_evError_link, if_pos rfl]) (by rw [State.delivered_evError_link, if_pos rfl])
        fun e he => by rw [State.delivered_evError_link, if_neg he]
    cases exec_effect h with
    | answered _ _ _ _ hc => simp [Instr.isCommand, encode] at hc
    | ignored => exact hd
    | errored =>
      refine lt_of_eq_of_lt (State.linkWork_congr fun e => ?_) hd
      rw [State.modDev_link, State.dev_modDev]
      split
      · next he => subst he; rfl
      · rfl
  | evAbort d =>
    have hd : (s.delivered (.evAbort d)).linkWork < s.linkWork :=
      State.linkWork_lt_of_ended (d := d) (fun e => s.delivered_dev _ e)
        (by simpa only [State.isAnswer, Bool.or_eq_true] using ha)
        (by rw [State.delivered_evAbort_link, if_pos rfl]) (by rw [State.delivered_evAbort_link, if_pos rfl])
        fun e he => by rw [State.delivered_evAbort_link, if_neg he]
    cases exec_effect h with
    | answered _ _ _ _ hc => simp [Instr.isCommand, encode] at hc
    | ignored => exact hd
    | aborted =>
      refine lt_of_eq_of_lt (State.linkWork_congr fun e => ?_) hd
      rw [State.modDev_link, State.dev_modDev]
      split
      · next he => subst he; rfl
      · rfl
  | _ => cases ha

end Sys2Proof.Machine
end

