-- ==== Sys2Proof/Tests/Slice0.lean ====
section
/-! SUPPORT. The model's own tests: expected values are the spec's (30_encoding.md R87, 95_test_vectors.md V1 to V54) or
computed by hand from the rule a test names; and, for every statement with hypotheses, a state and operands that meet
them. -/

namespace Sys2Proof.Tests

open Sys2Proof.Machine

/-! ## Helpers -/

/-- Reset and INIT with the reference parameters (R204). -/
def ready : State := { State.reset with initialized := true }

/-- The state an outcome gives; the state it started from where it stops. -/
def after (s : State) (i : Instr) : State :=
  match exec i s with
  | .next t => t
  | .fault _ => s
  | .refused _ => s

/-- Whether an outcome is a next state that passes a check. -/
def gives (o : Host.Outcome State Fault Refusal) (check : State → Bool) : Bool :=
  match o with
  | .next t => check t
  | .fault _ => false
  | .refused _ => false

def faults (o : Host.Outcome State Fault Refusal) (f : Fault) : Bool :=
  match o with
  | .next _ => false
  | .fault g => decide (g = f)
  | .refused _ => false

def refuses (o : Host.Outcome State Fault Refusal) (r : Refusal) : Bool :=
  match o with
  | .next _ => false
  | .fault _ => false
  | .refused q => decide (q = r)

def ping : List Byte := [0x50, 0x49, 0x4E, 0x47]

/-- SEND01 of the vectors. -/
def send01 : Instr := .transmit 0 (some 1) 4 0 0 0 1 ping

/-- A transmit in flight in its header phase, with a target: device 0 after SEND01, by hand from R110. -/
def sending : State :=
  (ready.modDev 0 fun D =>
    { D with
      state := 0x08, op := 0b01, targetDevice := some 1
      txBuff := [(0, 0xFF), (1, 0xFF), (2, 1), (4, 4), (7, 0xFF), (8, 0x50), (9, 0x49), (10, 0x4E), (11, 0x47)] }).modDev
    1 fun D => { D with csOut := false }

/-- The same transmit in its payload phase. -/
def sendingPayload : State := sending.modDev 0 fun D => { D with txPos := true }

/-- A receive in flight on device 1 in its header phase (R113). -/
def listening : State := ready.modDev 1 fun D => { D with state := 0x10, op := 0b10 }

/-- A receive in flight on device 1 in its payload phase, with a header in rx_buff (R121). -/
def receiving (opc reg len rxreg rxlen : Byte) : State :=
  ready.modDev 1 fun D =>
    { D with
      state := 0x10, op := 0b10, rxPos := true
      rxBuff := Mem.memWrite [] 0 8 [0xFF, 0xFF, opc, reg, len, rxreg, rxlen, 0xFF] }

/-- The link holds the send and the receive that the channels wait for. -/
def sendingLink : State := sending.modLink 0 fun l => { l with send := some [0xFF, 0xFF, 1, 0, 4, 0, 0, 0xFF] }
def listeningLink : State := listening.modLink 1 fun l => { l with recv := some 8 }

/-- A state with inputs on its schedule. -/
def withInputs (s : State) (inputs : List Input) : State := { s with inputs := inputs }

/-- n letters A between quotation marks. -/
def quoted (n : Nat) : List Char := [quoteMark] ++ List.replicate n 'A' ++ [quoteMark]

/-- The reference loopback environment (R189). -/
def loopback (s : State) : State := { s with cfg := { s.cfg with environment := .loopback } }

/-! ## The transcriber's check (R78, R190, R185) -/

theorem test_wellFormed_refuses_short_data : Instr.wellFormed (.transmit 0 none 4 0 0 0 0 [1, 2, 3]) = false := by decide
theorem test_wellFormed_takes_enough_data : Instr.wellFormed (.transmit 0 none 4 0 0 0 0 [1, 2, 3, 4]) = true := by decide
/-- LEN 65 clamps to 64, so 64 bytes are enough (R74). -/
theorem test_wellFormed_clamps :
    Instr.wellFormed (.transmit 0 none 65 0 0 0 0 (List.replicate 64 0)) = true ∧
      Instr.wellFormed (.transmit 0 none 65 0 0 0 0 (List.replicate 63 0)) = false := by decide
theorem test_wellFormed_refuses_long_receive :
    Instr.wellFormed (.evRxdone 1 (List.replicate 65 0)) = false ∧
      Instr.wellFormed (.evRxdone 1 (List.replicate 64 0)) = true := by decide

/-! ## Words written out from R78 to R81 and R87, decoded and encoded -/

theorem test_decode_init : decode ⟨.command, 0x0000000000000001, []⟩ = .ok .init := by decide
theorem test_decode_isInit : decode ⟨.command, 0x0000000000000002, []⟩ = .ok .isInit := by decide
theorem test_decode_lookup : decode ⟨.command, 0x0000100200000003, []⟩ = .ok (.lookup 0x1002) := by decide
theorem test_decode_transmit :
    decode ⟨.command, 0x0001000000041104, ping⟩ = .ok send01 := by decide
/-- Every field of TRANSMIT at a value of its own: OPC 7, RXLEN 6, RXREG 5, DST 4, LEN 3, TGTV 1, TGT 2, DEV 1. -/
theorem test_decode_transmit_fields :
    decode ⟨.command, 0x0007060504031214, [9]⟩ = .ok (.transmit 1 (some 2) 3 4 5 6 7 [9]) := by decide
/-- TGTV 0: TGT is not used (R78). -/
theorem test_decode_transmit_no_target :
    decode ⟨.command, 0x0000000001020F04, [0x41, 0x42]⟩ = .ok (.transmit 0 none 2 1 0 0 0 [0x41, 0x42]) := by decide
theorem test_decode_receive : decode ⟨.command, 0x0000000000000015, []⟩ = .ok (.receive 1) := by decide
theorem test_decode_status : decode ⟨.command, 0x0000000000000006, []⟩ = .ok (.status 0) := by decide
theorem test_decode_regread : decode ⟨.command, 0x0000000003000017, []⟩ = .ok (.regread 1 3) := by decide
theorem test_decode_clear : decode ⟨.command, 0x000000FF030F0008, []⟩ = .ok (.clear 0 0x0F 0x3 0xFF) := by decide
theorem test_decode_evTxdone : decode ⟨.event, 0x0000000000000011, []⟩ = .ok (.evTxdone 1) := by decide
theorem test_decode_evRxdone : decode ⟨.event, 0x0000000000000012, ping⟩ = .ok (.evRxdone 1 ping) := by decide
theorem test_decode_evError : decode ⟨.event, 0x0000000000000113, []⟩ = .ok (.evError 1 0x01) := by decide
theorem test_decode_evAbort : decode ⟨.event, 0x0000000000000014, []⟩ = .ok (.evAbort 1) := by decide
theorem test_decode_evCsfall : decode ⟨.event, 0x0000000000000015, []⟩ = .ok (.evCsfall 1) := by decide
theorem test_decode_evCsrise : decode ⟨.event, 0x0000000000000016, []⟩ = .ok (.evCsrise 1) := by decide

theorem test_encode_commands :
    (encode .init).word = 0x0000000000000001 ∧ (encode .isInit).word = 0x0000000000000002 ∧
      (encode (.lookup 0x1002)).word = 0x0000100200000003 ∧ (encode send01).word = 0x0001000000041104 ∧
      (encode (.transmit 1 (some 2) 3 4 5 6 7 [])).word = 0x0007060504031214 ∧
      (encode (.receive 1)).word = 0x0000000000000015 ∧ (encode (.status 0)).word = 0x0000000000000006 ∧
      (encode (.regread 1 0)).word = 0x0000000000000017 ∧
      (encode (.clear 0 0x0F 0x3 0xFF)).word = 0x000000FF030F0008 := by decide
theorem test_encode_events :
    (encode (.evTxdone 1)).word = 0x0000000000000011 ∧ (encode (.evRxdone 1 [])).word = 0x0000000000000012 ∧
      (encode (.evError 1 0x01)).word = 0x0000000000000113 ∧ (encode (.evAbort 1)).word = 0x0000000000000014 ∧
      (encode (.evCsfall 1)).word = 0x0000000000000015 ∧ (encode (.evCsrise 1)).word = 0x0000000000000016 := by decide

/-- The first and the last code of each reserved range (R79, R81). -/
theorem test_decode_reserved :
    decode ⟨.command, 0x10, []⟩ = .error (.reservedCommand 0) ∧
      decode ⟨.command, 0x19, []⟩ = .error (.reservedCommand 9) ∧
      decode ⟨.command, 0x1F, []⟩ = .error (.reservedCommand 15) ∧
      decode ⟨.event, 0x10, []⟩ = .error (.reservedEvent 0) ∧ decode ⟨.event, 0x17, []⟩ = .error (.reservedEvent 7) ∧
      decode ⟨.event, 0x1F, []⟩ = .error (.reservedEvent 15) := by decide
/-- A reserved bit set in STATUS: the word decodes, and is not canonical (R83, U13). -/
theorem test_canonicalWord :
    decode ⟨.command, 0x0000000000002006, []⟩ = .ok (.status 0) ∧
      canonicalWord ⟨.command, 0x0000000000002006, []⟩ = false ∧
      canonicalWord ⟨.command, 0x0000000000000006, []⟩ = true := by decide

/-- The three pseudo-instructions (R86). -/
theorem test_pseudo :
    pseudoSend 0 1 2 ping = .transmit 0 (some 1) 4 2 0 0 0 ping ∧
      pseudoRequest 0 1 2 ping 3 5 = .transmit 0 (some 1) 4 2 3 5 0 ping ∧
      pseudoResetdev 1 = .clear 1 0x0F 0x3 0xFF := by decide

/-- The table's numbers are read on the command port; bit 64 names the event port (log entry 5). -/
theorem test_decodeTableWord :
    decodeTableWord 64 0x15 = some (.receive 1) ∧ decodeTableWord 65 (0x15 + 2 ^ 64) = some (.evCsfall 1) ∧
      decodeTableWord 64 0x09 = none := by decide

/-! ## The textual form (R85, R86): the lines of R87 -/

theorem test_assemble_transmit :
    assemble "TRANSMIT dev=0 tgt=1 len=4 dst=0 opc=0x01 data=\"PING\" ; the PING scenario".toList =
      .ok (some send01) := by decide
theorem test_assemble_default_len :
    assemble "TRANSMIT dev=1 dst=2 data=[5a 5A]".toList = .ok (some (.transmit 1 none 2 2 0 0 0 [0x5A, 0x5A])) := by decide
theorem test_assemble_lookup : assemble "LOOKUP id=0x1002".toList = .ok (some (.lookup 0x1002)) := by decide
theorem test_assemble_clear :
    assemble "CLEAR dev=0 st=0x0F op=0x3 ec=0xFF".toList = .ok (some (.clear 0 0x0F 0x3 0xFF)) := by decide
theorem test_assemble_rxdone :
    assemble "@RXDONE dev=1 data=[50 49 4E 47]".toList = .ok (some (.evRxdone 1 ping)) := by decide
theorem test_assemble_error : assemble "@ERROR dev=1 code=0x01".toList = .ok (some (.evError 1 1)) := by decide
theorem test_assemble_comment : assemble "  ; no command".toList = .ok none := by decide
theorem test_assemble_refuses :
    assemble "TRANSMIT dev=0 len=5 dst=0 data=\"PING\"".toList = .error .illFormed ∧
      assemble "STATUS dev=16".toList = .error .badNumber ∧ assemble "JUMP".toList = .error .unknownMnemonic ∧
      assemble "STATUS reg=1".toList = .error .unknownOperand := by decide
/-- R86: SEND, REQUEST and RESETDEV lines. -/
theorem test_assemble_pseudo :
    assemble "SEND dev=0 tgt=1 dst=2 data=\"PING\"".toList = .ok (some (.transmit 0 (some 1) 4 2 0 0 0 ping)) ∧
      assemble "REQUEST dev=0 tgt=1 dst=2 data=\"PING\" rxreg=3 rxlen=5".toList =
        .ok (some (.transmit 0 (some 1) 4 2 3 5 0 ping)) ∧
      assemble "RESETDEV dev=1".toList = .ok (some (.clear 1 0x0F 0x3 0xFF)) := by decide
/-- R85: an omitted tgt of a TRANSMIT means no target; a SEND or REQUEST without it is an error (log entry 21). -/
theorem test_assemble_omitted_target :
    assemble "TRANSMIT data=[41]".toList = .ok (some (.transmit 0 none 1 0 0 0 0 [0x41])) ∧
      assemble "SEND dev=0 dst=2 data=\"PING\"".toList = .error .missingTarget ∧
      assemble "REQUEST dev=0 dst=2 data=\"PING\" rxreg=3 rxlen=5".toList = .error .missingTarget := by decide
theorem test_renderOutput :
    renderOutput (.action (.csDrive 1 true)) = "> CsDrive(1, 1)".toList ∧
      renderOutput (.action (.settle 7)) = "> Settle(T_SETTLE)".toList ∧
      renderOutput (.action (.linkSend 0 ping)) = "> LinkSend(0, [50 49 4E 47])".toList ∧
      renderOutput (.action (.linkRecv 1 8)) = "> LinkRecv(1, 8)".toList ∧
      renderOutput (.response 0x8000000000000000 ping) =
        "< resp=0x8000000000000000 bytes=[50 49 4E 47]".toList := by decide

/-! ## One step of each instruction (95_test_vectors.md) -/

/-- R204: INIT after reset. -/
theorem test_init : gives (exec .init State.reset) (fun t => t = { ready with outputs := [.response 0x8000000000000000 []] }) := by
  decide
/-- V4: a second INIT. -/
theorem test_init_again : gives (exec .init ready) (fun t => t = { ready with outputs := [.response 0x8000000000000000 []] }) := by
  decide
/-- V1. -/
theorem test_isInit_before_init :
    gives (exec .isInit State.reset) (fun t => t.outputs = [.response 0x8000000000000000 []]) := by decide
/-- R101: after INIT bit 0 is 1. -/
theorem test_isInit : gives (exec .isInit ready) (fun t => t.outputs = [.response 0x8000000000000001 []]) := by decide
/-- V5, and R102 for the second identity. -/
theorem test_lookup :
    gives (exec (.lookup 0x1001) ready) (fun t => t.outputs = [.response 0x8000000000000000 []]) ∧
      gives (exec (.lookup 0x1002) ready) (fun t => t.outputs = [.response 0x8000000000000001 []]) := by decide
/-- V6 and V7. -/
theorem test_lookup_fails :
    gives (exec (.lookup 0x9999) ready) (fun t => t.outputs = [.response 0 []]) ∧
      gives (exec (.lookup 0x1001) State.reset) (fun t => t.outputs = [.response 0 []]) := by decide
/-- P1 step 2: outputs and both channels. -/
theorem test_transmit :
    gives (exec send01 ready) fun t =>
      t.devs = sending.devs ∧
        t.outputs =
          [.action (.csDrive 1 true), .action (.settle 0), .action (.csDrive 1 false),
            .action (.linkSend 0 [0xFF, 0xFF, 0x01, 0x00, 0x04, 0x00, 0x00, 0xFF]),
            .response 0x8000000000000000 []] := by decide
/-- V11 to V15: LEN 0, DST = REG_COUNT, TGT = N_DEV, DEV = N_DEV, and busy. -/
theorem test_transmit_rejected :
    gives (exec (.transmit 0 (some 1) 0 0 0 0 0 []) ready) (fun t => t = ready.respond false 0 []) ∧
      gives (exec (.transmit 0 (some 1) 1 4 0 0 0 [0x41]) ready) (fun t => t = ready.respond false 0 []) ∧
      gives (exec (.transmit 0 (some 2) 1 0 0 0 0 [0x41]) ready) (fun t => t = ready.respond false 0 []) ∧
      gives (exec (.transmit 2 none 1 0 0 0 0 [0x41]) ready) (fun t => t = ready.respond false 0 []) ∧
      gives (exec send01 sending) (fun t => t = sending.respond false 0 []) := by decide
/-- V19 and V20. -/
theorem test_receive :
    gives (exec (.receive 1) ready) fun t =>
      t.devs = listening.devs ∧ t.outputs = [.action (.linkRecv 1 8), .response 0x8000000000000000 []] := by decide
theorem test_receive_busy : gives (exec (.receive 1) listening) (fun t => t = listening.respond false 0 []) := by decide
/-- V47; and every field at a value of its own, by hand from R160. -/
theorem test_status :
    gives (exec (.status 0) ready) (fun t => t.outputs = [.response 0x8000000000020000 []]) := by decide
theorem test_status_fields :
    gives (exec (.status 0) (ready.modDev 0 fun D =>
        { D with state := 0x3F, op := 0b10, txPos := true, targetDevice := some 5, errCode := 0xA5, csOut := false }))
      (fun t => t.outputs = [.response 0x80000000A501563F []]) := by decide
/-- R161: the 64 bytes of slot 1; V49. -/
theorem test_regread :
    gives (exec (.regread 0 1) (ready.modDev 0 fun D => { D with regs := [(63, 1), (64, 2), (127, 3), (128, 4)] }))
      (fun t => t.outputs = [.response 0x8000000000000000 ([2] ++ List.replicate 62 0 ++ [3])]) := by decide
theorem test_regread_rejected : gives (exec (.regread 0 4) ready) (fun t => t.outputs = [.response 0 []]) := by decide
/-- V50: clearing op.TX releases and deselects the target. -/
theorem test_clear_op :
    gives (exec (.clear 0 0 1 0) sending) fun t =>
      (t.dev 0).op = 0 ∧ (t.dev 0).targetDevice = none ∧ (t.dev 1).csOut = true ∧ (t.dev 0).state = 0x08 ∧
        t.outputs = [.action (.csDrive 1 true), .response 0x8000000000000000 []] := by decide
/-- R162: STMASK bit 3 clears the whole PHASE, bits 7:4 nothing; ECMASK clears the chosen bits. -/
theorem test_clear_state :
    gives (exec (.clear 0 0xF8 0xFC 0x0F) (ready.modDev 0 fun D => { D with state := 0x3F, op := 0b11, errCode := 0xA5 }))
      fun t => (t.dev 0).state = 0x07 ∧ (t.dev 0).op = 0b11 ∧ (t.dev 0).errCode = 0xA0 := by decide
/-- V22. -/
theorem test_evTxdone_header :
    gives (exec (.evTxdone 0) sending) fun t =>
      (t.dev 0).txPos = true ∧ (t.dev 0).op = 0b01 ∧ t.outputs = [.action (.linkSend 0 ping)] := by decide
/-- V23. -/
theorem test_evTxdone_payload :
    gives (exec (.evTxdone 0) sendingPayload) fun t =>
      (t.dev 0).state = 0x28 ∧ (t.dev 0).op = 0 ∧ (t.dev 0).targetDevice = none ∧ (t.dev 1).csOut = true ∧
        t.outputs = [.action (.csDrive 1 true)] := by decide
/-- V27: a declared length of 200 posts a receive of 64. -/
theorem test_evRxdone_header :
    gives (exec (.evRxdone 1 [0xFF, 0xFF, 0, 0, 0xC8, 0, 0, 0xFF]) listening) fun t =>
      (t.dev 1).rxPos = true ∧ (t.dev 1).state = 0x10 ∧ t.outputs = [.action (.linkRecv 1 64)] := by decide
/-- V31: stored in slot 0, replied from slot 3. -/
theorem test_evRxdone_turnaround :
    gives (exec (.evRxdone 1 [0x41, 0x42]) (receiving 7 0 2 3 4)) fun t =>
      (t.dev 1).state = 0x38 ∧ (t.dev 1).op = 0b01 ∧ (t.dev 1).regs = [(0, 0x41), (1, 0x42)] ∧
        t.outputs = [.action (.linkSend 1 [0xFF, 0xFF, 0x07, 0x03, 0x04, 0x00, 0x00, 0xFF])] := by decide
/-- V39: the fault code accumulates. -/
theorem test_evError :
    gives (exec (.evError 0 0x04) (ready.modDev 0 fun D => { D with state := 0x0A, errCode := 0x01 })) fun t =>
      (t.dev 0).state = 0x0A ∧ (t.dev 0).errCode = 0x05 ∧ t.outputs = [] := by decide
/-- V41. -/
theorem test_evAbort :
    gives (exec (.evAbort 1) listening) fun t =>
      (t.dev 1).state = 0x14 ∧ (t.dev 1).op = 0b10 ∧ t.outputs = [] := by decide
/-- V43. -/
theorem test_evCsfall_idle :
    gives (exec (.evCsfall 1) ready) fun t =>
      (t.dev 1).state = 0x11 ∧ (t.dev 1).op = 0b10 ∧ t.outputs = [.action (.linkRecv 1 8)] := by decide
/-- V44. -/
theorem test_evCsfall_busy :
    gives (exec (.evCsfall 1) (ready.modDev 1 fun D => { D with state := 0x08, op := 0b01 })) fun t =>
      (t.dev 1).state = 0x09 ∧ (t.dev 1).op = 0b01 ∧ t.outputs = [] := by decide
/-- V45. -/
theorem test_evCsrise :
    gives (exec (.evCsrise 1) (ready.modDev 1 fun D => { D with state := 0x11, op := 0b10 })) fun t =>
      (t.dev 1).state = 0x10 ∧ (t.dev 1).op = 0b10 ∧ t.outputs = [] := by decide

/-! ## Steps -/

/-- A word off the port runs; with nothing on the schedule nothing happens (R7). -/
theorem test_step :
    gives (step (withInputs State.reset [.command 1 []])) (fun t => t.initialized) ∧
      gives (step ready) (fun t => t = ready) := by decide
/-- V8, V9: reserved codes. -/
theorem test_step_reserved :
    gives (step (withInputs ready [.command 9 []])) (fun t => t.outputs = [.response 0 []]) ∧
      gives (step (withInputs ready [.event 7 []])) (fun t => t = ready) := by decide
/-- The block reset with a draw (R200). -/
theorem test_step_reset :
    gives (step (withInputs sending [.reset [⟨[7], [8, 9], [1, 2, 3]⟩]])) fun t =>
      t.initialized = false ∧ (t.dev 0).op = 0 ∧ (t.dev 0).txBuff = [(0, 7)] ∧ (t.dev 0).rxBuff = [(0, 8), (1, 9)] ∧
        (t.dev 0).regs = [(0, 1), (1, 2), (2, 3)] ∧ (t.dev 1).csOut = true := by decide
theorem test_withFetchWord :
    gives (step (State.reset.withFetchWord 64 1)) (fun t => t.initialized) := by decide
/-- R189: SEND01 in the loopback environment makes the falling edge; its delivery selects device 1. -/
theorem test_loopback_edge :
    gives (step (withInputs (loopback ready) [.command 0x0001000000041104 ping])) fun t =>
      t.undelivered = [⟨0x15, []⟩] ∧ (t.link 1).csIn = false := by decide
theorem test_loopback_deliver :
    gives (step (withInputs { loopback ready with undelivered := [⟨0x15, []⟩] } [.deliver 0])) fun t =>
      t.undelivered = [] ∧ (t.dev 1).state = 0x11 := by decide
/-- R189 (a) to (c), R213, R214: with the reference environment a completion or an edge off the schedule is refused, an
error is not. -/
theorem test_loopback_foreign_event :
    refuses (step (withInputs (loopback sendingLink) [.event 0x01 []])) .foreignEvent ∧
      refuses (stepAdmitted (withInputs (loopback sendingLink) [.event 0x01 []])) .foreignEvent ∧
      refuses (step (withInputs (loopback ready) [.event 0x15 []])) .foreignEvent ∧
      gives (step (withInputs (loopback sendingLink) [.event 0x0103 []])) (fun t => (t.dev 0).state = 0x0A) := by decide
/-- Data bytes that a STATUS and an EV_ABORT do not take are dropped and pass the admission check (log entry 24). -/
theorem test_stray_data :
    decode ⟨.command, 0x06, ping⟩ = .ok (.status 0) ∧ decode ⟨.event, 0x14, ping⟩ = .ok (.evAbort 1) ∧
      admitWord ⟨.command, 0x06, ping⟩ ready = none ∧ admitWord ⟨.event, 0x14, ping⟩ ready = none := by decide
/-- An error on device 0 while both completions of its pairing with device 1 are undelivered (log entry 25). -/
theorem test_error_during_pairing :
    gives (step (withInputs { loopback sendingLink with undelivered := [⟨0x01, []⟩, ⟨0x12, ping⟩] } [.event 0x0103 []]))
      fun t => t.undelivered = [⟨0x12, ping⟩] ∧ (t.link 0).send = none := by decide
/-- The contracts: a completion with nothing outstanding, a CLEAR of a direction the link holds, a reserved bit. -/
theorem test_stepAdmitted :
    refuses (stepAdmitted (withInputs sending [.event 0x01 []])) .strayCompletion ∧
      refuses (stepAdmitted (withInputs sendingLink [.command 0x01000008 []])) .clearInFlight ∧
      refuses (stepAdmitted (withInputs ready [.command 0x2006 []])) .reservedBits ∧
      refuses (stepAdmitted (withInputs ready [.command 0x0 []])) .reservedCode ∧
      gives (stepAdmitted (withInputs sendingLink [.event 0x01 []])) (fun t => (t.dev 0).txPos) := by decide

/-! ## Witnesses: for every statement with hypotheses, values that meet all of them, each clause in turn -/

theorem next_of_gives {o : Host.Outcome State Fault Refusal} {check : State → Bool} (h : gives o check = true) :
    ∃ t, o = .next t ∧ check t = true := by
  cases o with
  | next t => exact ⟨t, rfl, h⟩
  | fault f => cases h
  | refused r => cases h

/-- Whether an outcome is a next state. -/
def goesOn (o : Host.Outcome State Fault Refusal) : Bool := gives o fun _ => true

theorem next_of_goesOn {o : Host.Outcome State Fault Refusal} (h : goesOn o = true) : ∃ t, o = .next t :=
  let ⟨t, ht, _⟩ := next_of_gives h
  ⟨t, ht⟩

/-- The channel invariant as one check. -/
def invCheck (c : Config) (D : Device) : Bool :=
  legalState D.state && (D.targetDevice.isNone || D.opTx) && D.targetDevice.all (fun t => decide (t.toNat < c.nDev)) &&
    (!D.opTx || (decide (1 ≤ sentLen D.txBuff) && decide (sentLen D.txBuff ≤ maxPayload))) && D.txBuff.legal bufLen &&
    D.rxBuff.legal bufLen && D.regs.legal (c.regCount * c.regSize)

theorem inv_of_check {c : Config} {D : Device} (h : invCheck c D = true) : D.Inv c := by
  simp only [invCheck, Bool.and_eq_true] at h
  obtain ⟨⟨⟨⟨⟨⟨h1, h2⟩, h3⟩, h4⟩, h5⟩, h6⟩, h7⟩ := h
  refine ⟨h1, fun ht => ?_, fun t ht => ?_, fun ho => ?_, h5, h6, h7⟩
  · cases htd : D.targetDevice with
    | none => exact absurd htd ht
    | some t => simpa [htd] using h2
  · simpa [ht] using h3
  · simpa [ho] using h4

/-- The machine invariant of an initialized state, by evaluation. -/
theorem inv_of_checks {s : State} (hc : s.cfg.ok = true) (hi : s.initialized = true)
    (hd : ∀ d, s.absent d = false → invCheck s.cfg (s.dev d) = true) : s.Inv :=
  ⟨hc, fun d h => inv_of_check (hd d h), fun h => absurd hi (by simp [h])⟩

/-- The link invariant as a check of every channel. -/
def linkCheck (s : State) (d : DevIx) : Bool :=
  ((s.link d).send.isNone || (!s.absent d && (s.dev d).opTx)) &&
    (s.link d).recv.all fun n => !s.absent d && (s.dev d).opRx && decide (n = (s.dev d).expectedRx)

theorem linkInv_of_checks {s : State} (h : ∀ d, linkCheck s d = true) : s.LinkInv := by
  intro d
  have hd := h d
  simp only [linkCheck, Bool.and_eq_true, Bool.or_eq_true, Bool.not_eq_true'] at hd
  refine ⟨fun hs => ?_, fun n hn => ?_⟩
  · rcases hd.1 with h1 | h1
    · cases hh : (s.link d).send <;> simp [hh] at hs h1
    · exact h1
  · simpa [hn, and_assoc] using hd.2

/-- Lines that assemble: one with no data, a TRANSMIT and an EV_RXDONE with 64 bytes, and the same with a byte too few and a
byte too many, which the transcriber refuses. -/
theorem test_meets_AssembledLinesAreWellFormed :
    assemble "RECEIVE dev=15".toList = .ok (some (.receive 15)) ∧
      assemble ("TRANSMIT len=255 data=".toList ++ quoted 64) =
        .ok (some (.transmit 0 none 255 0 0 0 0 (List.replicate 64 0x41))) ∧
      assemble ("TRANSMIT len=255 data=".toList ++ quoted 63) = .error .illFormed ∧
      assemble ("@RXDONE data=".toList ++ quoted 64) = .ok (some (.evRxdone 0 (List.replicate 64 0x41))) ∧
      assemble ("@RXDONE data=".toList ++ quoted 65) = .error .illFormed := by decide
/-- U13: bit 13 of an INIT word and TGT of a TRANSMIT without target are unused. -/
theorem test_unused_bits :
    (0x2001 : Word) &&& ~~~usedBits .init ≠ 0 ∧
      (0x0000000000010104 : Word) &&& ~~~usedBits (.transmit 0 none 1 0 0 0 0 []) ≠ 0 ∧
      (0x0000000000011104 : Word) &&& ~~~usedBits (.transmit 0 (some 1) 1 0 0 0 0 []) = 0 := by decide

/-- OperandsMeanTheirText, PseudoInstructionsAreShorthand: words that each line takes. -/
theorem test_meets_operand_lines :
    transmitLine ["len=0x41".toList, "tgt=1".toList, "data=[41]".toList] =
        .ok (.transmit 0 (some 1) 0x41 0 0 0 0 [0x41]) ∧
      transmitLine ["data=[41]".toList] = .ok (.transmit 0 none 1 0 0 0 0 [0x41]) ∧
      lookupLine ["id=0xFFFFFFFF".toList] = .ok (.lookup 0xFFFFFFFF) ∧
      regreadLine ["reg=255".toList] = .ok (.regread 0 255) ∧ clearLine [] = .ok (.clear 0 0 0 0) ∧
      rxdoneLine ["data=\"A\"".toList] = .ok (.evRxdone 0 [0x41]) ∧
      errorLine ["code=0xFF".toList] = .ok (.evError 0 0xFF) ∧
      deviceLine .evAbort ["dev=15".toList] = .ok (.evAbort 15) ∧
      parseLine "SEND".toList ["tgt=1".toList] = .ok (.transmit 0 (some 1) 0 0 0 0 0 []) ∧
      parseLine "REQUEST".toList ["rxlen=5".toList, "tgt=1".toList] = .ok (.transmit 0 (some 1) 0 0 0 5 0 []) ∧
      parseLine "RESETDEV".toList [] = .ok (.clear 0 0x0F 0x03 0xFF) := by decide

def slot3 : State := ready.modDev 1 fun D => { D with regs := [(192, 5), (255, 6)] }

theorem test_meets_ReservedCodesAndBits :
    ready.cfg.ok = true ∧ ready.modelError = none ∧ (withInputs ready [.command 9 []]).inputs = .command 9 [] :: [] ∧
      (fieldCode 0x10).toNat = 0 ∧ 9 ≤ (fieldCode 9).toNat ∧ 7 ≤ (fieldCode 7).toNat ∧
      (withInputs ready [.event 7 []]).inputs = .event 7 [] :: [] ∧
      decode ⟨.command, 0x2006, []⟩ = .ok (.status 0) ∧
      (0xFFFFFFFFFFFFFF06 : Word) &&& usedBits (.status 0) = 0x2006 &&& usedBits (.status 0) := by decide
theorem test_usedBits :
    usedBits (.transmit 0 (some 1) 0 0 0 0 0 []) = 0x00FFFFFFFFFF1FFF ∧
      decode ⟨.command, 0xFF01000000042F04, ping⟩ = .ok (.transmit 0 none 4 0 0 0 1 ping) := by decide
theorem test_meets_StepRunsDecodedInstruction :
    ready.cfg.ok = true ∧ ready.modelError = none ∧ ready.inputs = [] ∧
      (withInputs ready [.command 6 []]).inputs = .command 6 [] :: [] ∧
      decode ⟨.command, 6, []⟩ = .ok (.status 0) ∧ (withInputs ready [.event 1 []]).inputs = .event 1 [] :: [] ∧
      decode ⟨.event, 1, []⟩ = .ok (.evTxdone 0) ∧ decodeTableWord 64 1 = some .init ∧ ready.mayArrive .init = true ∧
      ready.mayArrive (.evTxdone 0) = true ∧ (loopback ready).mayArrive (.evTxdone 0) = false := by decide
/-- The same: the delivery of the only undelivered event, and of a completion past an edge. -/
theorem test_meets_StepRunsDecodedInstruction_deliver :
    let s := withInputs { loopback ready with undelivered := [⟨0x15, []⟩, ⟨0x01, []⟩] } [.deliver 0, .deliver 1]
    s.cfg.ok = true ∧ s.modelError = none ∧ s.inputs = .deliver 0 :: [.deliver 1] ∧
      s.undelivered[0]? = some ⟨0x15, []⟩ ∧ decode ⟨.event, 0x15, []⟩ = .ok (.evCsfall 1) ∧
      s.overtakesEdge 0 ⟨0x15, []⟩ = false ∧ s.overtakesEdge 1 ⟨0x01, []⟩ = false := by decide
theorem test_meets_ResetLeavesStatedValues :
    sending.cfg.ok = true ∧ sending.modelError = none ∧
      (withInputs sending [.reset [⟨[7], [], []⟩]]).inputs = .reset [⟨[7], [], []⟩] :: [] := by decide
theorem test_meets_StatusAfterResetAndInit : (1 : DevIx).toNat < Config.reference.nDev := by decide
theorem test_meets_IllegalMachinesAreStopped :
    { ready with cfg := { ready.cfg with regSize := 63 } }.cfg.ok = false ∧
      (((ready.modDev 1 fun D => { D with state := 0x20 }).dev 1).state).extractLsb' 3 3 = 0b100#3 ∧
      (∀ d : DevIx, d.toNat < ready.cfg.nDev →
        (((ready.modDev 1 fun D => { D with state := 0x40 }).dev d).state).extractLsb' 3 3 ≠ 0b100#3) ∧
      (((ready.modDev 1 fun D => { D with state := 0x40 }).dev 1).state).extractLsb' 6 2 ≠ 0#2 := by decide
theorem test_illegal_machines_stop :
    faults (step (ready.modDev 1 fun D => { D with state := 0x20 })) .reservedPhase ∧
      faults (step (ready.modDev 1 fun D => { D with state := 0x80 })) .reservedStateBits ∧
      refuses (step { ready with cfg := { ready.cfg with regSize := 63 } }) .badParameters := by decide
theorem test_meets_LookupAnswersIndex :
    ready.cfg.ok = true ∧ ready.initialized = true ∧ ready.cfg.devId[1]? = some 0x1002 ∧
      (∀ d, d < ready.cfg.nDev → ready.cfg.devId[d]? ≠ some 0x9999) ∧ State.reset.initialized = false := by decide
theorem test_meets_OnlyInitAndIsInitActBeforeInit :
    State.reset.initialized = false ∧ Instr.receive 0 ≠ .init ∧ Instr.receive 0 ≠ .isInit ∧
      (Instr.receive 0).isCommand = true ∧ (Instr.evAbort 0).isCommand = false := by decide
/-- LEN at 1 and at 255, DST at the last slot, with no target and with the sender itself as target. -/
theorem test_meets_TransmitAcceptedStartsTransfer :
    ready.initialized = true ∧ (0 : DevIx).toNat < ready.cfg.nDev ∧ 1 ≤ (1 : Byte).toNat ∧ 1 ≤ (255 : Byte).toNat ∧
      (3 : Byte).toNat < ready.cfg.regCount ∧ (ready.dev 0).opTx = false ∧ min (1 : Byte).toNat 64 ≤ [0x41#8].length ∧
      min (255 : Byte).toNat 64 ≤ (List.replicate 64 0x41#8).length ∧ (ready.dev 0).txBuff.wf = true ∧
      goesOn (exec (.transmit 0 none 1 3 0 0 0 [0x41]) ready) = true ∧
      goesOn (exec (.transmit 0 (some 0) 1 3 0 0 0 [0x41]) ready) = true ∧
      goesOn (exec (.transmit 0 (some 1) 255 3 0 0 0 (List.replicate 64 0x41)) ready) = true := by decide
theorem test_meets_TransmitRejected :
    State.reset.initialized = false ∧ ready.cfg.nDev ≤ (2 : DevIx).toNat ∧ (0 : Byte).toNat < 1 ∧
      ready.cfg.regCount ≤ (4 : Byte).toNat ∧ sending.initialized = true ∧ (sending.dev 0).opTx = true ∧
      checkTransmit State.reset 0 none 0 9 = some .notInitialized ∧
      checkTransmit sending 0 none 0 9 = some .invalidArgument ∧
      checkTransmit ready 0 (some 2) 1 0 = some .invalidArgument ∧ checkTransmit sending 0 none 1 0 = some .busy := by decide
theorem test_meets_TransmitShortDataRefused :
    ready.initialized = true ∧ (0 : DevIx).toNat < ready.cfg.nDev ∧ (3 : Byte).toNat < ready.cfg.regCount ∧
      (ready.dev 0).opTx = false ∧ ([] : List Byte).length < min (1 : Byte).toNat 64 ∧
      (List.replicate 63 0#8).length < min (255 : Byte).toNat 64 ∧
      refuses (exec (.transmit 0 none 1 3 0 0 0 []) ready) .shortData = true := by decide
theorem test_meets_ReceiveArmsHeaderReceive :
    ready.initialized = true ∧ (1 : DevIx).toNat < ready.cfg.nDev ∧ (ready.dev 1).opRx = false ∧
      State.reset.initialized = false ∧ ready.cfg.nDev ≤ (2 : DevIx).toNat ∧ (listening.dev 1).opRx = true := by decide
theorem test_meets_StrayTxdoneIgnored :
    State.reset.initialized = false ∧ ready.cfg.nDev ≤ (2 : DevIx).toNat ∧ (ready.dev 0).opTx = false := by decide
/-- The length byte of the header at 4, and at 64. -/
theorem test_meets_TxHeaderDonePostsPayload :
    sending.initialized = true ∧ (0 : DevIx).toNat < sending.cfg.nDev ∧ (sending.dev 0).opTx = true ∧
      (sending.dev 0).txPos = false ∧ ((sending.dev 0).txBuff.read 4).toNat ≤ 64 ∧
      goesOn (exec (.evTxdone 0) (sending.modDev 0 fun D => { D with txBuff := D.txBuff.write 4 64 })) = true := by decide
theorem test_meets_TxHeaderDonePastBufferFaults :
    64 < ((sending.modDev 0 fun D => { D with txBuff := D.txBuff.write 4 65 }).dev 0 |>.txBuff.read 4).toNat ∧
      faults (exec (.evTxdone 0) (sending.modDev 0 fun D => { D with txBuff := D.txBuff.write 4 65 })) .pastBuffer =
        true := by decide
theorem test_meets_TxPayloadDoneCompletes :
    sendingPayload.initialized = true ∧ (0 : DevIx).toNat < sendingPayload.cfg.nDev ∧
      (sendingPayload.dev 0).opTx = true ∧ (sendingPayload.dev 0).txPos = true := by decide
/-- A header of 7 bytes, and a payload one byte short. -/
theorem test_meets_StrayRxdoneIgnoredAndWrongLengthRefused :
    State.reset.initialized = false ∧ ready.cfg.nDev ≤ (2 : DevIx).toNat ∧ (ready.dev 1).opRx = false ∧
      listening.initialized = true ∧ (1 : DevIx).toNat < listening.cfg.nDev ∧ (listening.dev 1).opRx = true ∧
      refuses (exec (.evRxdone 1 (List.replicate 7 0)) listening) .receiveLength = true ∧
      refuses (exec (.evRxdone 1 [0x41]) (receiving 7 0 2 3 4)) .receiveLength = true := by decide
theorem test_meets_RxHeaderDonePostsPayload :
    listening.initialized = true ∧ (1 : DevIx).toNat < listening.cfg.nDev ∧ (listening.dev 1).opRx = true ∧
      (listening.dev 1).rxPos = false ∧ (List.replicate 8 0xFF#8).length = 8 ∧ (listening.dev 1).rxBuff.wf = true := by
  decide
/-- No reply requested; an index out of range; op.TX set; and a destination slot out of range. -/
theorem test_meets_RxPayloadDoneStoresSlot :
    (receiving 7 3 2 0 0).initialized = true ∧ (1 : DevIx).toNat < (receiving 7 3 2 0 0).cfg.nDev ∧
      ((receiving 7 3 2 0 0).dev 1).opRx = true ∧ ((receiving 7 3 2 0 0).dev 1).rxPos = true ∧
      [0x41#8, 0x42#8].length = min (((receiving 7 3 2 0 0).dev 1).rxBuff.read 4).toNat 64 ∧
      ((receiving 7 3 2 0 0).dev 1).rxBuff.wf = true ∧ ((receiving 7 3 2 0 0).dev 1).regs.wf = true ∧
      ((receiving 7 3 2 0 0).dev 1).rxBuff.read 6 = 0 ∧
      (receiving 7 5 2 4 1).cfg.regCount ≤ (((receiving 7 5 2 4 1).dev 1).rxBuff.read 5).toNat ∧
      (((receiving 7 0 2 3 4).modDev 1 Device.setTx).dev 1).opTx = true ∧
      goesOn (exec (.evRxdone 1 [0x41, 0x42]) (receiving 7 5 2 4 1)) = true := by decide
/-- A reply of one byte, and of 200 clamped to 64, from the last slot. -/
theorem test_meets_TurnaroundSendsSlotBack :
    ((receiving 7 0 2 3 1).dev 1).opRx = true ∧ ((receiving 7 0 2 3 1).dev 1).rxPos = true ∧
      [0x41#8, 0x42#8].length = min (((receiving 7 0 2 3 1).dev 1).rxBuff.read 4).toNat 64 ∧
      ((receiving 7 0 2 3 1).dev 1).rxBuff.wf = true ∧ ((receiving 7 0 2 3 1).dev 1).regs.wf = true ∧
      ((receiving 7 0 2 3 1).dev 1).txBuff.wf = true ∧
      min (((receiving 7 0 2 3 1).dev 1).rxBuff.read 6).toNat 64 ≠ 0 ∧
      (((receiving 7 0 2 3 1).dev 1).rxBuff.read 5).toNat < (receiving 7 0 2 3 1).cfg.regCount ∧
      ((receiving 7 0 2 3 1).dev 1).opTx = false ∧
      goesOn (exec (.evRxdone 1 [0x41, 0x42]) (receiving 7 0 2 3 200)) = true := by decide
/-- The last byte of the last slot, and the two neighbours where slots 2 and 3 meet. -/
theorem test_meets_SlotsDoNotAlias :
    Config.reference.ok = true ∧ (3 : Byte).toNat < Config.reference.regCount ∧ 63 < Config.reference.regSize ∧
      slotBase 64 3 + 63 = slotBase 64 3 + 63 ∧ slotBase 64 2 + 63 + 1 = slotBase 64 3 := by decide
theorem test_meets_HeaderRoundTrips :
    Mem.wf [] = true ∧ Mem.wf [(71, 5)] = true ∧ min (200 : Byte).toNat 64 ≤ (List.replicate 64 0#8).length := by decide

/-- Device 0 ready to send while device 1 listens: LEN 4, and LEN 255 with a reply asked for. -/
theorem test_meets_TransferDeliversData :
    listening.initialized = true ∧ (0 : DevIx) ≠ 1 ∧ (0 : DevIx).toNat < listening.cfg.nDev ∧
      (1 : DevIx).toNat < listening.cfg.nDev ∧ 1 ≤ (4 : Byte).toNat ∧ min (4 : Byte).toNat 64 ≤ ping.length ∧
      1 ≤ (255 : Byte).toNat ∧ min (255 : Byte).toNat 64 ≤ (List.replicate 64 0x41#8).length ∧
      (3 : Byte).toNat < listening.cfg.regCount ∧ (listening.dev 0).opTx = false ∧ (listening.dev 1).opRx = true ∧
      (listening.dev 1).rxPos = false ∧ (listening.dev 0).txBuff.wf = true ∧ (listening.dev 1).rxBuff.wf = true ∧
      (listening.dev 1).regs.wf = true ∧
      goesOn (exec (.transmit 0 none 255 3 0 64 0 (List.replicate 64 0x41)) listening) = true := by decide
theorem test_meets_TransferDeliversData_target :
    ∀ t, (some 1 : Option DevIx) = some t → t.toNat < listening.cfg.nDev := by
  intro t h; cases h; decide
theorem test_meets_CompletionPostsAtMostOne :
    (∃ t, exec (.evTxdone 0) sending = .next t) ∧ ∃ t, exec (.evRxdone 1 [0x41, 0x42]) (receiving 7 0 2 3 4) = .next t :=
  ⟨next_of_goesOn (by decide), next_of_goesOn (by decide)⟩

/-- The gates of the events and commands that name a channel: open, before INIT, and for an index that is no channel. -/
theorem test_meets_channel_gates :
    ready.initialized = true ∧ (1 : DevIx).toNat < ready.cfg.nDev ∧ State.reset.initialized = false ∧
      ready.cfg.nDev ≤ (2 : DevIx).toNat := by decide
/-- FallingEdgeSelectsAndArms: idle, and busy in either direction. -/
theorem test_meets_FallingEdgeSelectsAndArms :
    (ready.dev 1).op = 0 ∧ (listening.dev 1).op ≠ 0 ∧ (sending.dev 0).op ≠ 0 := by decide
/-- RegreadAnswersSlot: the last slot, and the first index past it. -/
theorem test_meets_RegreadAnswersSlot :
    (3 : Byte).toNat < slot3.cfg.regCount ∧ slot3.cfg.regCount ≤ (4 : Byte).toNat ∧
      goesOn (exec (.regread 1 3) slot3) = true := by decide
/-- ClearClearsChosenBits: with and without a target to release. -/
theorem test_meets_ClearClearsChosenBits :
    ((1 : Byte).getLsbD 0 && (sending.dev 0).opTx) = true ∧ ((1 : Byte).getLsbD 0 && (ready.dev 0).opTx) = false ∧
      goesOn (exec (.clear 0 0 1 0) sending) = true ∧ goesOn (exec (.clear 0 0xFF 0xFF 0xFF) ready) = true := by decide

/-- FaultedDirectionStaysBusy: an abort is delivered; then nothing of the channel is held, both op bits are set, and a
RECEIVE leaves them. -/
def faulted : State := ready.modDev 0 fun D => { D with state := 0x1C, op := 0b11, txBuff := [(4, 4)] }

theorem test_meets_FaultedDirectionStaysBusy :
    (∃ t, stepAdmitted (withInputs sendingLink [.event 0x04 []]) = .next t) ∧
      (withInputs sendingLink [.event 0x04 []]).inputs = .event 0x04 [] :: [] ∧
      decode ⟨.event, 0x04, []⟩ = .ok (.evAbort 0) ∧
      (∃ t, stepAdmitted (withInputs faulted [.command 0x05 []]) = .next t) ∧
      (∀ draw, (withInputs faulted [.command 0x05 []]).inputs.head? ≠ some (.reset draw)) ∧
      (faulted.link 0).send = none ∧ (faulted.link 0).recv = none ∧ (faulted.dev 0).opTx = true ∧
      (faulted.dev 0).opRx = true ∧
      ∀ w data st opm ec, (withInputs faulted [.command 0x05 []]).inputs.head? = some (.command w data) →
        decode ⟨.command, w, data⟩ = .ok (.clear 0 st opm ec) → opm.getLsbD 0 = false := by
  refine ⟨next_of_goesOn (by decide), rfl, by decide, next_of_goesOn (by decide), ?_, by decide, by decide, by decide,
    by decide, ?_⟩
  · intro draw h; cases h
  · intro w data st opm ec h hd
    cases h
    exact absurd hd (by simp [decode, decodeCommand, fieldCode])

/-- EveryCommandAnswersOnce: a command and an event. -/
theorem test_meets_EveryCommandAnswersOnce :
    (∃ t, exec send01 ready = .next t) ∧ send01.isCommand = true ∧ (∃ t, exec (.evTxdone 0) sending = .next t) ∧
      (Instr.evTxdone 0).isCommand = false :=
  ⟨next_of_goesOn (by decide), rfl, next_of_goesOn (by decide), rfl⟩
theorem test_meets_OnlyClearClearsStickyBits :
    (∃ t, exec (.evTxdone 0) sendingPayload = .next t) ∧ ∀ d st opm ec, Instr.evTxdone 0 ≠ .clear d st opm ec :=
  ⟨next_of_goesOn (by decide), by simp⟩
/-- OnlyEdgesAndClearChangeSelected: SEL is set by a fall, cleared by a rise and by a CLEAR. -/
theorem test_meets_OnlyEdgesAndClearChangeSelected :
    (∃ t, exec (.evCsfall 1) ready = .next t ∧
      decide ((t.dev 1).state.getLsbD 0 ≠ (ready.dev 1).state.getLsbD 0) = true) ∧
      (∃ t, exec (.evCsrise 1) (after ready (.evCsfall 1)) = .next t ∧
        decide ((t.dev 1).state.getLsbD 0 ≠ ((after ready (.evCsfall 1)).dev 1).state.getLsbD 0) = true) ∧
      ∃ t, exec (.clear 1 1 0 0) (after ready (.evCsfall 1)) = .next t ∧
        decide ((t.dev 1).state.getLsbD 0 ≠ ((after ready (.evCsfall 1)).dev 1).state.getLsbD 0) = true :=
  ⟨next_of_gives (by decide), next_of_gives (by decide), next_of_gives (by decide)⟩
/-- OpBitsChangeOnlyByTheirRules: each of the four changes happens, and the turnaround's. -/
theorem test_meets_OpBitsChangeOnlyByTheirRules :
    (∃ t, exec send01 ready = .next t ∧ (!(ready.dev 0).opTx && (t.dev 0).opTx) = true) ∧
      (∃ t, exec (.evTxdone 0) sendingPayload = .next t ∧
        ((sendingPayload.dev 0).opTx && !(t.dev 0).opTx) = true) ∧
      (∃ t, exec (.receive 1) ready = .next t ∧ (!(ready.dev 1).opRx && (t.dev 1).opRx) = true) ∧
      (∃ t, exec (.clear 1 0 2 0) listening = .next t ∧ ((listening.dev 1).opRx && !(t.dev 1).opRx) = true) ∧
      ∃ t, exec (.evRxdone 1 [0x41, 0x42]) (receiving 7 0 2 3 4) = .next t ∧
        (!((receiving 7 0 2 3 4).dev 1).opTx && (t.dev 1).opTx) = true :=
  ⟨next_of_gives (by decide), next_of_gives (by decide), next_of_gives (by decide), next_of_gives (by decide),
    next_of_gives (by decide)⟩
theorem test_meets_OnlyReceiveCompletionsWriteSlots :
    (∃ t, exec send01 ready = .next t) ∧ ∀ bytes, send01 ≠ .evRxdone 0 bytes :=
  ⟨next_of_goesOn (by decide), by simp [send01]⟩
theorem test_meets_TxBufferKeptWhileInFlight :
    (∃ t, exec send01 sending = .next t) ∧ (sending.dev 0).opTx = true :=
  ⟨next_of_goesOn (by decide), by decide⟩
/-- ChannelsAreIsolated: a TRANSMIT that drives another channel's cs_out. -/
theorem test_meets_ChannelsAreIsolated :
    (∃ t, exec send01 ready = .next t ∧ decide ((t.dev 1).csOut ≠ (ready.dev 1).csOut) = true) ∧
      send01.device = some 0 ∧ (1 : DevIx) ≠ 0 :=
  ⟨next_of_gives (by decide), rfl, by decide⟩

/-- The payload phase of SEND01 in the reference environment: a send of 4 bytes outstanding on device 0, a receive of n on
device 1. -/
def paired (n : Nat) : State :=
  (((loopback sendingPayload).modDev 1 fun D =>
      { D with state := 0x10, op := 0b10, rxPos := true, rxBuff := [(4, BitVec.ofNat 8 n)] }).modLink 0 fun l =>
    { l with send := some ping }).modLink 1 fun l => { l with recv := some n }

theorem test_ready_inv : ready.Inv := inv_of_checks rfl rfl (by decide)
theorem test_sending_inv : sending.Inv := inv_of_checks rfl rfl (by decide)
theorem test_faulted_inv : faulted.Inv := inv_of_checks rfl rfl (by decide)
theorem test_sendingLink_inv : (withInputs sendingLink [.event 0x01 []]).Inv := inv_of_checks rfl rfl (by decide)
theorem test_sendingLink_linkInv : (withInputs sendingLink [.event 0x01 []]).LinkInv := linkInv_of_checks (by decide)
theorem test_listeningLink_linkInv : listeningLink.LinkInv := linkInv_of_checks (by decide)

theorem test_meets_ParametersAndAbsentChannelsKept :
    sending.Inv ∧ (∃ t, exec (.evTxdone 0) sending = .next t) ∧ sending.initialized = true ∧
      sending.cfg.nDev ≤ (2 : DevIx).toNat :=
  ⟨test_sending_inv, next_of_goesOn (by decide), rfl, by decide⟩
/-- PhaseSettingGivesTheSevenValues: an idle channel, a list of masks, and a value other than 0b100. -/
theorem test_meets_PhaseSettingGivesTheSevenValues :
    (ready.dev 0).state.extractLsb' 3 3 = 0 ∧ (0b101#3 ≠ 0b100#3) ∧
      (∀ m ∈ [maskRxPending, maskTxComplete],
        m = maskTxPending ∨ m = maskTxComplete ∨ m = maskRxPending ∨ m = maskRxComplete) := by decide
/-- R26: pending then complete in each direction, and both complete. -/
theorem test_phase_values :
    phaseOf 0x08 = 0b001 ∧ phaseOf (0x08 ||| maskTxComplete) = 0b101 ∧ phaseOf (0x10 ||| maskRxComplete) = 0b110 ∧
      phaseOf (maskTxComplete ||| maskRxComplete) = 0b111 := by decide
theorem test_meets_ResetMeetsInvariants : Config.reference.ok = true := by decide
theorem test_meets_StepKeepsInvariant :
    (withInputs sendingLink [.event 0x01 []]).Inv ∧
      ∃ t, step (withInputs sendingLink [.event 0x01 []]) = .next t :=
  ⟨test_sendingLink_inv, next_of_goesOn (by decide)⟩
theorem test_meets_AdmittedStepKeepsLinkInvariant :
    (withInputs sendingLink [.event 0x01 []]).LinkInv ∧
      ∃ t, stepAdmitted (withInputs sendingLink [.event 0x01 []]) = .next t :=
  ⟨test_sendingLink_linkInv, next_of_goesOn (by decide)⟩
/-- AtMostOneOutstandingPerDirection: a completion that posts the payload send, a receive completion that posts the
payload receive. -/
theorem test_meets_AtMostOneOutstandingPerDirection :
    admitInstr (.evTxdone 0) sendingLink = none ∧
      (∃ t, exec (.evTxdone 0) (sendingLink.delivered (.evTxdone 0)) = .next t ∧
        decide (t.outputs = sendingLink.outputs ++ [.action (.linkSend 0 ping)]) = true) ∧
      admitInstr (.evRxdone 1 (List.replicate 8 0)) listeningLink = none ∧
      ∃ t, exec (.evRxdone 1 (List.replicate 8 0)) (listeningLink.delivered (.evRxdone 1 (List.replicate 8 0))) = .next t ∧
        decide (t.outputs = listeningLink.outputs ++ [.action (.linkRecv 1 0)]) = true :=
  ⟨by decide, next_of_gives (by decide), by decide, next_of_gives (by decide)⟩
theorem test_meets_AdmittedInputsAlwaysTaken :
    (withInputs sendingLink [.event 0x01 []]).Inv ∧ (withInputs sendingLink [.event 0x01 []]).LinkInv ∧
      (withInputs sendingLink [.event 0x01 []]).inputs = .event 0x01 [] :: [] ∧
      admitInput (.event 0x01 []) (withInputs sendingLink [.event 0x01 []]) = none :=
  ⟨test_sendingLink_inv, test_sendingLink_linkInv, rfl, by decide⟩
/-- The same in the reference environment: the delivery of a completion, and a pairing. -/
theorem test_meets_AdmittedInputsAlwaysTaken_environment :
    admitInput (.deliver 0) { loopback sendingLink with undelivered := [⟨0x01, []⟩] } = none ∧
      goesOn (stepAdmitted (withInputs { loopback sendingLink with undelivered := [⟨0x01, []⟩] } [.deliver 0])) = true ∧
      admitInput (.pair 0) (paired 4) = none ∧ admitInput (.pair 0) (paired 8) = some .noMatchingReceive := by decide
theorem test_paired_inv : (paired 4).Inv ∧ (paired 4).LinkInv :=
  ⟨inv_of_checks rfl rfl (by decide), linkInv_of_checks (by decide)⟩
theorem test_meets_ContractBreachesRefusedByAdmission :
    (sending.link 0).send = none ∧ (listening.link 1).recv = none ∧
      (withInputs sending [.event (encode (.evTxdone 0)).word []]).inputs =
        .event (encode (.evTxdone 0)).word [] :: [] ∧
      (sendingLink.link 0).send ≠ none ∧ (listeningLink.link 1).recv = some 8 ∧ (List.replicate 7 0#8).length ≠ 8 ∧
      (1 : Byte).getLsbD 0 = true ∧ (2 : Byte).getLsbD 1 = true ∧
      (List.replicate 63 0#8).length < min (255 : Byte).toNat 64 ∧ (fieldCode 0x10).toNat = 0 ∧ 9 ≤ (fieldCode 9).toNat ∧
      7 ≤ (fieldCode 7).toNat ∧ decode ⟨.command, 0x2006, []⟩ = .ok (.status 0) ∧
      (0x2006 : Word) &&& ~~~usedBits (.status 0) ≠ 0 ∧ decode ⟨.event, 0x8000000000000001, []⟩ = .ok (.evTxdone 0) ∧
      (0x8000000000000001 : Word) &&& ~~~usedBits (.evTxdone 0) ≠ 0 := by decide
/-- MemoriesThatReadAlikeAreEqual: two writes in either order. -/
theorem test_meets_MemoriesThatReadAlikeAreEqual :
    (Mem.write (Mem.write [] 3 7) 1 5).wf = true ∧ (Mem.write (Mem.write [] 1 5) 3 7).wf = true ∧
      Mem.write (Mem.write [] 3 7) 1 5 = Mem.write (Mem.write [] 1 5) 3 7 := by decide
/-- Writing the unlisted byte removes the entry. -/
theorem test_write_background : Mem.write [(2, 9)] 2 0 = [] := by decide
theorem test_meets_DriveMakesEdgeInLoopback :
    (loopback ready).cfg.environment = .loopback ∧ ((loopback ready).link 1).csIn = true ∧
      ((loopback ready).link 1).csIn ≠ false := by decide

/-- The receive of the same length; of another; none; an undelivered edge beside; a completion already undelivered. -/
theorem test_meets_PairCompletesSendWithReceive :
    let edge := { paired 4 with undelivered := [⟨0x15, []⟩] }
    let none' := (paired 4).modLink 1 fun l => { l with recv := none }
    (paired 4).cfg.environment = .loopback ∧ (paired 4).cfg.nDev = 2 ∧ ((paired 4).link 0).send = some ping ∧
      ((paired 4).link 1).recv = some ping.length ∧ ((paired 8).link 1).recv ≠ some ping.length ∧
      (none'.link 1).recv ≠ some ping.length ∧
      gives (takeInput (.pair 0) edge) (fun t => t.undelivered = [⟨0x15, []⟩, ⟨0x01, []⟩, ⟨0x12, ping⟩]) = true ∧
      refuses (takeInput (.pair 0) (paired 8)) .noMatchingReceive = true ∧
      refuses (takeInput (.pair 0) none') .noMatchingReceive = true ∧
      refuses (takeInput (.pair 0) { paired 4 with undelivered := [⟨0x12, ping⟩] }) .noMatchingReceive = true := by decide
/-- A rise after a fall of the same line, and after a fall of another. -/
theorem test_meets_EdgesKeepTheOrderOfTheDrives :
    let s := { loopback ready with undelivered := [⟨0x15, []⟩, ⟨0x01, []⟩, ⟨0x16, []⟩, ⟨0x06, []⟩] }
    s.undelivered[0]? = some ⟨0x15, []⟩ ∧ s.undelivered[2]? = some ⟨0x16, []⟩ ∧ 0 < 2 ∧
      decode ⟨.event, 0x15, []⟩ = .ok (.evCsfall 1) ∧ decode ⟨.event, 0x16, []⟩ = .ok (.evCsrise 1) ∧
      s.undelivered[3]? = some ⟨0x06, []⟩ ∧ decode ⟨.event, 0x06, []⟩ = .ok (.evCsrise 0) ∧
      refuses (takeInput (.deliver 2) s) .edgeOrder = true ∧ refuses (takeInput (.deliver 3) s) .edgeOrder = true := by
  decide
/-- OnlyHostAndEnvironmentAct: a command of the host, and a delivery of the environment. -/
theorem test_meets_OnlyHostAndEnvironmentAct :
    (∃ t, step (withInputs State.reset [.command 1 []]) = .next t ∧
      decide (t ≠ withInputs State.reset [.command 1 []]) = true) ∧
      (∃ t, step (withInputs sendingLink [.event 0x01 []]) = .next t ∧
        decide (t ≠ withInputs sendingLink [.event 0x01 []]) = true) ∧
      (withInputs State.reset [.command 1 []]).nextAgent = some .host ∧
      (withInputs sendingLink [.event 0x01 []]).nextAgent = some .environment ∧ ready.nextAgent = none :=
  ⟨next_of_gives (by decide), next_of_gives (by decide), rfl, rfl, rfl⟩
/-- RunEndsWhenTheLinkAnswers: the two completions of SEND01 end the run, an error ends it at once, and a receive with a
reply takes four answers. -/
theorem test_meets_RunEndsWhenTheLinkAnswers :
    sendingLink.Inv ∧ sendingLink.LinkInv ∧ (sendingLink.link 0).send ≠ none ∧ sendingLink.outstanding = true ∧
      sendingLink.inputs = [] ∧ sendingLink.undelivered = [] ∧ sendingLink.cfg.environment = .general ∧
      sendingLink.linkWork = 2 ∧
      (sendingLink.answered [.evTxdone 0, .evTxdone 0]).any State.ended = true ∧
      (sendingLink.answered [.evError 0 1]).any State.ended = true ∧
      (sendingLink.answered [.evTxdone 0, .evTxdone 0, .evTxdone 0]).isNone = true :=
  ⟨inv_of_checks rfl rfl (by decide), linkInv_of_checks (by decide), by decide⟩
theorem test_answers_of_a_receive_with_a_reply :
    (listeningLink.link 1).recv = some (List.replicate 8 0#8).length ∧ listeningLink.linkWork = 4 ∧
      (listeningLink.answered
          [.evRxdone 1 [0xFF, 0xFF, 7, 0, 2, 3, 4, 0xFF], .evRxdone 1 [0x41, 0x42], .evTxdone 1, .evTxdone 1]).any
        State.ended = true := by decide
/-- The end of a run, and a run that waits for the link (R193, U11). -/
theorem test_ended : ready.ended = true ∧ sendingLink.ended = false ∧ sendingLink.waiting = true := by decide
/-- R38: the views of a transmit, and of one that aborted. -/
theorem test_views :
    (sending.dev 0).txView = .headerInFlight ∧ (sendingPayload.dev 0).txView = .payloadInFlight ∧
      (faulted.dev 0).rxView = .faulted ∧ (ready.dev 0).rxView = .idle ∧
      dirView 0x28 false true true = .complete := by decide
/-- R192: a controller and a target that are done. -/
theorem test_quiescent : ready.quiescent 0 1 = true ∧ sending.quiescent 0 1 = false := by decide

end Sys2Proof.Tests
end

section
/-! SUPPORT. The scope of a step (00_scope.md R7 to R9, R13): which machines are stopped, which input a step takes and the
instruction it runs, who acts, and what an instruction puts out. -/

namespace Sys2Proof.Machine

/-! ## Machines that are stopped (R9, R22, R26) -/

/-- A test over the device table below N_DEV finds exactly the channels that meet it. -/
theorem any_devs_zipIdx_iff (s : State) (f : Device → Bool) :
    (s.devs.toList.zipIdx.any fun p => decide (p.2 < s.cfg.nDev) && f p.1) = true ↔
      ∃ d : DevIx, d.toNat < s.cfg.nDev ∧ f (s.dev d) = true := by
  simp only [List.any_eq_true, Bool.and_eq_true, decide_eq_true_eq, Prod.exists, List.mem_zipIdx_iff_getElem?,
    Vector.getElem?_toList, Vector.getElem?_eq_some_iff]
  constructor
  · rintro ⟨D, k, ⟨hk, hD⟩, hlt, hf⟩
    exact ⟨BitVec.ofNatLT k hk, hlt, by rw [← hD] at hf; exact hf⟩
  · rintro ⟨d, hlt, hf⟩
    exact ⟨s.dev d, d.toNat, ⟨d.isLt, rfl⟩, hlt, hf⟩

theorem holdsReservedPhase_iff (s : State) :
    s.holdsReservedPhase = true ↔ ∃ d : DevIx, d.toNat < s.cfg.nDev ∧ phaseOf (s.dev d).state = 0b100#3 :=
  (any_devs_zipIdx_iff s fun D => phaseOf D.state == 0b100#3).trans (by simp only [beq_iff_eq])

theorem holdsReservedBits_iff (s : State) :
    s.holdsReservedBits = true ↔ ∃ d : DevIx, d.toNat < s.cfg.nDev ∧ (s.dev d).state.extractLsb' 6 2 ≠ 0#2 :=
  (any_devs_zipIdx_iff s fun D => D.state.extractLsb' 6 2 != 0#2).trans (by simp only [bne_iff_ne])

theorem step_of_badParameters {s : State} (hc : s.cfg.ok = false) : step s = .refused .badParameters := by
  simp [step, hc]

theorem step_of_modelError {s : State} {f : Fault} (hc : s.cfg.ok = true) (hm : s.modelError = some f) :
    step s = .fault f := by
  simp [step, hc, hm]

/-- Settles O8: the two tests of the device table are read channel by channel, the reserved PHASE first. -/
theorem illegalMachinesAreStopped : Obligations.IllegalMachinesAreStopped := by
  intro s
  refine ⟨step_of_badParameters, fun hc d hd hp => ?_, fun hc hp d hd hb => ?_⟩
  · have hphase : s.holdsReservedPhase = true := (holdsReservedPhase_iff s).2 ⟨d, hd, hp⟩
    exact step_of_modelError hc (by simp [State.modelError, hphase])
  · have hphase : ¬ s.holdsReservedPhase = true := by
      rw [holdsReservedPhase_iff]
      rintro ⟨e, he, hpe⟩
      exact hp e he hpe
    have hbits : s.holdsReservedBits = true := (holdsReservedBits_iff s).2 ⟨d, hd, hb⟩
    exact step_of_modelError hc (by simp [State.modelError, hphase, hbits])

/-! ## The outputs of an instruction (R13, R82) -/

@[simp] theorem responses_nil : responses [] = [] := rfl

@[simp] theorem responses_action_cons (a : Action) (out : List Output) :
    responses (.action a :: out) = responses out := rfl

@[simp] theorem responses_append (out out' : List Output) :
    responses (out ++ out') = responses out ++ responses out' := List.filter_append ..

@[simp] theorem responses_selectOutputs (c : Config) (target : Option DevIx) :
    responses (selectOutputs c target) = [] := by
  cases target <;> rfl

/-- From `s` to `t` only output actions are put out, none or more, and no response. -/
def EmitsActions (s t : State) : Prop := ∃ acts, t.outputs = s.outputs ++ acts ∧ responses acts = []

theorem EmitsActions.of_outputs_eq {s t : State} (h : t.outputs = s.outputs) : EmitsActions s t :=
  ⟨[], by simp [h], rfl⟩

theorem EmitsActions.emit {s t : State} (h : EmitsActions s t) (a : Action) : EmitsActions s (t.emit a) := by
  obtain ⟨acts, ho, hr⟩ := h
  exact ⟨acts ++ [.action a], by simp [ho], by simp [hr]⟩

theorem acceptTransmit_emitsActions (d : DevIx) (target : Option DevIx) (len dst rxreg rxlen opc : Byte)
    (data : List Byte) {s t : State} (h : t.outputs = s.outputs) :
    EmitsActions s (acceptTransmit d target len dst rxreg rxlen opc data t) :=
  ⟨_, by rw [acceptTransmit_outputs, h, List.append_assoc], by simp⟩

theorem acceptReceive_emitsActions (d : DevIx) {s t : State} (h : t.outputs = s.outputs) :
    EmitsActions s (acceptReceive d t) :=
  ⟨_, by rw [acceptReceive_outputs, h], rfl⟩

/-- The deselecting drive is all that TxPayloadDone puts out (R120). -/
theorem txPayloadDone_emitsActions (d : DevIx) (s : State) : EmitsActions s (txPayloadDone d s) := by
  cases hx : (s.dev d).targetDevice with
  | none => exact .of_outputs_eq (by simp [txPayloadDone, hx])
  | some t => exact ⟨[.action (.csDrive t true)], by simp [txPayloadDone, hx], rfl⟩

/-- The response of the turnaround's TRANSMIT is discarded (R123). -/
theorem rxPayloadDone_emitsActions (d : DevIx) (bytes : List Byte) (s : State) :
    EmitsActions s (rxPayloadDone d bytes s) := by
  rw [rxPayloadDone]
  rcases turnaround_cases d (s.modDev d (storePayload s.cfg bytes)) with ht | ⟨m, q, data, -, -, -, ht⟩ <;> rw [ht]
  · exact .of_outputs_eq rfl
  · exact acceptTransmit_emitsActions _ _ _ _ _ _ _ _ rfl

/-- The deselecting drive of a released target is all that CLEAR puts out before its response (R162). -/
theorem clear_emitsActions (d : DevIx) (stmask opmask ecmask : Byte) (s : State) :
    EmitsActions s (clearOpRx d opmask (clearOpTx d opmask (s.modDev d (clearBits stmask ecmask)))) :=
  ⟨_, by rw [clearOpRx_outputs, clearOpTx_outputs, State.modDev_outputs], by split <;> rfl⟩

/-- `t` is a state that put out actions only, and then one response. -/
def AnswersOnce (s t : State) : Prop :=
  ∃ u ok p bytes, EmitsActions s u ∧ t = u.respond ok p bytes

theorem AnswersOnce.respond (s : State) (ok : Bool) (p : BitVec 63) (bytes : List Byte) :
    AnswersOnce s (s.respond ok p bytes) :=
  ⟨s, ok, p, bytes, .of_outputs_eq rfl, rfl⟩

theorem AnswersOnce.accept {s u : State} (h : EmitsActions s u) : AnswersOnce s u.accept :=
  ⟨u, true, 0, [], h, rfl⟩

theorem AnswersOnce.outputs {s t : State} (h : AnswersOnce s t) :
    ∃ acts w bytes, t.outputs = s.outputs ++ (acts ++ [.response w bytes]) ∧ responses acts = [] := by
  obtain ⟨u, ok, p, bytes, ⟨acts, ho, hr⟩, rfl⟩ := h
  exact ⟨acts, responseWord ok p, bytes, by simp [ho], hr⟩

/-- A command that is taken answers once, last, rejected or accepted (R13, R82). -/
theorem exec_command_answersOnce {i : Instr} {s t : State} (hc : i.isCommand = true) (h : exec i s = .next t) :
    AnswersOnce s t := by
  cases i with
  | init =>
    cases h
    split
    · exact .accept (.of_outputs_eq rfl)
    · exact .respond ..
  | isInit => cases h; exact .respond ..
  | lookup id =>
    simp only [exec, execLookup] at h
    split at h
    · cases h; exact .respond ..
    · split at h <;> cases h <;> exact .respond ..
  | transmit d target len dst rxreg rxlen opc data =>
    simp only [exec, execTransmit] at h
    split at h
    · cases h; exact .respond ..
    · split at h
      · cases h
      · cases h; exact .accept (acceptTransmit_emitsActions _ _ _ _ _ _ _ _ rfl)
  | receive d =>
    simp only [exec, execReceive] at h
    split at h <;> cases h
    · exact .respond ..
    · exact .accept (acceptReceive_emitsActions d rfl)
  | status d =>
    simp only [exec, execStatus] at h
    split at h <;> cases h <;> exact .respond ..
  | regread d reg =>
    simp only [exec, execRegread] at h
    split at h <;> cases h <;> exact .respond ..
  | clear d stmask opmask ecmask =>
    simp only [exec, execClear] at h
    split at h <;> cases h
    · exact .respond ..
    · exact .accept (clear_emitsActions ..)
  | _ => cases hc

/-- An event answers nothing (R82). -/
theorem exec_event_emitsActions {i : Instr} {s t : State} (hc : i.isCommand = false) (h : exec i s = .next t) :
    EmitsActions s t := by
  cases exec_effect h with
  | ignored => exact .of_outputs_eq rfl
  | answered _ _ _ _ hcmd => simp [hc] at hcmd
  | txHeader d => exact .emit (.of_outputs_eq rfl) _
  | txPayload d => exact txPayloadDone_emitsActions d s
  | rxHeader d bytes => exact .emit (.of_outputs_eq rfl) _
  | rxPayload d bytes => exact rxPayloadDone_emitsActions d bytes s
  | errored | aborted | selectedBusy | deselected => exact .of_outputs_eq rfl
  | selectedIdle d => exact acceptReceive_emitsActions d rfl
  | initialised | transmitted | receiving | cleared => cases hc

/-- Settles O37: a command answers once, last, and an event puts out actions only. -/
theorem everyCommandAnswersOnce : Obligations.EveryCommandAnswersOnce := by
  intro i s t h
  cases hc : i.isCommand with
  | true =>
    obtain ⟨acts, w, bytes, ho, hr⟩ := (exec_command_answersOnce hc h).outputs
    exact ⟨_, ho, fun _ => ⟨acts, w, bytes, rfl, hr⟩, nofun⟩
  | false =>
    obtain ⟨acts, ho, hr⟩ := exec_event_emitsActions hc h
    exact ⟨acts, ho, nofun, fun _ => hr⟩

/-! ## Who acts (R7) -/

/-- The host's inputs are the command words; every other input is the environment's (R7, R183). -/
theorem Input.agent_eq_host_iff (i : Input) : i.agent = .host ↔ ∃ w data, i = .command w data := by
  cases i <;> simp [Input.agent]

/-- No input is the block's: it never acts on its own (R7 c). -/
theorem Input.agent_host_or_environment (i : Input) : i.agent = .host ∨ i.agent = .environment := by
  cases i <;> simp [Input.agent]

/-- Settles O57: a step that changes something took the head of the schedule. -/
theorem onlyHostAndEnvironmentAct : Obligations.OnlyHostAndEnvironmentAct := by
  intro s t h hne
  obtain ⟨-, -, ⟨-, ht⟩ | ⟨i, rest, hi, ht⟩⟩ := step_eq_next h
  · exact absurd ht hne
  · exact ⟨i, rest, hi, takeInput_inputs ht, by simp [State.nextAgent, hi], i.agent_host_or_environment,
      i.agent_eq_host_iff⟩

/-! ## The instruction a step runs (R8, R180, R189) -/

theorem step_of_inputs_nil {s : State} (hc : s.cfg.ok = true) (hm : s.modelError = none) (hi : s.inputs = []) :
    step s = .next s := by
  simp [step, hc, hm, hi]

theorem step_of_inputs_cons {s : State} {i : Input} {rest : List Input} (hc : s.cfg.ok = true)
    (hm : s.modelError = none) (hi : s.inputs = i :: rest) : step s = takeInput i { s with inputs := rest } := by
  simp [step, hc, hm, hi]

theorem runWord_of_decode {e : Encoded} {i : Instr} (s : State) (hd : decode e = .ok i) :
    runWord e s = exec i (s.delivered i) := by
  simp [runWord, hd]

theorem mayArriveWord_of_decode {w : Word} {data : List Byte} {i : Instr} (s : State)
    (hd : decode ⟨.event, w, data⟩ = .ok i) : s.mayArriveWord w data = s.mayArrive i := by
  simp [State.mayArriveWord, hd]

/-- What the command port decodes to is a command (R79, R87). -/
theorem isCommand_of_decode {w : Word} {data : List Byte} {i : Instr} (hd : decode ⟨.command, w, data⟩ = .ok i) :
    i.isCommand = true := by
  simp only [decode, decodeCommand] at hd
  split at hd <;> cases hd <;> rfl

theorem takeInput_command {w : Word} {data : List Byte} {i : Instr} (s : State)
    (hd : decode ⟨.command, w, data⟩ = .ok i) : takeInput (.command w data) s = exec i s := by
  rw [takeInput, runWord_of_decode s hd, State.delivered_command s (isCommand_of_decode hd)]

theorem takeInput_event {w : Word} {data : List Byte} {i : Instr} (s : State)
    (hd : decode ⟨.event, w, data⟩ = .ok i) :
    takeInput (.event w data) s = if s.mayArrive i then exec i (s.delivered i) else .refused .foreignEvent := by
  rw [takeInput, runWord_of_decode s hd, mayArriveWord_of_decode s hd]

theorem takeInput_deliver {k : Nat} {e : Event} {i : Instr} {s : State} (he : s.undelivered[k]? = some e)
    (hd : decode ⟨.event, e.word, e.data⟩ = .ok i) (ho : s.overtakesEdge k e = false) :
    takeInput (.deliver k) s =
      exec i ({ s with undelivered := s.undelivered.eraseIdx k }.delivered i) := by
  simp [takeInput, deliverEvent, he, ho, runWord_of_decode _ hd]

/-- The number of a table row stands for an input that runs the row's instruction (log entry 5). -/
theorem takeInput_tableInput {nbits n : Nat} {i : Instr} {s : State} (hd : decodeTableWord nbits n = some i)
    (ha : s.mayArrive i = true) : takeInput (tableInput nbits n) s = exec i (s.delivered i) := by
  have hdec : decode (tableEncoded nbits n) = .ok i := by
    unfold decodeTableWord at hd
    cases hx : decode (tableEncoded nbits n) with
    | ok j => simpa [hx, Except.toOption] using hd
    | error err => simp [hx, Except.toOption] at hd
  unfold tableInput
  generalize tableEncoded nbits n = e at hdec
  obtain ⟨port, w, data⟩ := e
  cases port with
  | command => exact runWord_of_decode s hdec
  | event => exact (takeInput_event s hdec).trans (if_pos ha)

/-- Settles O5: the head of the schedule is taken, and the instruction it decodes to runs. -/
theorem stepRunsDecodedInstruction : Obligations.StepRunsDecodedInstruction := by
  intro s hc hm
  refine ⟨step_of_inputs_nil hc hm, fun w data rest i hi hd => ?_, fun w data rest i hi hd => ?_,
    fun k e rest i hi he hd ho => ?_, fun nbits n i hd ha => ?_⟩
  · rw [step_of_inputs_cons hc hm hi, takeInput_command _ hd]
  · rw [step_of_inputs_cons hc hm hi, takeInput_event _ hd]
    rfl
  · rw [step_of_inputs_cons hc hm hi]
    exact takeInput_deliver he hd ho
  · rw [step_of_inputs_cons (s := s.withFetchWord nbits n) hc hm rfl]
    exact takeInput_tableInput hd ha

end Sys2Proof.Machine
end

section
/-! SUPPORT. The state of a channel (10_state.md): which instruction writes which of its fields, and the invariants that
every step keeps. -/

namespace Sys2Proof.Machine

/-! ## Slots of a register file (R36, R51) -/

/-- A slot holds a whole payload in every model with parameters in range (R9). -/
theorem Config.maxPayload_le_regSize {c : Config} (hc : c.ok = true) : maxPayload ≤ c.regSize := by
  simp only [Config.ok, Bool.and_eq_true, decide_eq_true_eq] at hc
  exact hc.1.1.2

/-- An address in a register file tells its slot and its offset in the slot. -/
theorem slotBase_add_inj {regSize a b : Nat} {i j : Byte} (ha : a < regSize) (hb : b < regSize)
    (h : slotBase regSize i + a = slotBase regSize j + b) : i = j ∧ a = b := by
  have hpos : 0 < regSize := by omega
  have slot : ∀ (r : Byte) (o : Nat), o < regSize → (slotBase regSize r + o) / regSize = r.toNat := fun r o ho => by
    rw [slotBase, Nat.add_comm, Nat.add_mul_div_right o r.toNat hpos, Nat.div_eq_of_lt ho, Nat.zero_add]
  have hij : i.toNat = j.toNat := by rw [← slot i a ha, h, slot j b hb]
  obtain rfl := BitVec.eq_of_toNat_eq hij
  exact ⟨rfl, Nat.add_left_cancel h⟩

/-- A slot that exists ends inside the register file. -/
theorem slotBase_add_lt {regSize regCount a : Nat} {i : Byte} (hi : i.toNat < regCount) (ha : a < regSize) :
    slotBase regSize i + a < regCount * regSize :=
  calc slotBase regSize i + a < i.toNat * regSize + regSize := Nat.add_lt_add_left ha _
    _ = (i.toNat + 1) * regSize := (Nat.succ_mul ..).symm
    _ ≤ regCount * regSize := Nat.mul_le_mul_right _ hi

/-- Settles O25: an address tells its slot, slots end inside the register file, and a payload fits in one. -/
theorem slotsDoNotAlias : Obligations.SlotsDoNotAlias := by
  intro c i j a b hc hi _ ha hb
  exact ⟨slotBase_add_inj ha hb, slotBase_add_lt hi ha, Config.maxPayload_le_regSize hc⟩

/-! ## Setting phases (R26, R27) -/

/-- One of the four masks SetPhase is called with (R27). -/
def IsPhaseMask (m : Byte) : Prop :=
  m = maskTxPending ∨ m = maskTxComplete ∨ m = maskRxPending ∨ m = maskRxComplete

/-- SetPhase ORs the mask's PHASE into the channel's. -/
theorem phaseOf_setState (D : Device) (m : Byte) :
    phaseOf (D.setState m).state = phaseOf D.state ||| phaseOf m :=
  BitVec.extractLsb'_or ..

/-- Every phase mask sets T or R, so the reserved value, which has neither, is never left behind. -/
theorem phaseOf_setState_ne_reserved {D : Device} {m : Byte} (hm : IsPhaseMask m) :
    phaseOf (D.setState m).state ≠ 0b100#3 := by
  rw [phaseOf_setState]
  generalize phaseOf D.state = p
  rcases hm with rfl | rfl | rfl | rfl <;> revert p <;> decide

/-- SetPhase touches the PHASE field only. -/
theorem setState_phaseMask_other_bits {D : Device} {m : Byte} (hm : IsPhaseMask m) :
    (D.setState m).state &&& 0xC7 = D.state &&& 0xC7 := by
  have hzero : m &&& 0xC7 = 0#8 := by rcases hm with rfl | rfl | rfl | rfl <;> rfl
  rw [Device.setState, BitVec.and_comm, BitVec.and_or_distrib_left, BitVec.and_comm _ m, hzero, BitVec.or_zero,
    BitVec.and_comm]

/-- What any sequence of phase settings leaves behind, from any PHASE but the reserved one. -/
theorem foldl_setState_phaseMasks (ms : List Byte) (D : Device) (hms : ∀ m ∈ ms, IsPhaseMask m)
    (hD : phaseOf D.state ≠ 0b100#3) :
    phaseOf (ms.foldl Device.setState D).state ≠ 0b100#3 ∧
      (ms.foldl Device.setState D).state &&& 0xC7 = D.state &&& 0xC7 ∧ (ms.foldl Device.setState D).op = D.op := by
  induction ms generalizing D with
  | nil => exact ⟨hD, rfl, rfl⟩
  | cons m ms ih =>
    have hm : IsPhaseMask m := hms m (by simp)
    obtain ⟨hphase, hbits, hop⟩ :=
      ih (D.setState m) (fun k hk => hms k (by simp [hk])) (phaseOf_setState_ne_reserved hm)
    exact ⟨hphase, hbits.trans (setState_phaseMask_other_bits hm), hop⟩

/-- The phase settings that take an idle channel to a PHASE value: pending or complete for each direction it names. -/
def masksToPhase (p : BitVec 3) : List Byte :=
  (if p.getLsbD 0 then [if p.getLsbD 2 then maskTxComplete else maskTxPending] else []) ++
    if p.getLsbD 1 then [if p.getLsbD 2 then maskRxComplete else maskRxPending] else []

theorem isPhaseMask_of_mem_masksToPhase : ∀ p : BitVec 3, ∀ m ∈ masksToPhase p, IsPhaseMask m := by
  unfold IsPhaseMask
  decide

/-- PHASE after a sequence of settings is PHASE before it with every mask's ORed in. -/
theorem phaseOf_foldl_setState (ms : List Byte) (D : Device) :
    phaseOf (ms.foldl Device.setState D).state = ms.foldl (fun p m => p ||| phaseOf m) (phaseOf D.state) := by
  induction ms generalizing D with
  | nil => rfl
  | cons m ms ih => rw [List.foldl_cons, ih, phaseOf_setState, List.foldl_cons]

theorem phaseOf_foldl_masksToPhase {D : Device} {p : BitVec 3} (hD : phaseOf D.state = 0) (hp : p ≠ 0b100#3) :
    phaseOf ((masksToPhase p).foldl Device.setState D).state = p := by
  rw [phaseOf_foldl_setState, hD]
  revert p
  decide

/-- Settles O45: no sequence of the masks leaves the reserved value, and each other value has a sequence. -/
theorem phaseSettingGivesTheSevenValues : Obligations.PhaseSettingGivesTheSevenValues := by
  refine ⟨fun D ms hms hD => foldl_setState_phaseMasks ms D hms ?_, fun D p hD hp =>
    ⟨masksToPhase p, isPhaseMask_of_mem_masksToPhase p, phaseOf_foldl_masksToPhase hD hp⟩⟩
  rw [phaseOf, hD]
  decide

/-! ## What a receive completion leaves of its channel (R122) -/

@[simp] theorem storePayload_state (c : Config) (bytes : List Byte) (D : Device) :
    (storePayload c bytes D).state = D.state ||| maskRxComplete := by
  simp only [storePayload]; split <;> rfl
@[simp] theorem storePayload_op (c : Config) (bytes : List Byte) (D : Device) :
    (storePayload c bytes D).op = D.op &&& 0b01#2 := by
  simp only [storePayload]; split <;> rfl
@[simp] theorem storePayload_errCode (c : Config) (bytes : List Byte) (D : Device) :
    (storePayload c bytes D).errCode = D.errCode := by
  simp only [storePayload]; split <;> rfl

/-! ## The op bits after the operations that write them (R29) -/

@[simp] theorem Device.opTx_startTransmit (len dst rxreg rxlen opc : Byte) (data : List Byte) (D : Device) :
    (startTransmit len dst rxreg rxlen opc data D).opTx = true := by
  simp [Device.opTx, startTransmit, Device.setTx]
@[simp] theorem Device.opRx_startTransmit (len dst rxreg rxlen opc : Byte) (data : List Byte) (D : Device) :
    (startTransmit len dst rxreg rxlen opc data D).opRx = D.opRx := by
  simp [Device.opRx, startTransmit, Device.setTx, Device.setState]
@[simp] theorem Device.opTx_startReceive (D : Device) : (startReceive D).opTx = D.opTx := by
  simp [Device.opTx, startReceive, Device.setRx, Device.setState]
@[simp] theorem Device.opRx_startReceive (D : Device) : (startReceive D).opRx = true := by
  simp [Device.opRx, startReceive, Device.setRx]
@[simp] theorem Device.opTx_clearTx (D : Device) : D.clearTx.opTx = false := by simp [Device.opTx, Device.clearTx]
@[simp] theorem Device.opRx_clearTx (D : Device) : D.clearTx.opRx = D.opRx := by simp [Device.opRx, Device.clearTx]
@[simp] theorem Device.opTx_clearRx (D : Device) : D.clearRx.opTx = D.opTx := by simp [Device.opTx, Device.clearRx]
@[simp] theorem Device.opRx_clearRx (D : Device) : D.clearRx.opRx = false := by simp [Device.opRx, Device.clearRx]
@[simp] theorem Device.opTx_storePayload (c : Config) (bytes : List Byte) (D : Device) :
    (storePayload c bytes D).opTx = D.opTx := by
  simp [Device.opTx]
@[simp] theorem Device.opRx_storePayload (c : Config) (bytes : List Byte) (D : Device) :
    (storePayload c bytes D).opRx = false := by
  simp [Device.opRx]

/-! ## What one instruction does to one channel

`ExecEffect` says what an instruction does to the machine. `ChannelEffect` says it for one channel: what its fields hold
afterwards, and when. A claim about a channel's fields, over all instructions, is a case analysis of it. -/

/-- Instruction `i` on channel `d` selects or deselects the line of `e`: `d` has recorded `e` as its target, or `i` is a
TRANSMIT on `d` that names `e` (R110, R120, R162). -/
def DrivesLine (s : State) (i : Instr) (d e : DevIx) : Prop :=
  (s.dev d).targetDevice = some e ∨
    ∃ len dst rxreg rxlen opc data, i = .transmit d (some e) len dst rxreg rxlen opc data ∧ s.absent e = false

/-- What a CLEAR does to its own channel, its line aside (R162): the named state and err_code bits go, then op.TX and
the target with it, then op.RX. -/
def clearChannel (stmask opmask ecmask : Byte) (D : Device) : Device :=
  let D := clearBits stmask ecmask D
  let D := if (opmask.getLsbD 0 && D.opTx) = true then { D.clearTx with targetDevice := none } else D
  if opmask.getLsbD 1 = true then D.clearRx else D

@[simp] theorem clearChannel_state (stmask opmask ecmask : Byte) (D : Device) :
    (clearChannel stmask opmask ecmask D).state = D.state &&& ~~~clearMask stmask := by
  simp only [clearChannel]; split <;> split <;> rfl
@[simp] theorem clearChannel_targetDevice (stmask opmask ecmask : Byte) (D : Device) :
    (clearChannel stmask opmask ecmask D).targetDevice =
      if (opmask.getLsbD 0 && D.opTx) = true then none else D.targetDevice := by
  have hop : (clearBits stmask ecmask D).opTx = D.opTx := rfl
  simp only [clearChannel, hop]; split <;> split <;> rfl
@[simp] theorem clearChannel_txBuff (stmask opmask ecmask : Byte) (D : Device) :
    (clearChannel stmask opmask ecmask D).txBuff = D.txBuff := by
  simp only [clearChannel]; split <;> split <;> rfl
@[simp] theorem clearChannel_rxBuff (stmask opmask ecmask : Byte) (D : Device) :
    (clearChannel stmask opmask ecmask D).rxBuff = D.rxBuff := by
  simp only [clearChannel]; split <;> split <;> rfl
@[simp] theorem clearChannel_regs (stmask opmask ecmask : Byte) (D : Device) :
    (clearChannel stmask opmask ecmask D).regs = D.regs := by
  simp only [clearChannel]; split <;> split <;> rfl

/-- op.TX after a CLEAR: OPMASK bit 0 clears it, and op.RX's part leaves it (R162). -/
@[simp] theorem Device.opTx_clearChannel (stmask opmask ecmask : Byte) (D : Device) :
    (clearChannel stmask opmask ecmask D).opTx = (D.opTx && !opmask.getLsbD 0) := by
  have hop : (clearBits stmask ecmask D).opTx = D.opTx := rfl
  simp only [clearChannel, hop]
  rw [apply_ite Device.opTx, Device.opTx_clearRx, ite_self]
  split
  · next h =>
    rw [(Bool.and_eq_true_iff.1 h).1]
    exact (Device.opTx_clearTx _).trans (Bool.and_false _).symm
  · next h => cases hb : opmask.getLsbD 0 <;> simp_all
/-- op.RX after a CLEAR: OPMASK bit 1 clears it, and op.TX's part leaves it (R162). -/
@[simp] theorem Device.opRx_clearChannel (stmask opmask ecmask : Byte) (D : Device) :
    (clearChannel stmask opmask ecmask D).opRx = (D.opRx && !opmask.getLsbD 1) := by
  simp only [clearChannel]
  split
  · next h => rw [h]; exact (Device.opRx_clearRx _).trans (Bool.and_false _).symm
  · next h =>
    rw [Bool.eq_false_of_not_eq_true h, Bool.not_false, Bool.and_true]
    split
    · exact Device.opRx_clearTx _
    · rfl

/-- The channel `e` of `s`, after instruction `i` gave a next state. -/
inductive ChannelEffect (s : State) (e : DevIx) : Instr → Device → Prop
  /-- The channel is as it was. -/
  | kept (i : Instr) : ChannelEffect s e i (s.dev e)
  /-- Another channel's instruction drove this channel's line (R154, R155, R184). -/
  | driven (i : Instr) (d : DevIx) (level : Bool) : s.ignores d = false → i.device = some d → DrivesLine s i d e →
      ChannelEffect s e i { s.dev e with csOut := level }
  | transmitted (target : Option DevIx) (len dst rxreg rxlen opc : Byte) (data : List Byte) (level : Bool) :
      s.ignores e = false → checkTransmit s e target len dst = none → (clampLen len).toNat ≤ data.length →
      ChannelEffect s e (.transmit e target len dst rxreg rxlen opc data)
        { startTransmit len dst rxreg rxlen opc data (s.dev e) with
          targetDevice := if target.isSome then target else (s.dev e).targetDevice
          csOut := level }
  | receiving : s.ignores e = false → ChannelEffect s e (.receive e) (startReceive (s.dev e))
  | txHeader : s.ignores e = false → ChannelEffect s e (.evTxdone e) { s.dev e with txPos := true }
  | txPayload (level : Bool) : s.ignores e = false → (s.dev e).txPos = true →
      ChannelEffect s e (.evTxdone e)
        { ((s.dev e).setState maskTxComplete).clearTx with targetDevice := none, csOut := level }
  | rxHeader (bytes : List Byte) : s.ignores e = false →
      ChannelEffect s e (.evRxdone e bytes)
        { s.dev e with rxBuff := (s.dev e).rxBuff.memWrite 0 hdrLen bytes, rxPos := true }
  | rxPayload (bytes : List Byte) : s.ignores e = false → (s.dev e).rxPos = true →
      bytes.length = (hdrTxLen (s.dev e).rxBuff).toNat →
      ChannelEffect s e (.evRxdone e bytes) (storePayload s.cfg bytes (s.dev e))
  | turnaround (bytes : List Byte) (len dst opc : Byte) (data : List Byte) : s.ignores e = false →
      (s.dev e).opRx = true → (s.dev e).rxPos = true → bytes.length = (hdrTxLen (s.dev e).rxBuff).toNat →
      1 ≤ len.toNat → (clampLen len).toNat ≤ data.length →
      ChannelEffect s e (.evRxdone e bytes)
        (startTransmit len dst 0 0 opc data (storePayload s.cfg bytes (s.dev e)))
  | errored (code : Byte) : s.ignores e = false →
      ChannelEffect s e (.evError e code)
        { (s.dev e).setState maskErr with errCode := (s.dev e).errCode ||| code }
  | aborted : s.ignores e = false → ChannelEffect s e (.evAbort e) ((s.dev e).setState maskAbt)
  | selectedIdle : s.ignores e = false →
      ChannelEffect s e (.evCsfall e) (startReceive ((s.dev e).setState maskSel))
  | selectedBusy : s.ignores e = false → ChannelEffect s e (.evCsfall e) ((s.dev e).setState maskSel)
  | deselected : s.ignores e = false → ChannelEffect s e (.evCsrise e) ((s.dev e).clearState maskSel)
  | cleared (stmask opmask ecmask : Byte) (level : Bool) : s.ignores e = false →
      ChannelEffect s e (.clear e stmask opmask ecmask)
        { clearChannel stmask opmask ecmask (s.dev e) with csOut := level }

/-- An instruction that writes one channel leaves every other as it was. -/
theorem ChannelEffect.of_own {s : State} {d e : DevIx} {i : Instr} {D : Device} (h : ChannelEffect s d i D) :
    ChannelEffect s e i (if e = d then D else s.dev e) := by
  split
  · next he => exact he ▸ h
  · exact .kept i

/-- Another channel's instruction leaves this one's line, or drives it where it is a target. -/
theorem ChannelEffect.of_line {s : State} {d e : DevIx} {i : Instr} {p : Prop} [Decidable p] {level : Bool}
    (hg : s.ignores d = false) (hi : i.device = some d) (hp : p → DrivesLine s i d e) :
    ChannelEffect s e i { s.dev e with csOut := if p then level else (s.dev e).csOut } := by
  by_cases h : p
  · exact .driven i d _ hg hi (hp h)
  · rw [if_neg h]; exact .kept i

/-- An accepted TRANSMIT's channels (R110). -/
theorem acceptTransmit_channelEffect {s : State} {d : DevIx} {target : Option DevIx}
    {len dst rxreg rxlen opc : Byte} {data : List Byte} (hc : checkTransmit s d target len dst = none)
    (hd : (clampLen len).toNat ≤ data.length) (e : DevIx) :
    ChannelEffect s e (.transmit d target len dst rxreg rxlen opc data)
      ((acceptTransmit d target len dst rxreg rxlen opc data s).dev e) := by
  obtain ⟨hi, ha, -, -, ht, -⟩ := checkTransmit_eq_none.1 hc
  have hg : s.ignores d = false := ignores_eq_false.2 ⟨hi, ha⟩
  rw [acceptTransmit_dev]
  by_cases he : e = d
  · subst he
    cases target with
    | none =>
      rw [if_pos rfl]
      exact .transmitted none len dst rxreg rxlen opc data (s.dev e).csOut hg hc hd
    | some t => simpa using ChannelEffect.transmitted (some t) len dst rxreg rxlen opc data _ hg hc hd
  · cases target with
    | none => simpa [he] using ChannelEffect.kept _
    | some t =>
      simp only [he, if_false]
      exact .of_line hg rfl fun h => .inr ⟨len, dst, rxreg, rxlen, opc, data, by rw [h], h ▸ ht t rfl⟩

/-- The channels after the payload of a transmit has gone out (R120). -/
theorem txPayloadDone_channelEffect {s : State} {d : DevIx} (hg : s.ignores d = false)
    (hp : (s.dev d).txPos = true) (e : DevIx) : ChannelEffect s e (.evTxdone d) ((txPayloadDone d s).dev e) := by
  rw [txPayloadDone_dev]
  by_cases he : e = d
  · subst he; simpa using ChannelEffect.txPayload _ hg hp
  · simp only [he, if_false]
    exact .of_line hg rfl .inl

/-- The channels after the payload of a receive has come in, the turnaround included (R122, R123). -/
theorem rxPayloadDone_channelEffect {s : State} {d : DevIx} {bytes : List Byte} (hg : s.ignores d = false)
    (ho : (s.dev d).opRx = true) (hp : (s.dev d).rxPos = true)
    (hl : bytes.length = (hdrTxLen (s.dev d).rxBuff).toNat) (e : DevIx) :
    ChannelEffect s e (.evRxdone d bytes) ((rxPayloadDone d bytes s).dev e) := by
  rw [rxPayloadDone]
  rcases turnaround_cases d (s.modDev d (storePayload s.cfg bytes)) with ht | ⟨m, q, data, hc, hlen, hm, ht⟩ <;> rw [ht]
  · rw [State.dev_modDev]
    exact .of_own (.rxPayload bytes hg hp hl)
  · obtain ⟨-, -, hpos, -⟩ := checkTransmit_eq_none.1 hc
    simp only [acceptTransmit_dev, State.dev_modDev, if_true]
    split
    · next he => subst he; exact .turnaround bytes m q _ data hg ho hp hl hpos (by rw [hm, hlen])
    · exact .kept _

/-- CLEAR's three parts come to `clearChannel` on the channel, and a drive of the target's line (R162). -/
theorem clear_dev (s : State) (d e : DevIx) (stmask opmask ecmask : Byte) :
    (clearOpRx d opmask (clearOpTx d opmask (s.modDev d (clearBits stmask ecmask)))).dev e =
      { (if e = d then clearChannel stmask opmask ecmask (s.dev d) else s.dev e) with
        csOut := if endsTx s d opmask = true ∧ (s.dev d).targetDevice = some e then true else (s.dev e).csOut } := by
  have hends : endsTx (s.modDev d (clearBits stmask ecmask)) d opmask = endsTx s d opmask := by
    simp [endsTx, clearBits, Device.clearState, Device.opTx]
  have hown : (opmask.getLsbD 0 && (clearBits stmask ecmask (s.dev d)).opTx) = endsTx s d opmask := rfl
  by_cases he : e = d
  · subst he
    simp only [clearOpRx_dev, clearOpTx_dev, hends, State.dev_modDev, clearChannel, hown, if_true, and_true]
    cases endsTx s e opmask <;> cases opmask.getLsbD 1 <;> simp <;> rfl
  · simp only [clearOpRx_dev, clearOpTx_dev, hends, State.dev_modDev, he, if_false, and_false]
    cases endsTx s d opmask with
    | false => rfl
    | true => simp only [if_true, true_and]; rfl

/-- The channels after an accepted CLEAR (R162). -/
theorem clear_channelEffect {s : State} {d : DevIx} (stmask opmask ecmask : Byte) (hg : s.ignores d = false)
    (e : DevIx) :
    ChannelEffect s e (.clear d stmask opmask ecmask)
      ((clearOpRx d opmask (clearOpTx d opmask (s.modDev d (clearBits stmask ecmask)))).dev e) := by
  rw [clear_dev]
  by_cases he : e = d
  · subst he; simpa only [if_true] using ChannelEffect.cleared stmask opmask ecmask _ hg
  · simp only [he, if_false]
    exact .of_line hg rfl fun h => .inl h.2

/-- Every channel after every instruction is one of the cases of `ChannelEffect`. -/
theorem exec_channelEffect {i : Instr} {s t : State} (h : exec i s = .next t) (e : DevIx) :
    ChannelEffect s e i (t.dev e) := by
  have handled : ∀ {d}, s.initialized = true → s.absent d = false → s.ignores d = false :=
    fun hi ha => ignores_eq_false.2 ⟨hi, ha⟩
  cases exec_effect h with
  | ignored | answered | initialised => exact .kept _
  | transmitted d target len dst rxreg rxlen opc data hc hd => exact acceptTransmit_channelEffect hc hd e
  | receiving d hc =>
    obtain ⟨hi, ha, -⟩ := checkReceive_eq_none.1 hc
    rw [State.accept_eq, State.respond_dev, acceptReceive_dev]
    exact .of_own (.receiving (handled hi ha))
  | txHeader d hi ha ho hp hl =>
    rw [State.emit_dev, State.dev_modDev]
    exact .of_own (.txHeader (handled hi ha))
  | txPayload d hi ha ho hp => exact txPayloadDone_channelEffect (handled hi ha) hp e
  | rxHeader d bytes hi ha ho hp hl =>
    rw [rxHeaderDone, State.emit_dev, State.dev_modDev]
    exact .of_own (.rxHeader bytes (handled hi ha))
  | rxPayload d bytes hi ha ho hp hl => exact rxPayloadDone_channelEffect (handled hi ha) ho hp hl e
  | errored d code hi ha =>
    rw [State.dev_modDev]
    exact .of_own (.errored code (handled hi ha))
  | aborted d hi ha =>
    rw [State.dev_modDev]
    exact .of_own (.aborted (handled hi ha))
  | selectedIdle d hi ha ho =>
    rw [acceptReceive_dev, State.dev_modDev, State.dev_modDev, if_pos rfl]
    by_cases he : e = d
    · subst he
      rw [if_pos rfl]
      exact .selectedIdle (handled hi ha)
    · rw [if_neg he, if_neg he]
      exact .kept _
  | selectedBusy d hi ha ho =>
    rw [State.dev_modDev]
    exact .of_own (.selectedBusy (handled hi ha))
  | deselected d hi ha =>
    rw [State.dev_modDev]
    exact .of_own (.deselected (handled hi ha))
  | cleared d stmask opmask ecmask hi ha => exact clear_channelEffect stmask opmask ecmask (handled hi ha) e

/-! ## The fields of a channel over all instructions (R23 to R25, R28, R29, R32, R36) -/

/-- What an instruction does to a channel's status word: it sets bits, SEL only in an EV_CSFALL, or it is an EV_CSRISE
or a CLEAR on the channel and clears some (R23, R28). -/
theorem ChannelEffect.state_eq {s : State} {e : DevIx} {i : Instr} {D' : Device} (h : ChannelEffect s e i D') :
    (∃ m : Byte, D'.state = (s.dev e).state ||| m ∧ (m.getLsbD 0 = true → i = .evCsfall e)) ∨
      (i = .evCsrise e ∧ D'.state = (s.dev e).state &&& ~~~maskSel) ∨
      ∃ stmask opmask ecmask, i = .clear e stmask opmask ecmask ∧
        D'.state = (s.dev e).state &&& ~~~clearMask stmask := by
  cases h with
  | kept | driven | txHeader | rxHeader => exact .inl ⟨0, by simp, nofun⟩
  | transmitted => exact .inl ⟨maskTxPending, rfl, nofun⟩
  | receiving => exact .inl ⟨maskRxPending, rfl, nofun⟩
  | txPayload => exact .inl ⟨maskTxComplete, rfl, nofun⟩
  | rxPayload => exact .inl ⟨maskRxComplete, storePayload_state .., nofun⟩
  | turnaround =>
    refine .inl ⟨maskRxComplete ||| maskTxPending, ?_, nofun⟩
    simp [startTransmit, Device.setTx, Device.setState, BitVec.or_assoc]
  | errored => exact .inl ⟨maskErr, rfl, nofun⟩
  | aborted => exact .inl ⟨maskAbt, rfl, nofun⟩
  | selectedIdle => exact .inl ⟨maskSel ||| maskRxPending, BitVec.or_assoc .., fun _ => rfl⟩
  | selectedBusy => exact .inl ⟨maskSel, rfl, fun _ => rfl⟩
  | deselected => exact .inr (.inl ⟨rfl, rfl⟩)
  | cleared stmask opmask ecmask => exact .inr (.inr ⟨stmask, opmask, ecmask, rfl, clearChannel_state ..⟩)

/-- No instruction but CLEAR takes a bit from err_code (R32). -/
theorem ChannelEffect.errCode_eq {s : State} {e : DevIx} {i : Instr} {D' : Device} (h : ChannelEffect s e i D')
    (hne : ∀ st opm ec, i ≠ .clear e st opm ec) : ∃ code, D'.errCode = (s.dev e).errCode ||| code := by
  cases h with
  | errored code => exact ⟨code, rfl⟩
  | cleared => exact absurd rfl (hne _ _ _)
  | rxPayload | turnaround => exact ⟨0, by simp [startTransmit, Device.setTx, Device.setState]⟩
  | _ => exact ⟨0, BitVec.or_zero.symm⟩

/-- A masked word has no bit outside itself. -/
theorem and_mask_and_not_self {w : Nat} (x mask : BitVec w) : x &&& mask &&& ~~~x = 0#w := by
  rw [BitVec.and_comm x, BitVec.and_assoc]; simp

/-- Setting bits clears none. -/
theorem and_mask_and_not_or {w : Nat} (x mask y : BitVec w) : x &&& mask &&& ~~~(x ||| y) = 0#w := by
  rw [BitVec.not_or, ← BitVec.and_assoc, and_mask_and_not_self, BitVec.zero_and]

/-- Clearing SEL clears no sticky bit (R24, R25, R28). -/
theorem sticky_and_not_clearSel (state : Byte) : state &&& 0x3E &&& ~~~(state &&& ~~~maskSel) = 0#8 := by
  have hmask : (0x3E : Byte) = ~~~maskSel &&& 0x3E := rfl
  rw [hmask, ← BitVec.and_assoc, and_mask_and_not_self]

/-- Settles O38: a step other than CLEAR sets bits of the status word or clears SEL, and sets bits of err_code. -/
theorem onlyClearClearsStickyBits : Obligations.OnlyClearClearsStickyBits := by
  intro i s t h hne e
  have heff := exec_channelEffect h e
  constructor
  · rcases heff.state_eq with ⟨m, hm, -⟩ | ⟨-, hm⟩ | ⟨st, opm, ec, hi, -⟩
    · rw [hm]; exact and_mask_and_not_or ..
    · rw [hm]; exact sticky_and_not_clearSel _
    · exact absurd hi (hne e st opm ec)
  · obtain ⟨code, hcode⟩ := heff.errCode_eq (hne e)
    have hnone := and_mask_and_not_or (s.dev e).errCode (s.dev e).errCode code
    rwa [BitVec.and_self, ← hcode] at hnone

/-- Settles O39: only an EV_CSFALL sets SEL, and only an EV_CSRISE or a CLEAR clears bits of the status word. -/
theorem onlyEdgesAndClearChangeSelected : Obligations.OnlyEdgesAndClearChangeSelected := by
  intro i s t e h hsel
  rcases (exec_channelEffect h e).state_eq with ⟨m, hm, hfall⟩ | ⟨rfl, hm⟩ | ⟨st, opm, ec, rfl, hm⟩ <;>
    rw [hm] at hsel ⊢
  · rw [BitVec.getLsbD_or] at hsel ⊢
    cases hset : m.getLsbD 0 with
    | true => exact .inl ⟨Bool.or_true _, hfall hset⟩
    | false => exact absurd (by rw [hset, Bool.or_false]) hsel
  · exact .inr ⟨by simp, .inl rfl⟩
  · rw [BitVec.getLsbD_and] at hsel ⊢
    refine .inr ⟨?_, .inr ⟨st, opm, ec, rfl⟩⟩
    cases hkeep : (~~~clearMask st).getLsbD 0 with
    | true => exact absurd (by rw [hkeep, Bool.and_true]) hsel
    | false => exact Bool.and_false _

/-- op.TX of a channel after an instruction: as it was, or set or cleared by a rule (R29). -/
theorem ChannelEffect.opTx_eq {s : State} {e : DevIx} {i : Instr} {D' : Device} (h : ChannelEffect s e i D') :
    D'.opTx = (s.dev e).opTx ∨
      (D'.opTx = true ∧ ((∃ tg len dst rr rl opc data, i = .transmit e tg len dst rr rl opc data) ∨
        ∃ bytes, i = .evRxdone e bytes ∧ (s.dev e).opRx = true ∧ (s.dev e).rxPos = true)) ∨
      (D'.opTx = false ∧ ((i = .evTxdone e ∧ (s.dev e).txPos = true) ∨
        ∃ st opm ec, i = .clear e st opm ec ∧ opm.getLsbD 0 = true)) := by
  cases h with
  | transmitted tg len dst rr rl opc data =>
    exact .inr (.inl ⟨Device.opTx_startTransmit len dst rr rl opc data _, .inl ⟨tg, len, dst, rr, rl, opc, data, rfl⟩⟩)
  | turnaround bytes _ _ _ _ _ ho hp => exact .inr (.inl ⟨Device.opTx_startTransmit .., .inr ⟨bytes, rfl, ho, hp⟩⟩)
  | receiving | selectedIdle => exact .inl (Device.opTx_startReceive _)
  | txPayload _ _ hp => exact .inr (.inr ⟨Device.opTx_clearTx _, .inl ⟨rfl, hp⟩⟩)
  | rxPayload => exact .inl (Device.opTx_storePayload ..)
  | cleared st opm ec level =>
    have hop := Device.opTx_clearChannel st opm ec (s.dev e)
    cases hb : opm.getLsbD 0 with
    | true => exact .inr (.inr ⟨hop.trans (by rw [hb]; exact Bool.and_false _), .inr ⟨st, opm, ec, rfl, hb⟩⟩)
    | false => exact .inl (hop.trans (by rw [hb]; exact Bool.and_true _))
  | _ => exact .inl rfl

/-- op.RX of a channel after an instruction (R29). -/
theorem ChannelEffect.opRx_eq {s : State} {e : DevIx} {i : Instr} {D' : Device} (h : ChannelEffect s e i D') :
    D'.opRx = (s.dev e).opRx ∨
      (D'.opRx = true ∧ (i = .receive e ∨ i = .evCsfall e)) ∨
      (D'.opRx = false ∧ ((∃ bytes, i = .evRxdone e bytes ∧ (s.dev e).rxPos = true) ∨
        ∃ st opm ec, i = .clear e st opm ec ∧ opm.getLsbD 1 = true)) := by
  cases h with
  | transmitted _ len dst rr rl opc data => exact .inl (Device.opRx_startTransmit len dst rr rl opc data _)
  | turnaround bytes _ _ _ _ _ _ hp =>
    exact .inr (.inr ⟨(Device.opRx_startTransmit ..).trans (Device.opRx_storePayload ..), .inl ⟨bytes, rfl, hp⟩⟩)
  | receiving => exact .inr (.inl ⟨Device.opRx_startReceive _, .inl rfl⟩)
  | selectedIdle => exact .inr (.inl ⟨Device.opRx_startReceive _, .inr rfl⟩)
  | txPayload => exact .inl (Device.opRx_clearTx _)
  | rxPayload bytes _ hp => exact .inr (.inr ⟨Device.opRx_storePayload .., .inl ⟨bytes, rfl, hp⟩⟩)
  | cleared st opm ec level =>
    have hop := Device.opRx_clearChannel st opm ec (s.dev e)
    cases hb : opm.getLsbD 1 with
    | true => exact .inr (.inr ⟨hop.trans (by rw [hb]; exact Bool.and_false _), .inr ⟨st, opm, ec, rfl, hb⟩⟩)
    | false => exact .inl (hop.trans (by rw [hb]; exact Bool.and_true _))
  | _ => exact .inl rfl

/-- Settles O40: an op bit that changed was set or cleared by one of its rules. -/
theorem opBitsChangeOnlyByTheirRules : Obligations.OpBitsChangeOnlyByTheirRules := by
  intro i s t e h
  have heff := exec_channelEffect h e
  refine ⟨fun h0 h1 => ?_, fun h0 h1 => ?_, fun h0 h1 => ?_, fun h0 h1 => ?_⟩
  · rcases heff.opTx_eq with hk | ⟨-, hset⟩ | ⟨hc, -⟩ <;> simp_all
  · rcases heff.opTx_eq with hk | ⟨hs, -⟩ | ⟨-, hcleared⟩ <;> simp_all
  · rcases heff.opRx_eq with hk | ⟨-, hset⟩ | ⟨hc, -⟩ <;> simp_all
  · rcases heff.opRx_eq with hk | ⟨hs, -⟩ | ⟨-, hcleared⟩ <;> simp_all

/-- Settles O41: of the effects on a channel only those of its EV_RXDONE write rx_buff or the register file. -/
theorem onlyReceiveCompletionsWriteSlots : Obligations.OnlyReceiveCompletionsWriteSlots := by
  intro i s t e h hne
  have heff := exec_channelEffect h e
  generalize t.dev e = D' at heff ⊢
  cases heff with
  | rxHeader | rxPayload | turnaround => exact absurd rfl (hne _)
  | cleared => exact ⟨clearChannel_regs .., clearChannel_rxBuff ..⟩
  | _ => exact ⟨rfl, rfl⟩

/-! ## What no instruction changes (R33, R39, R52) -/

@[simp] theorem txPayloadDone_initialized (d : DevIx) (s : State) :
    (txPayloadDone d s).initialized = s.initialized := by
  cases hx : (s.dev d).targetDevice <;> simp [txPayloadDone, hx]

@[simp] theorem rxHeaderDone_cfg (d : DevIx) (bytes : List Byte) (s : State) :
    (rxHeaderDone d bytes s).cfg = s.cfg := State.emit_cfg ..
@[simp] theorem rxHeaderDone_initialized (d : DevIx) (bytes : List Byte) (s : State) :
    (rxHeaderDone d bytes s).initialized = s.initialized := State.emit_initialized ..

@[simp] theorem rxPayloadDone_cfg (d : DevIx) (bytes : List Byte) (s : State) :
    (rxPayloadDone d bytes s).cfg = s.cfg := by
  rw [rxPayloadDone]
  rcases turnaround_cases d (s.modDev d (storePayload s.cfg bytes)) with ht | ⟨m, q, data, -, -, -, ht⟩ <;> simp [ht]
@[simp] theorem rxPayloadDone_initialized (d : DevIx) (bytes : List Byte) (s : State) :
    (rxPayloadDone d bytes s).initialized = s.initialized := by
  rw [rxPayloadDone]
  rcases turnaround_cases d (s.modDev d (storePayload s.cfg bytes)) with ht | ⟨m, q, data, -, -, -, ht⟩ <;> simp [ht]

/-- No instruction changes the parameters (R9). -/
theorem exec_cfg {i : Instr} {s t : State} (h : exec i s = .next t) : t.cfg = s.cfg := by
  cases exec_effect h with
  | ignored => rfl
  | _ => simp

/-- Only INIT changes `initialized`, and it sets it (R33, R100). -/
theorem exec_initialized {i : Instr} {s t : State} (h : exec i s = .next t) :
    t.initialized = s.initialized ∨ t.initialized = true := by
  cases exec_effect h with
  | ignored => exact .inl rfl
  | initialised => exact .inr rfl
  | _ => exact .inl (by simp)

/-- A line that an instruction drives is one of a channel that exists, since a recorded target is (R31, R111). -/
theorem DrivesLine.absent_eq_false {s : State} {i : Instr} {d e : DevIx} (h : DrivesLine s i d e) (hs : s.Inv)
    (hg : s.ignores d = false) : s.absent e = false := by
  obtain ⟨-, ha⟩ := ignores_eq_false.1 hg
  rcases h with h | ⟨_, _, _, _, _, _, -, h⟩
  · exact Machine.absent_eq_false.2 ((hs.devs d ha).targetIndex e h)
  · exact h

/-- An instruction changes a channel only after INIT, and only a channel that exists (R52, R103). -/
theorem ChannelEffect.eq_or_absent_eq_false {s : State} {e : DevIx} {i : Instr} {D' : Device}
    (h : ChannelEffect s e i D') (hs : s.Inv) : D' = s.dev e ∨ s.initialized = true ∧ s.absent e = false := by
  cases h with
  | kept => exact .inl rfl
  | driven _ d level hg _ hd => exact .inr ⟨(ignores_eq_false.1 hg).1, hd.absent_eq_false hs hg⟩
  | _ => exact .inr (ignores_eq_false.1 ‹s.ignores e = false›)

/-- Settles O44: a channel that changes exists, and nothing writes the parameters or clears `initialized`. -/
theorem parametersAndAbsentChannelsKept : Obligations.ParametersAndAbsentChannelsKept := by
  intro i s t hs h
  refine ⟨exec_cfg h, exec_inputs h, fun hi => (exec_initialized h).elim (·.trans hi) id, fun e he => ?_⟩
  rcases (exec_channelEffect h e).eq_or_absent_eq_false hs with hk | ⟨-, ha⟩
  · exact hk
  · exact absurd (absent_eq_true.2 he) (by simp [ha])

/-! ## Every step keeps the invariant (R22, R26, R31, R37, R52, R100, R119) -/

/-- A CLEAR keeps its channel's invariant: PHASE goes whole or not at all, and the target goes with op.TX (R162). -/
theorem Device.Inv.clearChannel {c : Config} {D : Device} (h : D.Inv c) (stmask opmask ecmask : Byte) :
    (clearChannel stmask opmask ecmask D).Inv c := by
  have hs : legalState (D.state &&& ~~~clearMask stmask) = true := legalState_and _ _ h.state (clearMask_phase stmask)
  refine ⟨by rwa [clearChannel_state], fun ht => ?_, fun t ht => ?_, fun ho => ?_, by simpa using h.tx,
    by simpa using h.rx, by simpa using h.regs⟩
  · rw [clearChannel_targetDevice] at ht
    split at ht
    · exact absurd rfl ht
    · have ho : D.opTx = true := h.targetTx ht
      simp_all
  · rw [clearChannel_targetDevice] at ht
    split at ht
    · cases ht
    · exact h.targetIndex t ht
  · rw [Device.opTx_clearChannel, Bool.and_eq_true] at ho
    rw [clearChannel_txBuff]
    exact h.sent ho.1

/-- What an instruction does to a channel keeps that channel's invariant. -/
theorem ChannelEffect.inv {s : State} {e : DevIx} {i : Instr} {D' : Device} (h : ChannelEffect s e i D')
    (hc : s.cfg.ok = true) (hD : (s.dev e).Inv s.cfg) : D'.Inv s.cfg := by
  have hsize := Config.maxPayload_le_regSize hc
  cases h with
  | kept => exact hD
  | driven => exact hD.setCsOut _
  | transmitted target len dst rxreg rxlen opc data level hg hchk hlen =>
    obtain ⟨-, -, hpos, -, ht, -⟩ := checkTransmit_eq_none.1 hchk
    exact hD.startTransmit hpos hlen target (fun t h => absent_eq_false.1 (ht t h)) level
  | receiving => exact hD.startReceive
  | txHeader => exact ⟨hD.state, hD.targetTx, hD.targetIndex, hD.sent, hD.tx, hD.rx, hD.regs⟩
  | txPayload level =>
    obtain ⟨-, -, hcomplete, -⟩ := legalState_or _ hD.state
    exact hD.release _ _ hcomplete none (.inr rfl) ((s.dev e).op &&& 0b10#2) (by simp) nofun level
  | rxHeader bytes => exact hD.headerReceived bytes true
  | rxPayload bytes _ _ hl => exact hD.storePayload hsize hl
  | turnaround bytes len dst opc data _ _ _ hl hpos hlen =>
    exact (hD.storePayload hsize hl).startTransmit hpos hlen none nofun _
  | errored code => exact hD.setFlag maskErr (.inr (.inl rfl)) _
  | aborted => exact hD.setFlag maskAbt (.inr (.inr rfl)) _
  | selectedIdle => exact (hD.setFlag maskSel (.inl rfl) _).startReceive
  | selectedBusy => exact hD.setFlag maskSel (.inl rfl) _
  | deselected =>
    exact ⟨legalState_and _ _ hD.state (.inl rfl), hD.targetTx, hD.targetIndex, hD.sent, hD.tx, hD.rx, hD.regs⟩
  | cleared st opm ec level => exact (hD.clearChannel st opm ec).setCsOut level

/-- Every instruction keeps the invariant. -/
theorem exec_keeps_inv {i : Instr} {s t : State} (hs : s.Inv) (h : exec i s = .next t) : t.Inv := by
  have hcfg := exec_cfg h
  have hexists : ∀ e, t.absent e = false → s.absent e = false := fun e he => by
    rwa [absent_eq_false, hcfg, ← absent_eq_false] at he
  refine ⟨hcfg ▸ hs.cfg, fun e he => ?_, fun hi e he => ?_⟩
  · rw [hcfg]
    exact (exec_channelEffect h e).inv hs.cfg (hs.devs e (hexists e he))
  · have hi' : s.initialized = false := by
      rcases exec_initialized h with hk | hset
      · rw [← hk, hi]
      · rw [hset] at hi; cases hi
    rcases (exec_channelEffect h e).eq_or_absent_eq_false hs with hk | ⟨hset, -⟩
    · rw [hk, hcfg]
      exact hs.fresh hi' e (hexists e he)
    · rw [hset] at hi'; cases hi'

/-- The channels, the parameters and `initialized` are all the invariant speaks of. -/
theorem State.Inv.congr {s t : State} (hs : s.Inv) (hc : t.cfg = s.cfg) (hi : t.initialized = s.initialized)
    (hd : t.devs = s.devs) : t.Inv := by
  obtain ⟨c, ini, devs, links, und, inp, out⟩ := t
  subst hc hi hd
  exact ⟨hs.cfg, hs.devs, hs.fresh⟩

theorem runWord_keeps_inv {e : Encoded} {s t : State} (hs : s.Inv) (h : runWord e s = .next t) : t.Inv := by
  unfold runWord at h
  split at h
  · next i _ => exact exec_keeps_inv (hs.congr (s.delivered_cfg i) (s.delivered_initialized i) (s.delivered_devs i)) h
  · next err _ =>
    cases h
    cases err <;> exact hs.congr rfl rfl rfl

/-- A memory that lists the drawn bytes of a buffer is in canonical form and inside the buffer (R200, U1). -/
theorem legal_drawn (size : Nat) (bytes : List Byte) : (Mem.memWrite [] 0 size bytes).legal size = true := by
  rw [Mem.legal, Mem.wf_memWrite _ _ _ rfl, Mem.within_memWrite _ (by omega) rfl]
  rfl

/-- A channel right after reset meets its invariant, whatever was drawn (R200). -/
theorem deviceAtReset_inv (c : Config) (draw : ChannelDraw) : (deviceAtReset c draw).Inv c where
  state := show legalState 0 = true by decide
  targetTx := nofun
  targetIndex := nofun
  sent h := absurd h (show (0#2).getLsbD 0 ≠ true by decide)
  tx := legal_drawn _ _
  rx := legal_drawn _ _
  regs := legal_drawn _ _

theorem resetWith_inv {c : Config} (hc : c.ok = true) (draw : List ChannelDraw) : (State.resetWith c draw).Inv where
  cfg := hc
  devs d _ := by rw [State.dev_resetWith]; exact deviceAtReset_inv c _
  fresh _ d _ := by rw [State.dev_resetWith]; exact ⟨rfl, rfl, rfl, rfl, rfl, rfl, rfl⟩

/-- What taking an input comes to: a word runs, the word admitted if the input was; or a block reset; or a move of the
reference environment that adds undelivered events and changes nothing else. -/
theorem takeInput_cases {i : Input} {rest : List Input} {s t : State}
    (h : takeInput i { s with inputs := rest } = .next t) :
    (∃ e q, (admitInput i s = none → admitWord e s = none) ∧
        runWord e { s with inputs := rest, undelivered := q } = .next t) ∨
      (∃ draw, t = { s with inputs := rest }.blockReset draw) ∨
      ∃ q, t = { s with inputs := rest, undelivered := q } := by
  cases i with
  | command w data => exact .inl ⟨_, _, id, h⟩
  | event w data =>
    simp only [takeInput] at h
    split at h
    · refine .inl ⟨⟨.event, w, data⟩, _, fun ha => ?_, h⟩
      simp only [admitInput] at ha
      split at ha
      · cases ha
      · assumption
    · cases h
  | reset draw => cases h; exact .inr (.inl ⟨draw, rfl⟩)
  | pair c =>
    simp only [takeInput, pairTransfer] at h
    split at h
    · cases h
    · split at h
      · split at h <;> cases h
        exact .inr (.inr ⟨_, rfl⟩)
      · cases h
  | deliver k =>
    simp only [takeInput, deliverEvent] at h
    split at h
    · cases h
    · next e he =>
      split at h
      · cases h
      · refine .inl ⟨⟨.event, e.word, e.data⟩, _, fun ha => ?_, h⟩
        simp only [admitInput, he] at ha
        split at ha
        · cases ha
        · exact ha

/-- Settles O47: a word runs one instruction, a reset starts afresh, and the environment's moves touch no channel. -/
theorem stepKeepsInvariant : Obligations.StepKeepsInvariant := by
  intro s t hs h
  obtain ⟨hc, -, ⟨-, rfl⟩ | ⟨i, rest, -, ht⟩⟩ := step_eq_next h
  · exact hs
  · rcases takeInput_cases ht with ⟨e, q, -, hrun⟩ | ⟨draw, rfl⟩ | ⟨q, rfl⟩
    · have hs' : State.Inv { s with inputs := rest, undelivered := q } := hs.congr rfl rfl rfl
      exact runWord_keeps_inv hs' hrun
    · exact (resetWith_inv hc draw).congr rfl rfl rfl
    · exact hs.congr rfl rfl rfl

/-! ## An admitted step keeps the link in agreement with the block (R40, R186, R187, R190) -/

/-- The link's invariant from what a step did to each direction of each channel: it holds nothing there, or what it held
and the direction is as it was, or the direction is in flight. -/
theorem State.LinkInv.of_directions {s t : State} (hl : s.LinkInv) (hc : t.cfg = s.cfg)
    (hsend : ∀ e, (t.link e).send = none ∨
      ((t.link e).send = (s.link e).send ∧ (t.dev e).opTx = (s.dev e).opTx) ∨
      (s.absent e = false ∧ (t.dev e).opTx = true))
    (hrecv : ∀ e, (t.link e).recv = none ∨
      ((t.link e).recv = (s.link e).recv ∧ (t.dev e).opRx = (s.dev e).opRx ∧
        (t.dev e).expectedRx = (s.dev e).expectedRx) ∨
      (s.absent e = false ∧ (t.dev e).opRx = true ∧ (t.link e).recv = some (t.dev e).expectedRx)) : t.LinkInv := by
  intro e
  have ha : t.absent e = s.absent e := by simp only [State.absent, hc]
  obtain ⟨hs, hr⟩ := hl e
  rw [ha]
  refine ⟨fun h => ?_, fun n h => ?_⟩
  · rcases hsend e with hn | ⟨hk, ho⟩ | hf
    · rw [hn] at h; cases h
    · rw [ho]; exact hs (hk ▸ h)
    · exact hf
  · rcases hrecv e with hn | ⟨hk, ho, hx⟩ | ⟨hx, ho, hn⟩
    · rw [hn] at h; cases h
    · rw [ho, hx]; exact hr n (hk ▸ h)
    · exact ⟨hx, ho, Option.some.inj (h.symm.trans hn)⟩

/-- A change of one channel, where the link holds nothing or the direction stays as it was. -/
theorem State.LinkInv.modDev {s : State} (hl : s.LinkInv) {d : DevIx} {f : Device → Device}
    (htx : (s.link d).send = none ∨ (f (s.dev d)).opTx = (s.dev d).opTx)
    (hrx : (s.link d).recv = none ∨
      (f (s.dev d)).opRx = (s.dev d).opRx ∧ (f (s.dev d)).expectedRx = (s.dev d).expectedRx) :
    (s.modDev d f).LinkInv := by
  refine hl.of_directions rfl (fun e => ?_) (fun e => ?_) <;> rw [State.dev_modDev] <;> by_cases he : e = d
  · subst he; simpa using htx.imp id .inl
  · simp [he]
  · subst he; simpa using hrx.imp id .inl
  · simp [he]

/-- A send posted on a channel with op.TX set (R40 a). -/
theorem State.LinkInv.emit_linkSend {s : State} (hl : s.LinkInv) {d : DevIx} (bytes : List Byte)
    (ha : s.absent d = false) (ho : (s.dev d).opTx = true) : (s.emit (.linkSend d bytes)).LinkInv := by
  refine hl.of_directions (by simp) (fun e => ?_) (fun e => ?_) <;> by_cases he : e = d
  · subst he; simp [ha, ho]
  · simp [he]
  · subst he; simp
  · simp [he]

/-- A receive posted on a channel with op.RX set, of the length it waits for (R40 b). -/
theorem State.LinkInv.emit_linkRecv {s : State} (hl : s.LinkInv) {d : DevIx} {n : Nat}
    (ha : s.absent d = false) (ho : (s.dev d).opRx = true) (hn : n = (s.dev d).expectedRx) :
    (s.emit (.linkRecv d n)).LinkInv := by
  refine hl.of_directions (by simp) (fun e => ?_) (fun e => ?_) <;> by_cases he : e = d
  · subst he; simp
  · simp [he]
  · subst he; simp [ha, ho, hn]
  · simp [he]

/-- A response touches neither a direction nor a link operation. -/
theorem State.LinkInv.respond {s : State} (hl : s.LinkInv) (ok : Bool) (p : BitVec 63) (bytes : List Byte) :
    (s.respond ok p bytes).LinkInv := hl

/-- A receive armed on a channel where the link holds none (R113, R151). -/
theorem State.LinkInv.acceptReceive {s : State} (hl : s.LinkInv) {d : DevIx} (ha : s.absent d = false)
    (hr : (s.link d).recv = none) : (acceptReceive d s).LinkInv := by
  have hmod : (s.modDev d startReceive).LinkInv := hl.modDev (.inr (Device.opTx_startReceive _)) (.inl hr)
  exact hmod.emit_linkRecv ha (by simp) (by simp [Device.expectedRx, startReceive])

/-- An accepted TRANSMIT: the send it posts belongs to the op.TX it sets (R110). -/
theorem State.LinkInv.acceptTransmit {s : State} (hl : s.LinkInv) {d : DevIx} (ha : s.absent d = false)
    (target : Option DevIx) (len dst rxreg rxlen opc : Byte) (data : List Byte) :
    (acceptTransmit d target len dst rxreg rxlen opc data s).LinkInv := by
  have hdir := fun e => acceptTransmit_directions d e target len dst rxreg rxlen opc data s
  refine hl.of_directions (by simp) (fun e => ?_) fun e => .inr (.inl ⟨by simp, (hdir e).1, (hdir e).2.1⟩)
  rw [acceptTransmit_send, (hdir e).2.2]
  by_cases he : e = d
  · subst he; simp [ha]
  · simp [he]

/-- The link holds no receive of a channel with op.RX clear. -/
theorem State.LinkInv.recv_eq_none {s : State} (hl : s.LinkInv) {d : DevIx} (ho : (s.dev d).opRx = false) :
    (s.link d).recv = none := by
  refine Option.eq_none_iff_forall_not_mem.2 fun n hn => ?_
  have := ((hl d).2 n hn).2.1
  rw [ho] at this; cases this

/-- A transmit that has ended, where the link holds no send of its channel (R120). -/
theorem State.LinkInv.txPayloadDone {s : State} (hl : s.LinkInv) {d : DevIx} (hs : (s.link d).send = none) :
    (txPayloadDone d s).LinkInv := by
  refine hl.of_directions (by simp) (fun e => ?_) fun e => .inr (.inl ⟨by simp, ?_⟩) <;> by_cases he : e = d
  · subst he; exact .inl (by simpa using hs)
  · exact .inr (.inl (by simp [txPayloadDone_dev, he, Device.opTx]))
  · subst he; simp [txPayloadDone_dev, Device.opRx, Device.expectedRx, Device.setState, Device.clearTx]
  · simp [txPayloadDone_dev, he, Device.opRx, Device.expectedRx]

/-- A CLEAR of directions of which the link holds no operation (R162, R190). -/
theorem State.LinkInv.clear {s : State} (hl : s.LinkInv) {d : DevIx} {opmask : Byte} (stmask ecmask : Byte)
    (hs : opmask.getLsbD 0 = true → (s.link d).send = none)
    (hr : opmask.getLsbD 1 = true → (s.link d).recv = none) :
    (clearOpRx d opmask (clearOpTx d opmask (s.modDev d (clearBits stmask ecmask)))).LinkInv := by
  have hdir := fun e => clear_directions s d e stmask opmask ecmask
  refine hl.of_directions (by simp) (fun e => ?_) (fun e => ?_) <;>
    obtain ⟨hsend, hrecv, -, hexp, htx, hrx⟩ := hdir e
  · by_cases hk : e ≠ d ∨ opmask.getLsbD 0 = false
    · exact .inr (.inl ⟨hsend, htx hk⟩)
    · rw [not_or, not_not, Bool.not_eq_false] at hk
      exact .inl (hsend.trans (hk.1 ▸ hs hk.2))
  · by_cases hk : e ≠ d ∨ opmask.getLsbD 1 = false
    · exact .inr (.inl ⟨hrecv, hrx hk, hexp⟩)
    · rw [not_or, not_not, Bool.not_eq_false] at hk
      exact .inl (hrecv.trans (hk.1 ▸ hr hk.2))

/-- What the contracts leave of the link when an instruction is handled: a completion has ended its operation, and a
CLEAR finds none in a direction it clears (R187, R190). -/
def LinkReady (s : State) : Instr → Prop
  | .evTxdone d => (s.link d).send = none
  | .evRxdone d _ => (s.link d).recv = none
  | .clear d _ opmask _ =>
    (opmask.getLsbD 0 = true → (s.link d).send = none) ∧ (opmask.getLsbD 1 = true → (s.link d).recv = none)
  | .init | .isInit | .lookup _ | .transmit .. | .receive _ | .status _ | .regread .. | .evError .. | .evAbort _
  | .evCsfall _ | .evCsrise _ => True

/-- The admission check asks for no less (log entry 8). -/
theorem linkReady_of_admitted {i : Instr} {s : State} (h : admitInstr i s = none) : LinkReady (s.delivered i) i := by
  cases i with
  | evTxdone d => exact s.delivered_evTxdone d
  | evRxdone d bytes => exact s.delivered_evRxdone d bytes
  | clear d stmask opmask ecmask =>
    simp only [admitInstr] at h
    split at h
    · cases h
    · next hfree =>
      simp at hfree
      show (_ → (s.link d).send = none) ∧ (_ → (s.link d).recv = none)
      simpa using hfree
  | _ => trivial

/-- Every instruction that finds the link ready keeps the link's invariant. -/
theorem exec_keeps_linkInv {i : Instr} {s t : State} (hl : s.LinkInv) (hready : LinkReady s i)
    (h : exec i s = .next t) : t.LinkInv := by
  cases exec_effect h with
  | ignored => exact hl
  | answered _ ok p bs => exact hl.respond ok p bs
  | initialised => exact hl
  | transmitted d target len dst rxreg rxlen opc data hc =>
    obtain ⟨-, ha, -⟩ := checkTransmit_eq_none.1 hc
    exact (hl.acceptTransmit ha target len dst rxreg rxlen opc data).respond true 0 []
  | receiving d hc =>
    obtain ⟨-, ha, ho⟩ := checkReceive_eq_none.1 hc
    exact (hl.acceptReceive ha (hl.recv_eq_none ho)).respond true 0 []
  | txHeader d hi ha ho hp hlen =>
    have hmod : (s.modDev d fun D => { D with txPos := true }).LinkInv := hl.modDev (.inr rfl) (.inr ⟨rfl, rfl⟩)
    exact hmod.emit_linkSend _ ha (by simpa [Device.opTx] using ho)
  | txPayload d => exact hl.txPayloadDone hready
  | rxHeader d bytes hi ha ho hp hlen =>
    have hmod : (s.modDev d fun D =>
        { D with rxBuff := D.rxBuff.memWrite 0 hdrLen bytes, rxPos := true }).LinkInv :=
      hl.modDev (.inr rfl) (.inl hready)
    exact hmod.emit_linkRecv ha (by simpa [Device.opRx] using ho) (by simp [Device.expectedRx])
  | rxPayload d bytes hi ha ho hp hlen =>
    have hmod : (s.modDev d (storePayload s.cfg bytes)).LinkInv :=
      hl.modDev (.inr (Device.opTx_storePayload ..)) (.inl hready)
    rcases turnaround_cases d (s.modDev d (storePayload s.cfg bytes)) with ht | ⟨m, q, data, -, -, -, ht⟩ <;>
      rw [rxPayloadDone, ht]
    · exact hmod
    · exact hmod.acceptTransmit ha none m q 0 0 _ data
  | errored | aborted | selectedBusy | deselected => exact hl.modDev (.inr rfl) (.inr ⟨rfl, rfl⟩)
  | selectedIdle d hi ha ho =>
    have hmod : (s.modDev d fun D => D.setState maskSel).LinkInv := hl.modDev (.inr rfl) (.inr ⟨rfl, rfl⟩)
    exact hmod.acceptReceive ha (hl.recv_eq_none (by simp [Device.opRx, ho]))
  | cleared d stmask opmask ecmask => exact (hl.clear stmask ecmask hready.1 hready.2).respond true 0 []

theorem admitWord_eq_none {e : Encoded} {s : State} (h : admitWord e s = none) :
    ∃ i, decode e = .ok i ∧ admitInstr i s = none := by
  unfold admitWord at h
  split at h
  · cases h
  · next i hd =>
    split at h
    · exact ⟨i, hd, h⟩
    · cases h

/-- A step that keeps the contracts takes its input after the admission check has passed it. -/
theorem stepAdmitted_eq_next {s t : State} (h : stepAdmitted s = .next t) :
    t = s ∨ ∃ i rest, admitInput i s = none ∧ takeInput i { s with inputs := rest } = .next t := by
  unfold stepAdmitted at h
  split at h
  · cases h
  · next hadm =>
    obtain ⟨-, -, ⟨-, ht⟩ | ⟨i, rest, hi, ht⟩⟩ := step_eq_next h
    · exact .inl ht
    · exact .inr ⟨i, rest, by simpa [hi] using hadm, ht⟩

/-- Settles O49: an admitted word finds the link ready, and a reset leaves the link with nothing. -/
theorem admittedStepKeepsLinkInvariant : Obligations.AdmittedStepKeepsLinkInvariant := by
  intro s t hl h
  rcases stepAdmitted_eq_next h with rfl | ⟨i, rest, hadm, ht⟩
  · exact hl
  rcases takeInput_cases ht with ⟨e, q, hword, hrun⟩ | ⟨draw, rfl⟩ | ⟨q, rfl⟩
  · obtain ⟨instr, hd, ha⟩ := admitWord_eq_none (hword hadm)
    have hl' : State.LinkInv { s with inputs := rest, undelivered := q } := hl
    rw [runWord_of_decode _ hd] at hrun
    exact exec_keeps_linkInv (hl'.delivered instr) (linkReady_of_admitted ha) hrun
  · intro d
    have hlink : (State.blockReset { s with inputs := rest } draw).link d = linkAtReset s.cfg :=
      State.link_resetWith s.cfg draw d
    rw [hlink]
    exact ⟨nofun, nofun⟩
  · exact hl

end Sys2Proof.Machine
end

section
/-! SUPPORT. The memories (20_memory.md): a canonical memory is told by what it reads, no read leaves its buffer, what
the completion events post, and the order in which edges are delivered. -/

namespace Sys2Proof.Machine

/-! ## Memories that read alike (R50 to R52) -/

theorem Mem.read_head (k : Nat) (b : Byte) (m : Mem) : Mem.read ((k, b) :: m) k = b := by
  rw [Mem.read_cell, if_pos rfl]

/-- The head of a canonical memory is the first offset that reads as listed. -/
theorem Mem.head_le_of_read_ne {k a : Nat} {b : Byte} {m : Mem} (h : Mem.wf ((k, b) :: m) = true)
    (hr : Mem.read ((k, b) :: m) a ≠ memBackground) : k ≤ a := by
  obtain ⟨-, hlt, -⟩ := Mem.wf_tail h
  by_contra hak
  have hbelow : ∀ c ∈ (k, b) :: m, a < c.1 :=
    List.forall_mem_cons.2 ⟨Nat.lt_of_not_le hak, fun c hc => lt_trans (Nat.lt_of_not_le hak) (hlt c hc)⟩
  exact hr (Mem.read_below hbelow)

/-- The tail of a canonical memory reads as the whole does, but for the head's offset. -/
theorem Mem.read_tail {k : Nat} {b : Byte} {m : Mem} (h : Mem.wf ((k, b) :: m) = true) (a : Nat) :
    m.read a = if k = a then memBackground else Mem.read ((k, b) :: m) a := by
  obtain ⟨-, hlt, -⟩ := Mem.wf_tail h
  split
  · next hka => subst hka; exact Mem.read_below hlt
  · next hka => rw [Mem.read_cell, if_neg hka]

/-- Settles O53: the heads agree, since each is the first offset that reads as listed; then so do the tails. -/
theorem memoriesThatReadAlikeAreEqual : Obligations.MemoriesThatReadAlikeAreEqual := by
  intro m
  induction m with
  | nil =>
    rintro (_ | ⟨⟨k, b⟩, m'⟩) - hwf' hread
    · rfl
    · exact absurd ((hread k).trans (Mem.read_head k b m')).symm (Mem.wf_tail hwf').1
  | cons c m ih =>
    obtain ⟨k, b⟩ := c
    rintro (_ | ⟨⟨k', b'⟩, m'⟩) hwf hwf' hread
    · exact absurd ((Mem.read_head k b m).symm.trans (hread k)) (Mem.wf_tail hwf).1
    · obtain ⟨hb, -, hm⟩ := Mem.wf_tail hwf
      obtain ⟨hb', -, hm'⟩ := Mem.wf_tail hwf'
      have hle : k' ≤ k := Mem.head_le_of_read_ne hwf' (by rwa [← hread, Mem.read_head])
      have hge : k ≤ k' := Mem.head_le_of_read_ne hwf (by rwa [hread, Mem.read_head])
      obtain rfl : k = k' := le_antisymm hge hle
      have hbb : b = b' := by simpa only [Mem.read_head] using hread k
      have htails : ∀ a, Mem.read m a = Mem.read m' a := fun a => by
        rw [Mem.read_tail hwf, Mem.read_tail hwf', hread]
      rw [hbb, ih m' hm hm' htails]

/-! ## Reads stay inside the buffer (R52, R119) -/

/-- TxHeaderDone takes a next state exactly when the payload lies inside the buffer. -/
theorem txHeaderDone_eq (d : DevIx) (s : State) :
    txHeaderDone d s =
      if hdrLen + sentLen (s.dev d).txBuff ≤ bufLen then
        .next ((s.modDev d fun D => { D with txPos := true }).emit
          (.linkSend d ((s.dev d).txBuff.memRead hdrLen (sentLen (s.dev d).txBuff))))
      else .fault .pastBuffer := by
  simp only [txHeaderDone, State.dev_modDev, if_true]

/-- An EV_TXDONE that is handled, in the header phase. -/
theorem exec_evTxdone_header {s : State} {d : DevIx} (hg : s.ignores d = false) (ho : (s.dev d).opTx = true)
    (hp : (s.dev d).txPos = false) : exec (.evTxdone d) s = txHeaderDone d s := by
  simp [exec, execEvTxdone, hg, ho, hp]

/-- Settles O19: 8 bytes of header and a payload above 64 are more than the 72 bytes of tx_buff. -/
theorem txHeaderDonePastBufferFaults : Obligations.TxHeaderDonePastBufferFaults := by
  intro s d hi hd ho hp hlen
  have hpast : ¬ hdrLen + sentLen (s.dev d).txBuff ≤ bufLen := by
    simp only [hdrLen, bufLen, maxPayload, sentLen]; omega
  rw [exec_evTxdone_header (ignores_eq_false.2 ⟨hi, absent_eq_false.2 hd⟩) ho hp, txHeaderDone_eq, if_neg hpast]

/-- The one fault of an instruction: an EV_TXDONE of a transmit whose payload lies past tx_buff. -/
theorem exec_eq_fault {i : Instr} {s : State} {f : Fault} (h : exec i s = .fault f) :
    f = .pastBuffer ∧ ∃ d, i = .evTxdone d ∧ s.absent d = false ∧ (s.dev d).opTx = true ∧
      ¬ hdrLen + sentLen (s.dev d).txBuff ≤ bufLen := by
  cases i with
  | evTxdone d =>
    simp only [exec, execEvTxdone, txHeaderDone_eq] at h
    split at h
    · cases h
    · next hg =>
      obtain ⟨-, ha⟩ := ignores_eq_false.1 (Bool.eq_false_of_not_eq_true hg)
      split at h
      · cases h
      · next ho =>
        split at h
        · split at h
          · cases h
          · next hlen => cases h; exact ⟨rfl, d, rfl, ha, Bool.eq_true_of_not_eq_false ho, hlen⟩
        · cases h
  | init | isInit => cases h
  | lookup id =>
    simp only [exec, execLookup] at h
    split at h
    · cases h
    · split at h <;> cases h
  | transmit d target len dst rxreg rxlen opc data =>
    simp only [exec, execTransmit] at h
    split at h
    · cases h
    · split at h <;> cases h
  | receive | status | regread | clear =>
    simp only [exec, execReceive, execStatus, execRegread, execClear] at h
    split at h <;> cases h
  | evRxdone d bytes =>
    simp only [exec, execEvRxdone] at h
    repeat' split at h
    all_goals cases h
  | evError | evAbort | evCsrise =>
    simp only [exec, execEvError, execEvAbort, execEvCsrise] at h
    split at h <;> cases h
  | evCsfall d =>
    simp only [exec, execEvCsfall] at h
    split at h
    · cases h
    · split at h <;> cases h

/-- In a state with the invariant no instruction faults: the length byte in tx_buff is at most 64 (R75, R119). -/
theorem State.Inv.exec_ne_fault {s : State} (hs : s.Inv) (i : Instr) (f : Fault) : exec i s ≠ .fault f := by
  intro h
  obtain ⟨-, d, -, ha, ho, hpast⟩ := exec_eq_fault h
  obtain ⟨-, hle⟩ := (hs.devs d ha).sent ho
  exact hpast (Nat.add_le_add_left hle hdrLen)

theorem State.Inv.runWord_ne_fault {s : State} (hs : s.Inv) (e : Encoded) (f : Fault) : runWord e s ≠ .fault f := by
  unfold runWord
  split
  · next i _ =>
    exact (hs.congr (s.delivered_cfg i) (s.delivered_initialized i) (s.delivered_devs i)).exec_ne_fault i f
  · nofun

/-- A block reset and a pairing never fault, and the other inputs run a word. -/
theorem State.Inv.takeInput_ne_fault {s : State} (hs : s.Inv) (i : Input) (f : Fault) :
    takeInput i s ≠ .fault f := by
  cases i with
  | command w data => exact hs.runWord_ne_fault _ f
  | event w data =>
    simp only [takeInput]
    split
    · exact hs.runWord_ne_fault _ f
    · nofun
  | reset draw => nofun
  | pair c =>
    simp only [takeInput, pairTransfer]
    repeat' split
    all_goals nofun
  | deliver k =>
    simp only [takeInput, deliverEvent]
    split
    · nofun
    · split
      · nofun
      · have hs' : State.Inv { s with undelivered := s.undelivered.eraseIdx k } := hs.congr rfl rfl rfl
        exact hs'.runWord_ne_fault _ f

theorem Config.nDev_le {c : Config} (hc : c.ok = true) : c.nDev ≤ 16 := by
  simp only [Config.ok, Bool.and_eq_true, decide_eq_true_eq] at hc
  omega

/-- A machine with the invariant shows no model error (R22, R26). -/
theorem State.Inv.modelError_eq_none {s : State} (hs : s.Inv) : s.modelError = none := by
  refine (Machine.modelError_eq_none (Config.nDev_le hs.cfg)).2 fun d hd => ?_
  simpa [legalState] using (hs.devs d hd).state

/-- Settles O48: neither the test of the status words nor the input taken faults. -/
theorem stepNeverFaults : Obligations.StepNeverFaults := by
  intro s f hs
  cases hi : s.inputs with
  | nil => rw [step_of_inputs_nil hs.cfg hs.modelError_eq_none hi]; nofun
  | cons i rest =>
    rw [step_of_inputs_cons hs.cfg hs.modelError_eq_none hi]
    have hs' : State.Inv { s with inputs := rest } := hs.congr rfl rfl rfl
    exact hs'.takeInput_ne_fault i f

/-! ## What a completion puts out (R59, R124) -/

/-- From `s` to `t` at most one output action is put out, and nothing else. -/
def EmitsAtMostOne (s t : State) : Prop := t.outputs = s.outputs ∨ ∃ a, t.outputs = s.outputs ++ [.action a]

theorem EmitsAtMostOne.posts {s t : State} (h : EmitsAtMostOne s t) :
    ∃ new, t.outputs = s.outputs ++ new ∧ (linkPosts new).length ≤ 1 ∧ responses new = [] := by
  rcases h with h | ⟨a, h⟩
  · exact ⟨[], by rw [h, List.append_nil], Nat.zero_le 1, rfl⟩
  · exact ⟨[.action a], h, List.length_filter_le _ _, rfl⟩

/-- A transmit completion posts the payload, or deselects a recorded target (R119, R120). -/
theorem exec_evTxdone_emitsAtMostOne {s t : State} {d : DevIx} (h : exec (.evTxdone d) s = .next t) :
    EmitsAtMostOne s t := by
  cases exec_effect h with
  | ignored => exact .inl rfl
  | answered _ _ _ _ hc => cases hc
  | txHeader => exact .inr ⟨_, rfl⟩
  | txPayload =>
    cases hx : (s.dev d).targetDevice with
    | none => exact .inl (by simp [txPayloadDone, hx])
    | some x => exact .inr ⟨.csDrive x true, by simp [txPayloadDone, hx]⟩

/-- A receive completion posts the receive of the payload, or the header of the reply it starts (R121 to R123). -/
theorem exec_evRxdone_emitsAtMostOne {s t : State} {d : DevIx} {bytes : List Byte}
    (h : exec (.evRxdone d bytes) s = .next t) : EmitsAtMostOne s t := by
  cases exec_effect h with
  | ignored => exact .inl rfl
  | answered _ _ _ _ hc => cases hc
  | rxHeader => exact .inr ⟨_, rfl⟩
  | rxPayload =>
    rw [rxPayloadDone]
    rcases turnaround_cases d (s.modDev d (storePayload s.cfg bytes)) with ht | ⟨m, q, data, -, -, -, ht⟩ <;> rw [ht]
    · exact .inl rfl
    · exact .inr ⟨_, rfl⟩

/-- Settles O28: a completion puts out at most one action, whatever it is. -/
theorem completionPostsAtMostOne : Obligations.CompletionPostsAtMostOne := by
  rintro s t d bytes (h | h)
  · exact (exec_evTxdone_emitsAtMostOne h).posts
  · exact (exec_evRxdone_emitsAtMostOne h).posts

/-! ## The order of the edges (R60, R178, R189) -/

theorem isEdge_of_decode {e : Event} {d : DevIx}
    (h : decode ⟨.event, e.word, e.data⟩ = .ok (.evCsfall d) ∨ decode ⟨.event, e.word, e.data⟩ = .ok (.evCsrise d)) :
    isEdge e = true := by
  have hcode : (fieldCode e.word).toNat = 5 ∨ (fieldCode e.word).toNat = 6 := by
    simp only [decode, decodeEvent] at h
    split at h <;> simp_all
  simpa [isEdge, ← BitVec.toNat_inj] using hcode

theorem overtakesEdge_of_edges {s : State} {j k : Nat} {e e' : Event} (hj : s.undelivered[j]? = some e') (hjk : j < k)
    (he : isEdge e = true) (he' : isEdge e' = true) : s.overtakesEdge k e = true := by
  have hmem : e' ∈ s.undelivered.take k := List.mem_of_getElem? (by rwa [List.getElem?_take_of_lt hjk])
  rw [State.overtakesEdge, he, Bool.true_and, List.any_eq_true]
  exact ⟨e', hmem, he'⟩

/-- Settles O56: the earlier edge is among the events that the later one would overtake. -/
theorem edgesKeepTheOrderOfTheDrives : Obligations.EdgesKeepTheOrderOfTheDrives := by
  intro s j k e e' d d' hj hk hjk he he'
  have hover := overtakesEdge_of_edges hj hjk (isEdge_of_decode he) (isEdge_of_decode he')
  simp only [takeInput, deliverEvent, hk, hover, if_true]

end Sys2Proof.Machine
end

section
/-! SUPPORT. The encoding (30_encoding.md R70 to R83): the fields of an encoded word, decoding what was encoded, the
bits and codes that name nothing, and the packet header. -/

namespace Sys2Proof

/-! ## The fields of an encoded word (R78, R80) -/

/-- The code of an encoded word is that of its row of the opcode table (R79, R81). -/
theorem fieldCode_encode (i : Instr) : fieldCode (encode i).word = (Laws.opcodeRow i).2 := by
  have h : Laws.OpcodeField.Statement i := by
    cases i with
    | init => exact Laws.OpcodeField.init
    | isInit => exact Laws.OpcodeField.isInit
    | lookup => exact Laws.OpcodeField.lookup ..
    | transmit => exact Laws.OpcodeField.transmit ..
    | receive => exact Laws.OpcodeField.receive ..
    | status => exact Laws.OpcodeField.status ..
    | regread => exact Laws.OpcodeField.regread ..
    | clear => exact Laws.OpcodeField.clear ..
    | evTxdone => exact Laws.OpcodeField.evTxdone ..
    | evRxdone => exact Laws.OpcodeField.evRxdone ..
    | evError => exact Laws.OpcodeField.evError ..
    | evAbort => exact Laws.OpcodeField.evAbort ..
    | evCsfall => exact Laws.OpcodeField.evCsfall ..
    | evCsrise => exact Laws.OpcodeField.evCsrise ..
  exact congrArg Prod.snd h

theorem fieldId_lookupWord (id : BitVec 32) : fieldId (lookupWord id) = id := by
  simp (disch := omega) [fieldId, lookupWord, BitVec.extractLsb'_or, extract_place_same, extract_place_disjoint]

/-- Each operand of a TRANSMIT is read back from its word, the target as TGT and TGTV. -/
theorem fields_transmitWord {dev : DevIx} {target : Option DevIx} {len dst rxreg rxlen opc : Byte} {w : Word}
    (hw : w = transmitWord dev target len dst rxreg rxlen opc) :
    fieldDev w = dev ∧ fieldTgt w = target.getD 0 ∧ fieldTgtv w = target.isSome ∧ fieldByte2 w = len ∧
      fieldByte3 w = dst ∧ fieldByte4 w = rxreg ∧ fieldByte5 w = rxlen ∧ fieldByte6 w = opc := by
  subst hw
  simp (disch := omega) [fieldDev, fieldTgt, fieldTgtv, fieldByte2, fieldByte3, fieldByte4, fieldByte5, fieldByte6,
    transmitWord, BitVec.extractLsb'_or, extract_place_same, extract_place_disjoint, getElem_place_same,
    getElem_place_disjoint]

theorem fields_regreadWord (dev : DevIx) (reg : Byte) :
    fieldDev (regreadWord dev reg) = dev ∧ fieldByte3 (regreadWord dev reg) = reg := by
  simp (disch := omega) [fieldDev, fieldByte3, regreadWord, BitVec.extractLsb'_or, extract_place_same,
    extract_place_disjoint]

theorem fields_clearWord (dev : DevIx) (stmask opmask ecmask : Byte) :
    fieldDev (clearWord dev stmask opmask ecmask) = dev ∧ fieldByte2 (clearWord dev stmask opmask ecmask) = stmask ∧
      fieldByte3 (clearWord dev stmask opmask ecmask) = opmask ∧
      fieldByte4 (clearWord dev stmask opmask ecmask) = ecmask := by
  simp (disch := omega) [fieldDev, fieldByte2, fieldByte3, fieldByte4, clearWord, BitVec.extractLsb'_or,
    extract_place_same, extract_place_disjoint]

theorem fields_errorWord (dev : DevIx) (code : Byte) :
    fieldDev (errorWord dev code) = dev ∧ fieldErrCode (errorWord dev code) = code := by
  simp (disch := omega) [fieldDev, fieldErrCode, errorWord, BitVec.extractLsb'_or, extract_place_same,
    extract_place_disjoint]

/-! ## Decoding what was encoded (R78 to R81) -/

theorem decode_encode (i : Instr) : decode (encode i) = .ok i := by
  cases i with
  | init => rfl
  | isInit => rfl
  | lookup id =>
    have hcode : fieldCode (lookupWord id) = 3 := fieldCode_encode (.lookup id)
    simp [decode, encode, decodeCommand, hcode, fieldId_lookupWord]
  | transmit dev target len dst rxreg rxlen opc data =>
    have hcode : fieldCode (transmitWord dev target len dst rxreg rxlen opc) = 4 :=
      fieldCode_encode (.transmit dev target len dst rxreg rxlen opc data)
    cases target <;> simp [decode, encode, decodeCommand, hcode, fields_transmitWord rfl]
  | receive dev => simp [decode, encode, decodeCommand, fieldCode_devWord, fieldDev_devWord]
  | status dev => simp [decode, encode, decodeCommand, fieldCode_devWord, fieldDev_devWord]
  | regread dev reg =>
    have hcode : fieldCode (regreadWord dev reg) = 7 := fieldCode_encode (.regread dev reg)
    simp [decode, encode, decodeCommand, hcode, fields_regreadWord]
  | clear dev stmask opmask ecmask =>
    have hcode : fieldCode (clearWord dev stmask opmask ecmask) = 8 :=
      fieldCode_encode (.clear dev stmask opmask ecmask)
    simp [decode, encode, decodeCommand, hcode, fields_clearWord]
  | evTxdone dev => simp [decode, encode, decodeEvent, fieldCode_devWord, fieldDev_devWord]
  | evRxdone dev bytes => simp [decode, encode, decodeEvent, fieldCode_devWord, fieldDev_devWord]
  | evError dev code =>
    have hcode : fieldCode (errorWord dev code) = 3 := fieldCode_encode (.evError dev code)
    simp [decode, encode, decodeEvent, hcode, fields_errorWord]
  | evAbort dev => simp [decode, encode, decodeEvent, fieldCode_devWord, fieldDev_devWord]
  | evCsfall dev => simp [decode, encode, decodeEvent, fieldCode_devWord, fieldDev_devWord]
  | evCsrise dev => simp [decode, encode, decodeEvent, fieldCode_devWord, fieldDev_devWord]

/-- Settles O1: the code of an encoded word selects its instruction, and every field reads back as its operand. -/
theorem decodeOfEncodeIsIdentity : Obligations.DecodeOfEncodeIsIdentity := decode_encode

/-! ## Bits no instruction uses (R78, R80, U13) -/

/-- A field that lies in the bits a mask keeps has no bit outside them. -/
theorem place_and_not_eq_zero {n : Nat} {k : Nat} {v : BitVec n} {mask : Word}
    (h : mask.extractLsb' k n = BitVec.allOnes n) : place k v &&& ~~~mask = 0#64 := by
  refine place_and_eq_zero k v _ fun j hj => ?_
  have hbit : mask.getLsbD (k + j) = true := by
    simpa [hj] using congrArg (fun x : BitVec n => x.getLsbD j) h
  simp [hbit]

/-- An encoded word has every reserved bit and every unused field 0. -/
theorem encode_word_and_not_usedBits (i : Instr) : (encode i).word &&& ~~~usedBits i = 0#64 := by
  cases i with
  | transmit dev target len dst rxreg rxlen opc data =>
    cases target with
    | none =>
      have htgt : place 8 ((none : Option DevIx).getD 0) = 0#64 := by decide
      simp (disch := decide) only [encode, transmitWord, usedBits, htgt, BitVec.and_or_distrib_right,
        place_and_not_eq_zero, BitVec.or_zero]
    | some t =>
      simp (disch := decide) only [encode, transmitWord, usedBits, Option.isSome_some, if_true,
        BitVec.and_or_distrib_right, place_and_not_eq_zero, BitVec.or_zero]
  | _ =>
    simp (disch := decide) only [encode, bareWord, devWord, lookupWord, regreadWord, clearWord, errorWord, usedBits,
      BitVec.and_or_distrib_right, place_and_not_eq_zero, BitVec.or_zero]

/-- Every instruction uses its code. -/
theorem extract_code_usedBits (i : Instr) : (usedBits i).extractLsb' 0 4 = BitVec.allOnes 4 := by
  cases i with
  | transmit => simp only [usedBits]; split <;> decide
  | _ => simp only [usedBits]; decide

theorem decodeCommand_eq_of_usedBits {w w' : Word} {data : List Byte} {i : Instr}
    (hd : decodeCommand w data = .ok i) (hw : w' &&& usedBits i = w &&& usedBits i) :
    decodeCommand w' data = .ok i := by
  have hcode : fieldCode w' = fieldCode w := extract_eq_of_mask hw (extract_code_usedBits i)
  simp only [decodeCommand, hcode] at hd ⊢
  split at hd <;> cases hd
  case h_4 =>
    cases htgtv : fieldTgtv w with
    | false =>
      simp only [htgtv, usedBits, Bool.false_eq_true, if_false, Option.isSome_none] at hw
      have htgtv' : fieldTgtv w' = false := (getLsbD_eq_of_mask hw (by decide)).trans htgtv
      simp (disch := decide) only [htgtv', Bool.false_eq_true, if_false, fieldDev, fieldByte2, fieldByte3, fieldByte4,
        fieldByte5, fieldByte6, extract_eq_of_mask hw]
    | true =>
      simp only [htgtv, usedBits, if_true, Option.isSome_some] at hw
      have htgtv' : fieldTgtv w' = true := (getLsbD_eq_of_mask hw (by decide)).trans htgtv
      simp (disch := decide) only [htgtv', if_true, fieldDev, fieldTgt, fieldByte2, fieldByte3, fieldByte4,
        fieldByte5, fieldByte6, extract_eq_of_mask hw]
  all_goals
    simp only [usedBits] at hw
    simp (disch := decide) only [fieldDev, fieldId, fieldByte2, fieldByte3, fieldByte4, extract_eq_of_mask hw]

theorem decodeEvent_eq_of_usedBits {w w' : Word} {data : List Byte} {i : Instr}
    (hd : decodeEvent w data = .ok i) (hw : w' &&& usedBits i = w &&& usedBits i) :
    decodeEvent w' data = .ok i := by
  have hcode : fieldCode w' = fieldCode w := extract_eq_of_mask hw (extract_code_usedBits i)
  simp only [decodeEvent, hcode] at hd ⊢
  split at hd <;> cases hd <;> simp only [usedBits] at hw <;>
    simp (disch := decide) only [fieldDev, fieldErrCode, extract_eq_of_mask hw]

/-- The decoder reads no bit that the instruction it finds does not use. -/
theorem decode_eq_of_usedBits {p : Port} {w w' : Word} {data : List Byte} {i : Instr}
    (hd : decode ⟨p, w, data⟩ = .ok i) (hw : w' &&& usedBits i = w &&& usedBits i) :
    decode ⟨p, w', data⟩ = .ok i := by
  cases p with
  | command => exact decodeCommand_eq_of_usedBits hd hw
  | event => exact decodeEvent_eq_of_usedBits hd hw

/-! ## Reserved codes (R79, R81, R83) -/

theorem decodeCommand_reserved {w : Word} (data : List Byte)
    (h : (fieldCode w).toNat = 0 ∨ 9 ≤ (fieldCode w).toNat) :
    decodeCommand w data = .error (.reservedCommand (fieldCode w)) := by
  unfold decodeCommand
  split
  case h_9 => rfl
  all_goals omega

theorem decodeEvent_reserved {w : Word} (data : List Byte)
    (h : (fieldCode w).toNat = 0 ∨ 7 ≤ (fieldCode w).toNat) :
    decodeEvent w data = .error (.reservedEvent (fieldCode w)) := by
  unfold decodeEvent
  split
  case h_7 => rfl
  all_goals omega

end Sys2Proof

namespace Sys2Proof.Machine

theorem takeInput_command_reserved {w : Word} {data : List Byte} {err : DecodeError} (s : State)
    (hd : decode ⟨.command, w, data⟩ = .error err) : takeInput (.command w data) s = .next (reservedCode err s) := by
  simp [takeInput, runWord, hd]

theorem takeInput_event_reserved {w : Word} {data : List Byte} {err : DecodeError} (s : State)
    (hd : decode ⟨.event, w, data⟩ = .error err) : takeInput (.event w data) s = .next (reservedCode err s) := by
  simp [takeInput, State.mayArriveWord, runWord, hd]

/-- Settles O4: the decoder's last case is every reserved code, and the bits it reads are bits the instruction uses. -/
theorem reservedCodesAndBits : Obligations.ReservedCodesAndBits := by
  intro s w data rest hc hm
  refine ⟨fun hcode => ?_, fun hcode => ?_, fun p i w' => decode_eq_of_usedBits⟩
  · have hd : decode ⟨.command, w, data⟩ = .error (.reservedCommand (fieldCode w)) := decodeCommand_reserved data hcode
    refine ⟨hd, fun hi => ?_⟩
    rw [step_of_inputs_cons hc hm hi, takeInput_command_reserved _ hd]
    simp [reservedCode, State.respond]
  · have hd : decode ⟨.event, w, data⟩ = .error (.reservedEvent (fieldCode w)) := decodeEvent_reserved data hcode
    refine ⟨hd, fun hi => ?_⟩
    rw [step_of_inputs_cons hc hm hi, takeInput_event_reserved _ hd, reservedCode]

/-! ## The packet header (R70, R75 to R77) -/

/-- A received header is read back byte by byte. -/
theorem read_memWrite_header {rx : Mem} (hrx : rx.wf = true) (opc dst len rxreg rxlen : Byte) {a : Nat} (ha : a < 8) :
    (rx.memWrite 0 8 (headerBytes opc dst len rxreg rxlen)).read a =
      (headerBytes opc dst len rxreg rxlen).getD a 0 := by
  rw [Mem.read_memWrite 0 8 _ hrx (by simp), if_pos (by omega), Nat.sub_zero]

/-- The fields of a received header, the lengths clamped once by the encoder and again, without effect, by the reader
(R76). -/
theorem hdr_fields_of_header {rx : Mem} (hrx : rx.wf = true) (opc dst len rxreg rxlen : Byte) {rx' : Mem}
    (h : rx' = rx.memWrite 0 8 (headerBytes opc dst len rxreg rxlen)) :
    hdrOpcode rx' = opc ∧ hdrTxReg rx' = dst ∧ hdrTxLen rx' = clampLen len ∧ hdrRxReg rx' = rxreg ∧
      hdrRxLen rx' = clampLen rxlen := by
  subst h
  simp (disch := decide) only [hdrOpcode, hdrTxReg, hdrTxLen, hdrRxReg, hdrRxLen, read_memWrite_header hrx]
  simp [headerBytes, clampLen_clampLen]

/-- Settles O26: the wire carries the header bytes, from which every field is read back. -/
theorem headerRoundTrips : Obligations.HeaderRoundTrips := by
  intro tx rx opc dst len rxreg rxlen data htx hrx hdata
  have hwire : (encodePacket tx opc dst len rxreg rxlen data).memRead 0 8 = headerBytes opc dst len rxreg rxlen :=
    memRead_encodePacket_header opc dst len rxreg rxlen data htx (by rwa [toNat_clampLen])
  obtain ⟨hopc, hdst, hlen, hrxreg, hrxlen⟩ := hdr_fields_of_header hrx opc dst len rxreg rxlen rfl
  simp only [hwire]
  exact ⟨by rw [hlen, toNat_clampLen], fun hle => by rw [hlen]; exact if_pos hle, hdst, hrxreg,
    by rw [hrxlen, toNat_clampLen], hopc, rfl, rfl, rfl⟩

/-! ## Too few data bytes (R78, R190, U6) -/

theorem execTransmit_shortData {s : State} {d : DevIx} {target : Option DevIx} {len dst : Byte} {data : List Byte}
    (rxreg rxlen opc : Byte) (hc : checkTransmit s d target len dst = none) (hd : data.length < (clampLen len).toNat) :
    execTransmit d target len dst rxreg rxlen opc data s = .refused .shortData := by
  simp only [execTransmit, hc, if_pos hd]

/-- Settles O15: no check of R111 rejects, so the data port is looked at. -/
theorem transmitShortDataRefused : Obligations.TransmitShortDataRefused := by
  intro s d target len dst rxreg rxlen opc data hi hd hdst ht htx hdata
  have hc : checkTransmit s d target len dst = none :=
    checkTransmit_eq_none.2 ⟨hi, absent_eq_false.2 hd, by omega, hdst, fun t h => absent_eq_false.2 (ht t h), htx⟩
  exact execTransmit_shortData rxreg rxlen opc hc (by rwa [toNat_clampLen])

end Sys2Proof.Machine
end

section
/-! SUPPORT. The textual form (30_encoding.md R85 to R87): the operands of a line, the pseudo-instructions, and what a
line assembles to. -/

namespace Sys2Proof.Machine

/-! ## Taking a computation that can fail apart -/

theorem except_bind_eq_ok {ε α β : Type} {x : Except ε α} {f : α → Except ε β} {b : β} :
    x >>= f = .ok b ↔ ∃ a, x = .ok a ∧ f a = .ok b := by
  cases x with
  | error e => exact ⟨nofun, nofun⟩
  | ok a => exact ⟨fun h => ⟨a, rfl, h⟩, fun ⟨_, ha, h⟩ => by cases ha; exact h⟩

theorem except_pure_eq_ok {ε α : Type} {a b : α} : (pure a : Except ε α) = .ok b ↔ a = b :=
  ⟨Except.ok.inj, congrArg _⟩

/-! ## The operands of a line (R85) -/

theorem parseOperands_eq_ok_iff {known words : List (List Char)} {ops : Operands} :
    parseOperands known words = .ok ops ↔
      words.mapM parseOperand = .ok ops ∧ (∀ o ∈ ops, o.1 ∈ known) ∧ (ops.map fun o => o.1).Nodup := by
  unfold parseOperands
  cases words.mapM parseOperand with
  | error e => exact ⟨nofun, nofun⟩
  | ok ops' =>
    have hany : ((ops'.map fun o => o.1).any fun k => !known.contains k) = true ↔ ¬ ∀ o ∈ ops', o.1 ∈ known := by simp
    simp only [hany]
    split
    · next hk => exact ⟨nofun, fun ⟨he, hk', _⟩ => by cases he; exact absurd hk' hk⟩
    · next hk =>
      split
      · next hn => exact ⟨fun he => by cases he; exact ⟨rfl, not_not.1 hk, hn⟩, fun ⟨he, _⟩ => he⟩
      · next hn => exact ⟨nofun, fun ⟨he, _, hn'⟩ => by cases he; exact absurd hn' hn⟩

theorem mapM_parseOperand {known words : List (List Char)} {ops : Operands}
    (h : parseOperands known words = .ok ops) : words.mapM parseOperand = .ok ops :=
  (parseOperands_eq_ok_iff.1 h).1

theorem operandText_eq_none {known words : List (List Char)} {ops : Operands} {key : List Char}
    (h : parseOperands known words = .ok ops) (hkey : key ∉ known) : operandText ops key = none := by
  obtain ⟨-, hknown, -⟩ := parseOperands_eq_ok_iff.1 h
  rw [operandText, Option.map_eq_none_iff, List.find?_eq_none]
  intro o ho heq
  exact hkey (beq_iff_eq.1 heq ▸ hknown o ho)

theorem operandText_append (ops ops' : Operands) (key : List Char) :
    operandText (ops ++ ops') key = (operandText ops key).or (operandText ops' key) := by
  simp only [operandText, List.find?_append, Option.map_or]

/-- A line that knows more keys takes the same words to the same operands. -/
theorem parseOperands_mono {known known' words : List (List Char)} {ops : Operands} (hsub : known ⊆ known')
    (h : parseOperands known words = .ok ops) : parseOperands known' words = .ok ops := by
  obtain ⟨hm, hknown, hn⟩ := parseOperands_eq_ok_iff.1 h
  exact parseOperands_eq_ok_iff.2 ⟨hm, fun o ho => hsub (hknown o ho), hn⟩

/-- Words of other keys, put after those of a line. -/
theorem parseOperands_append {known known' words words' : List (List Char)} {ops ops' : Operands}
    (hdisj : ∀ k ∈ known, k ∉ known') (h : parseOperands known words = .ok ops)
    (h' : parseOperands known' words' = .ok ops') :
    parseOperands (known ++ known') (words ++ words') = .ok (ops ++ ops') := by
  obtain ⟨hm, hknown, hn⟩ := parseOperands_eq_ok_iff.1 h
  obtain ⟨hm', hknown', hn'⟩ := parseOperands_eq_ok_iff.1 h'
  refine parseOperands_eq_ok_iff.2 ⟨?_, ?_, ?_⟩
  · rw [List.mapM_append, hm, hm']; rfl
  · intro o ho
    rcases List.mem_append.1 ho with ho | ho
    · exact List.mem_append_left _ (hknown o ho)
    · exact List.mem_append_right _ (hknown' o ho)
  · rw [List.map_append]
    refine List.Nodup.append hn hn' fun k hk hk' => ?_
    obtain ⟨o, ho, rfl⟩ := List.mem_map.1 hk
    obtain ⟨o', ho', heq⟩ := List.mem_map.1 hk'
    exact hdisj o.1 (hknown o ho) (heq ▸ hknown' o' ho')

theorem number_eq_ok_iff {n : Nat} {ops : Operands} {key : String} {v : BitVec n} :
    number n ops key.toList = .ok v ↔ numberMeans ops key v := by
  unfold number numberMeans
  cases operandText ops key.toList with
  | none => exact ⟨fun h => by cases h; rfl, fun h => by cases h; rfl⟩
  | some text =>
    cases hp : parseNumber text with
    | none => simp [hp]
    | some m =>
      by_cases hm : m < 2 ^ n
      · simp [hp, hm, ← BitVec.toNat_inj, Nat.mod_eq_of_lt hm]
      · have hv : m ≠ v.toNat := fun h => hm (h ▸ v.isLt)
        simp [hp, hm, hv]

theorem dataBytes_eq_ok_iff {ops : Operands} {bytes : List Byte} :
    dataBytes ops = .ok bytes ↔ dataMeans ops bytes := by
  unfold dataBytes dataMeans
  cases operandText ops "data".toList with
  | none => simp [eq_comm]
  | some text => cases hp : parseBytes text <;> simp [hp]

theorem targetOperand_eq_ok_iff {ops : Operands} {target : Option DevIx} :
    targetOperand ops = .ok target ↔ targetMeans ops target := by
  unfold targetOperand targetMeans
  cases ht : operandText ops "tgt".toList with
  | none => simp [eq_comm]
  | some text =>
    have hnumber (t : DevIx) : number 4 ops "tgt".toList = .ok t ↔ parseNumber text = some t.toNat := by
      rw [number_eq_ok_iff, numberMeans, ht]
    simp only [← hnumber]
    cases number 4 ops "tgt".toList <;> simp [Except.map, eq_comm]

theorem lengthOperand_eq_ok_iff {ops : Operands} {data : List Byte} {len : Byte} :
    lengthOperand ops data = .ok len ↔ lengthMeans ops len data := by
  unfold lengthOperand lengthMeans
  cases ht : operandText ops "len".toList with
  | none =>
    by_cases hl : data.length < 256
    · simp [hl, ← BitVec.toNat_inj, Nat.mod_eq_of_lt, eq_comm]
    · have hne : len.toNat ≠ data.length := by omega
      simp [hl, hne]
  | some text => exact number_eq_ok_iff.trans (by rw [numberMeans, ht])

/-! ## What the operands of each line mean (R85) -/

section
variable {words : List (List Char)} {i : Instr}

theorem transmitLine_operands (h : transmitLine words = .ok i) :
    ∃ ops d target len dst rxreg rxlen opc data, words.mapM parseOperand = .ok ops ∧
      i = .transmit d target len dst rxreg rxlen opc data ∧ numberMeans ops "dev" d ∧ targetMeans ops target ∧
      lengthMeans ops len data ∧ numberMeans ops "dst" dst ∧ numberMeans ops "rxreg" rxreg ∧
      numberMeans ops "rxlen" rxlen ∧ numberMeans ops "opc" opc ∧ dataMeans ops data := by
  simp only [transmitLine, except_bind_eq_ok, except_pure_eq_ok, number_eq_ok_iff, dataBytes_eq_ok_iff,
    targetOperand_eq_ok_iff, lengthOperand_eq_ok_iff] at h
  obtain ⟨ops, hops, data, hdata, d, hd, target, htarget, len, hlen, dst, hdst, rxreg, hrxreg, rxlen, hrxlen, opc, hopc,
    rfl⟩ := h
  exact ⟨ops, d, target, len, dst, rxreg, rxlen, opc, data, mapM_parseOperand hops, rfl, hd, htarget, hlen, hdst,
    hrxreg, hrxlen, hopc, hdata⟩

theorem lookupLine_operands (h : lookupLine words = .ok i) :
    ∃ ops id, words.mapM parseOperand = .ok ops ∧ i = .lookup id ∧ numberMeans ops "id" id := by
  simp only [lookupLine, except_bind_eq_ok, except_pure_eq_ok, number_eq_ok_iff] at h
  obtain ⟨ops, hops, id, hid, rfl⟩ := h
  exact ⟨ops, id, mapM_parseOperand hops, rfl, hid⟩

theorem regreadLine_operands (h : regreadLine words = .ok i) :
    ∃ ops d reg, words.mapM parseOperand = .ok ops ∧ i = .regread d reg ∧ numberMeans ops "dev" d ∧
      numberMeans ops "reg" reg := by
  simp only [regreadLine, except_bind_eq_ok, except_pure_eq_ok, number_eq_ok_iff] at h
  obtain ⟨ops, hops, d, hd, reg, hreg, rfl⟩ := h
  exact ⟨ops, d, reg, mapM_parseOperand hops, rfl, hd, hreg⟩

theorem clearLine_operands (h : clearLine words = .ok i) :
    ∃ ops d st op ec, words.mapM parseOperand = .ok ops ∧ i = .clear d st op ec ∧ numberMeans ops "dev" d ∧
      numberMeans ops "st" st ∧ numberMeans ops "op" op ∧ numberMeans ops "ec" ec := by
  simp only [clearLine, except_bind_eq_ok, except_pure_eq_ok, number_eq_ok_iff] at h
  obtain ⟨ops, hops, d, hd, st, hst, op, hop, ec, hec, rfl⟩ := h
  exact ⟨ops, d, st, op, ec, mapM_parseOperand hops, rfl, hd, hst, hop, hec⟩

theorem rxdoneLine_operands (h : rxdoneLine words = .ok i) :
    ∃ ops d data, words.mapM parseOperand = .ok ops ∧ i = .evRxdone d data ∧ numberMeans ops "dev" d ∧
      dataMeans ops data := by
  simp only [rxdoneLine, except_bind_eq_ok, except_pure_eq_ok, number_eq_ok_iff, dataBytes_eq_ok_iff] at h
  obtain ⟨ops, hops, d, hd, data, hdata, rfl⟩ := h
  exact ⟨ops, d, data, mapM_parseOperand hops, rfl, hd, hdata⟩

theorem errorLine_operands (h : errorLine words = .ok i) :
    ∃ ops d code, words.mapM parseOperand = .ok ops ∧ i = .evError d code ∧ numberMeans ops "dev" d ∧
      numberMeans ops "code" code := by
  simp only [errorLine, except_bind_eq_ok, except_pure_eq_ok, number_eq_ok_iff] at h
  obtain ⟨ops, hops, d, hd, code, hcode, rfl⟩ := h
  exact ⟨ops, d, code, mapM_parseOperand hops, rfl, hd, hcode⟩

theorem deviceLine_operands {make : DevIx → Instr} (h : deviceLine make words = .ok i) :
    ∃ ops d, words.mapM parseOperand = .ok ops ∧ i = make d ∧ numberMeans ops "dev" d := by
  simp only [deviceLine, except_bind_eq_ok, except_pure_eq_ok, number_eq_ok_iff] at h
  obtain ⟨ops, hops, d, hd, rfl⟩ := h
  exact ⟨ops, d, mapM_parseOperand hops, rfl, hd⟩

end

/-- Settles O59: each operand parser takes exactly what the operand means. -/
theorem operandsMeanTheirText : Obligations.OperandsMeanTheirText := fun _ _ =>
  ⟨transmitLine_operands, lookupLine_operands, regreadLine_operands, clearLine_operands, rxdoneLine_operands,
    errorLine_operands, fun _ => deviceLine_operands⟩

/-! ## The pseudo-instructions (R86) -/

theorem requiredTarget_eq_ok_iff {ops : Operands} {t : DevIx} :
    requiredTarget ops = .ok t ↔ targetMeans ops (some t) := by
  rw [← targetOperand_eq_ok_iff]
  unfold requiredTarget targetOperand
  cases operandText ops "tgt".toList with
  | none => exact ⟨nofun, nofun⟩
  | some text => cases number 4 ops "tgt".toList <;> simp [Except.map]

/-- An operand that a line does not take reads as 0. -/
theorem numberMeans_of_not_known {n : Nat} {known words : List (List Char)} {ops : Operands} {key : String}
    (h : parseOperands known words = .ok ops) (hkey : key.toList ∉ known) : numberMeans ops key (0 : BitVec n) := by
  simp only [numberMeans, operandText_eq_none h hkey]

/-- A SEND or REQUEST line is a TRANSMIT line that leaves out len and opc. -/
theorem transmitLine_of_omitted_len {known words : List (List Char)} {ops : Operands} {d t : DevIx}
    {len dst rxreg rxlen : Byte} {data : List Byte} (hops : parseOperands known words = .ok ops)
    (hsub : known ⊆ ["dev".toList, "tgt".toList, "dst".toList, "data".toList, "rxreg".toList, "rxlen".toList])
    (hd : numberMeans ops "dev" d) (ht : targetMeans ops (some t)) (hlen : lengthMeans ops len data)
    (hdst : numberMeans ops "dst" dst) (hrxreg : numberMeans ops "rxreg" rxreg)
    (hrxlen : numberMeans ops "rxlen" rxlen) (hdata : dataMeans ops data) :
    transmitLine words = .ok (.transmit d (some t) len dst rxreg rxlen 0 data) ∧ len.toNat = data.length ∧
      BitVec.ofNat 8 data.length = len := by
  have hnolen : operandText ops "len".toList = none := operandText_eq_none hops fun h => absurd (hsub h) (by decide)
  have hopc : numberMeans ops "opc" (0 : Byte) := numberMeans_of_not_known hops fun h => absurd (hsub h) (by decide)
  have hlen' : len.toNat = data.length := by simpa only [lengthMeans, hnolen] using hlen
  refine ⟨?_, hlen', by rw [← hlen', BitVec.ofNat_toNat, BitVec.setWidth_eq]⟩
  simp only [transmitLine, except_bind_eq_ok, except_pure_eq_ok, number_eq_ok_iff, dataBytes_eq_ok_iff,
    targetOperand_eq_ok_iff, lengthOperand_eq_ok_iff]
  exact ⟨ops, parseOperands_mono (List.Subset.trans hsub (by decide)) hops, data, hdata, d, hd, some t, ht, len, hlen,
    dst, hdst, rxreg, hrxreg, rxlen, hrxlen, 0, hopc, rfl⟩

theorem sendLine_shorthand {words : List (List Char)} {i : Instr} (h : sendLine words = .ok i) :
    transmitLine words = .ok i ∧
      ∃ d t len dst data, i = .transmit d (some t) len dst 0 0 0 data ∧ len.toNat = data.length := by
  simp only [sendLine, except_bind_eq_ok, except_pure_eq_ok, number_eq_ok_iff, dataBytes_eq_ok_iff,
    requiredTarget_eq_ok_iff, lengthOperand_eq_ok_iff] at h
  obtain ⟨ops, hops, data, hdata, len, hlen, d, hd, t, ht, dst, hdst, rfl⟩ := h
  obtain ⟨hline, hlen', hpseudo⟩ := transmitLine_of_omitted_len hops (by decide) hd ht hlen hdst
    (numberMeans_of_not_known hops (by decide)) (numberMeans_of_not_known hops (by decide)) hdata
  rw [pseudoSend, hpseudo]
  exact ⟨hline, d, t, len, dst, data, rfl, hlen'⟩

theorem requestLine_shorthand {words : List (List Char)} {i : Instr} (h : requestLine words = .ok i) :
    transmitLine words = .ok i ∧ ∃ d t len dst rxreg rxlen data,
      i = .transmit d (some t) len dst rxreg rxlen 0 data ∧ len.toNat = data.length := by
  simp only [requestLine, except_bind_eq_ok, except_pure_eq_ok, number_eq_ok_iff, dataBytes_eq_ok_iff,
    requiredTarget_eq_ok_iff, lengthOperand_eq_ok_iff] at h
  obtain ⟨ops, hops, data, hdata, len, hlen, d, hd, t, ht, dst, hdst, rxreg, hrxreg, rxlen, hrxlen, rfl⟩ := h
  obtain ⟨hline, hlen', hpseudo⟩ :=
    transmitLine_of_omitted_len hops (List.Subset.refl _) hd ht hlen hdst hrxreg hrxlen hdata
  rw [pseudoRequest, hpseudo]
  exact ⟨hline, d, t, len, dst, rxreg, rxlen, data, rfl, hlen'⟩

/-- The operands that RESETDEV adds to its own in the CLEAR line (R86). -/
def resetdevMasks : Operands :=
  [("st".toList, "0x0F".toList), ("op".toList, "0x3".toList), ("ec".toList, "0xFF".toList)]

theorem parseOperands_resetdevMasks :
    parseOperands ["st".toList, "op".toList, "ec".toList] ["st=0x0F".toList, "op=0x3".toList, "ec=0xFF".toList] =
      .ok resetdevMasks := by
  decide

theorem numberMeans_congr {n : Nat} {ops ops' : Operands} {key : String} {v : BitVec n}
    (h : operandText ops key.toList = operandText ops' key.toList) :
    numberMeans ops key v ↔ numberMeans ops' key v := by
  rw [numberMeans, h, numberMeans]

theorem numberMeans_append_left {n : Nat} {ops ops' : Operands} {key : String} {v : BitVec n}
    (h : operandText ops' key.toList = none) : numberMeans (ops ++ ops') key v ↔ numberMeans ops key v :=
  numberMeans_congr (by rw [operandText_append, h, Option.or_none])

theorem numberMeans_append_right {n : Nat} {ops ops' : Operands} {key : String} {v : BitVec n}
    (h : operandText ops key.toList = none) : numberMeans (ops ++ ops') key v ↔ numberMeans ops' key v :=
  numberMeans_congr (by rw [operandText_append, h, Option.none_or])

theorem resetdevLine_shorthand {words : List (List Char)} {i : Instr}
    (h : deviceLine pseudoResetdev words = .ok i) :
    clearLine (words ++ ["st=0x0F".toList, "op=0x3".toList, "ec=0xFF".toList]) = .ok i ∧
      ∃ d, i = .clear d 0x0F 0x03 0xFF := by
  simp only [deviceLine, except_bind_eq_ok, except_pure_eq_ok, number_eq_ok_iff] at h
  obtain ⟨ops, hops, d, hd, rfl⟩ := h
  refine ⟨?_, d, rfl⟩
  have hall := parseOperands_append (by decide) hops parseOperands_resetdevMasks
  have hdev : numberMeans (ops ++ resetdevMasks) "dev" d := (numberMeans_append_left (by decide)).2 hd
  have hst : numberMeans (ops ++ resetdevMasks) "st" (0x0F : Byte) :=
    (numberMeans_append_right (operandText_eq_none hops (by decide))).2 rfl
  have hop : numberMeans (ops ++ resetdevMasks) "op" (0x03 : Byte) :=
    (numberMeans_append_right (operandText_eq_none hops (by decide))).2 rfl
  have hec : numberMeans (ops ++ resetdevMasks) "ec" (0xFF : Byte) :=
    (numberMeans_append_right (operandText_eq_none hops (by decide))).2 rfl
  simp only [clearLine, except_bind_eq_ok, except_pure_eq_ok, number_eq_ok_iff]
  exact ⟨_, hall, d, hdev, _, hst, _, hop, _, hec, rfl⟩

/-- Settles O60: the operands of the shorthand line are those of the line it stands for. -/
theorem pseudoInstructionsAreShorthand : Obligations.PseudoInstructionsAreShorthand := fun _ _ =>
  ⟨sendLine_shorthand, requestLine_shorthand, resetdevLine_shorthand⟩

/-! ## Lines that assemble (R85, U4, U6, U13) -/

theorem wellFormed_of_assemble {line : List Char} {i : Instr} (h : assemble line = .ok (some i)) :
    i.wellFormed = true := by
  unfold assemble at h
  split at h
  · cases h
  · split at h
    · cases h
    · split at h <;> cases h
      assumption

theorem wellFormed_transmit_iff {d : DevIx} {target : Option DevIx} {len dst rxreg rxlen opc : Byte}
    {data : List Byte} :
    (Instr.transmit d target len dst rxreg rxlen opc data).wellFormed = true ↔ min len.toNat 64 ≤ data.length := by
  rw [Instr.wellFormed, decide_eq_true_iff, toNat_clampLen]

theorem wellFormed_evRxdone_iff {d : DevIx} {bytes : List Byte} :
    (Instr.evRxdone d bytes).wellFormed = true ↔ bytes.length ≤ 64 := decide_eq_true_iff

/-- Settles O3: the assembler's last check is the transcriber's, and the rest holds of every encoded instruction. -/
theorem assembledLinesAreWellFormed : Obligations.AssembledLinesAreWellFormed := by
  intro line i h
  have hwf := wellFormed_of_assemble h
  refine ⟨hwf, fun d tg len dst rr rl opc data hi => ?_, fun d bytes hi => ?_, encode_word_and_not_usedBits i,
    decode_encode i⟩
  · subst hi
    exact wellFormed_transmit_iff.1 hwf
  · subst hi
    exact wellFormed_evRxdone_iff.1 hwf

/-- Settles O2: the assembler and the encoder run on each row, and the decoder undoes the encoder. -/
theorem workedEncodings : Obligations.WorkedEncodings := by
  intro row hrow
  have h : assemble row.1.toList = .ok (some row.2.1) ∧ encode row.2.1 = row.2.2 := by
    revert row
    decide
  exact ⟨h.1, h.2, h.2 ▸ decode_encode row.2.1⟩

end Sys2Proof.Machine
end

section
/-! SUPPORT. The Device Registry (40_registry.md R100 to R103): the answers of INIT, IS_INIT and LOOKUP, and what every
other instruction does before INIT. -/

namespace Sys2Proof.Machine

/-! ## The response word (R82) -/

/-- OK stands in bit 63, above the payload. -/
theorem responseWord_true (p : BitVec 63) : responseWord true p = 0x8000000000000000#64 ||| p.setWidth 64 := by
  calc responseWord true p = (1#1 ||| 0#1) ++ (0#63 ||| p) := by simp [responseWord]
    _ = (1#1 ++ 0#63) ||| (0#1 ++ p) := BitVec.or_append.symm
    _ = 0x8000000000000000#64 ||| p.setWidth 64 := by rw [BitVec.setWidth_eq_append (by decide)]; rfl

theorem onlyAnswers_respond {s : State} {ok : Bool} {p : BitVec 63} {bytes : List Byte} {word : Word}
    (h : responseWord ok p = word) : onlyAnswers s (s.respond ok p bytes) word bytes := by
  subst h
  rfl

theorem onlyAnswers_reject (s : State) : onlyAnswers s (s.respond false 0 []) 0 [] :=
  onlyAnswers_respond responseWord_no

/-! ## INIT and IS_INIT (R100, R101) -/

/-- A second INIT sets a flag that is set. -/
theorem exec_init (s : State) : exec .init s = .next { s with initialized := true }.accept := by
  refine congrArg Host.Outcome.next ?_
  split
  · rfl
  · next hi => rw [← Bool.eq_true_of_not_eq_false hi]

theorem exec_isInit (s : State) :
    exec .isInit s = .next (s.respond true ((BitVec.ofBool s.initialized).setWidth 63) []) := rfl

/-- Settles O9: the first INIT and every later one reach the same state. -/
theorem initSetsFlagAndAnswersOk : Obligations.InitSetsFlagAndAnswersOk := fun s =>
  ⟨_, exec_init s, rfl, rfl, rfl, ⟨rfl, rfl⟩, rfl, by simp⟩

/-- Settles O10: the flag is bit 0 of the payload, under OK. -/
theorem isInitAnswersFlag : Obligations.IsInitAnswersFlag := fun s =>
  ⟨_, exec_isInit s, onlyAnswers_respond (by cases s.initialized <;> decide)⟩

/-! ## LOOKUP (R102) -/

/-- Identities are pairwise distinct (R9), so the first channel with an identity is the only one. -/
theorem lookupIndex_eq_some_iff {c : Config} (hc : c.ok = true) {id : BitVec 32} {d : Nat} :
    lookupIndex c id = some d ↔ d < c.nDev ∧ c.devId[d]? = some id := by
  have hnodup : c.devId.Nodup := by
    simp only [Config.ok, Bool.and_eq_true, decide_eq_true_eq] at hc
    exact hc.2
  simp only [lookupIndex, List.find?_range_eq_some, decide_eq_true_eq, List.mem_range, Bool.not_eq_true',
    decide_eq_false_iff_not]
  constructor
  · rintro ⟨hid, hd, -⟩
    exact ⟨hd, hid⟩
  · rintro ⟨hd, hid⟩
    refine ⟨hid, hd, fun e he hide => ?_⟩
    have hlen : e < c.devId.length := (List.getElem?_eq_some_iff.1 hide).1
    exact he.ne ((List.getElem?_inj hlen hnodup).1 (hide.trans hid.symm))

theorem lookupIndex_eq_none_iff {c : Config} {id : BitVec 32} :
    lookupIndex c id = none ↔ ∀ d, d < c.nDev → c.devId[d]? ≠ some id := by
  simp [lookupIndex]

theorem exec_lookup_of_some {s : State} {id : BitVec 32} {d : Nat} (hi : s.initialized = true)
    (hd : lookupIndex s.cfg id = some d) :
    exec (.lookup id) s = .next (s.respond true (BitVec.ofNat 63 d) []) := by
  simp [exec, execLookup, hi, hd]

/-- Before INIT and for an unknown identity the answer is the same (R102). -/
theorem exec_lookup_not_found {s : State} {id : BitVec 32}
    (h : s.initialized = false ∨ lookupIndex s.cfg id = none) :
    exec (.lookup id) s = .next (s.respond false 0 []) := by
  cases hi : s.initialized with
  | false => simp [exec, execLookup, hi]
  | true =>
    have hd := h.resolve_left (by simp [hi])
    simp [exec, execLookup, hi, hd]

theorem responseWord_index {d : Nat} (hd : d < 2 ^ 63) :
    responseWord true (BitVec.ofNat 63 d) = 0x8000000000000000#64 ||| BitVec.ofNat 64 d := by
  rw [responseWord_true, BitVec.setWidth_ofNat_of_le_of_lt (by decide) hd]

/-- Settles O11: an index that answers to the identity is the one LOOKUP finds, and below 16 it fits the payload. -/
theorem lookupAnswersIndex : Obligations.LookupAnswersIndex := by
  intro s id hc
  by_cases h : s.initialized = false ∨ lookupIndex s.cfg id = none
  · refine ⟨_, exec_lookup_not_found h, fun d hi hd hid => ?_, fun _ => onlyAnswers_reject s⟩
    have hnone := h.resolve_left (by simp [hi])
    exact absurd hid (lookupIndex_eq_none_iff.1 hnone d hd)
  · obtain ⟨hi, hsome⟩ := not_or.1 h
    obtain ⟨d, hd⟩ := Option.ne_none_iff_exists'.1 hsome
    refine ⟨_, exec_lookup_of_some (Bool.eq_true_of_not_eq_false hi) hd, fun e _ he hide => ?_, fun hnot => ?_⟩
    · have hde : d = e := Option.some_inj.1 (hd.symm.trans ((lookupIndex_eq_some_iff hc).2 ⟨he, hide⟩))
      have hle := Config.nDev_le hc
      subst hde
      exact onlyAnswers_respond (responseWord_index (by omega))
    · exact absurd (hnot.imp_right lookupIndex_eq_none_iff.2) h

/-! ## Before INIT (R103) -/

section
variable {s : State} (hi : s.initialized = false)
include hi

theorem checkChannel_before_init (d : DevIx) : checkChannel s d = some .notInitialized := if_pos hi

theorem checkTransmit_before_init (d : DevIx) (target : Option DevIx) (len dst : Byte) :
    checkTransmit s d target len dst = some .notInitialized := if_pos hi

theorem checkReceive_before_init (d : DevIx) : checkReceive s d = some .notInitialized := by
  simp only [checkReceive, checkChannel_before_init hi]

theorem checkRegread_before_init (d : DevIx) (reg : Byte) : checkRegread s d reg = some .notInitialized := by
  simp only [checkRegread, checkChannel_before_init hi]

theorem ignores_before_init (d : DevIx) : s.ignores d = true := by
  simp only [State.ignores, hi, Bool.not_false, Bool.true_or]

/-- The first check of every command but INIT and IS_INIT is the flag. -/
theorem exec_command_before_init {i : Instr} (hinit : i ≠ .init) (hisInit : i ≠ .isInit) (hc : i.isCommand = true) :
    exec i s = .next (s.respond false 0 []) := by
  cases i with
  | init => exact absurd rfl hinit
  | isInit => exact absurd rfl hisInit
  | lookup id => exact exec_lookup_not_found (.inl hi)
  | transmit d target len dst rxreg rxlen opc data =>
    simp only [exec, execTransmit, checkTransmit_before_init hi, State.reject_eq]
  | receive d => simp only [exec, execReceive, checkReceive_before_init hi, State.reject_eq]
  | status d => simp only [exec, execStatus, checkChannel_before_init hi, State.reject_eq]
  | regread d reg => simp only [exec, execRegread, checkRegread_before_init hi, State.reject_eq]
  | clear d stmask opmask ecmask => simp only [exec, execClear, checkChannel_before_init hi, State.reject_eq]
  | _ => cases hc

/-- Every event names a channel and passes its gate first. -/
theorem exec_event_before_init {i : Instr} (hc : i.isCommand = false) : exec i s = .next s := by
  cases i with
  | evTxdone d | evRxdone d bytes | evError d code | evAbort d | evCsfall d | evCsrise d =>
    exact if_pos (ignores_before_init hi d)
  | _ => cases hc

end

/-- Settles O12: the flag is looked at before anything else, by each command and by the gate of the events. -/
theorem onlyInitAndIsInitActBeforeInit : Obligations.OnlyInitAndIsInitActBeforeInit := by
  intro s i hi hinit hisInit
  refine ⟨fun hc => ?_, exec_event_before_init hi⟩
  exact (exec_command_before_init hi hinit hisInit hc).trans (congrArg Host.Outcome.next (onlyAnswers_reject s))

end Sys2Proof.Machine
end

section
/-! SUPPORT. The transfer engine (41_transfer.md): the two commands that start a direction, the completions of its two
phases, the turnaround, a whole transfer, and the end of a run whose link answers. -/

namespace Sys2Proof.Machine

/-! ## The header of a packet (R70, R74, R75) -/

theorem clampLen_eq_ofNat (b : Byte) : clampLen b = BitVec.ofNat 8 (min b.toNat 64) := by
  apply BitVec.eq_of_toNat_eq
  rw [toNat_clampLen, BitVec.toNat_ofNat]
  omega

theorem headerBytes_eq (opc dst len rxreg rxlen : Byte) :
    headerBytes opc dst len rxreg rxlen =
      [0xFF, 0xFF, opc, dst, BitVec.ofNat 8 (min len.toNat 64), rxreg, BitVec.ofNat 8 (min rxlen.toNat 64), 0xFF] := by
  rw [headerBytes, clampLen_eq_ofNat, clampLen_eq_ofNat]
  rfl

/-! ## What a drive leaves of the environment (R189, log entry 13) -/

theorem sameEnvironment.refl (s : State) : sameEnvironment s s := ⟨rfl, rfl⟩

theorem sameEnvironment.modDev {s t : State} (h : sameEnvironment s t) (d : DevIx) (f : Device → Device) :
    sameEnvironment s (t.modDev d f) := h

theorem sameEnvironment.emit_settle {s t : State} (h : sameEnvironment s t) (n : Nat) :
    sameEnvironment s (t.emit (.settle n)) := h

/-- The general environment takes nothing of a drive. -/
theorem sameEnvironment.emit_csDrive {s t : State} (h : sameEnvironment s t) (hg : t.cfg.environment = .general)
    (x : DevIx) (level : Bool) : sameEnvironment s (t.emit (.csDrive x level)) := by
  rw [State.emit_csDrive_general t x level hg]
  exact h

theorem sameEnvironment.deselect {s t : State} (h : sameEnvironment s t) (hg : t.cfg.environment = .general)
    (x : DevIx) : sameEnvironment s (deselect x t) :=
  (h.modDev x _).emit_csDrive hg x true

theorem sameEnvironment.selectSequence {s t : State} (h : sameEnvironment s t) (hg : t.cfg.environment = .general)
    (x : DevIx) : sameEnvironment s (selectSequence x t) :=
  ((((h.modDev x _).emit_csDrive hg x true).emit_settle _).modDev x _).emit_csDrive (by simpa using hg) x false

theorem sameEnvironment.selectTarget {s t : State} (h : sameEnvironment s t) {target : Option DevIx}
    (hg : target = none ∨ t.cfg.environment = .general) (d : DevIx) : sameEnvironment s (selectTarget d target t) := by
  cases target with
  | none => exact h
  | some x => exact (h.modDev d _).selectSequence (hg.resolve_left nofun) x

theorem sameEnvironment.link {s t : State} (h : sameEnvironment s t) (e : DevIx) : t.link e = s.link e := by
  simp only [State.link, h.1]

/-! ## TRANSMIT (R110, R111) -/

theorem exec_transmit {s : State} {d : DevIx} {target : Option DevIx} {len dst : Byte} {data : List Byte}
    (rxreg rxlen opc : Byte) (hc : checkTransmit s d target len dst = none)
    (hd : (clampLen len).toNat ≤ data.length) :
    exec (.transmit d target len dst rxreg rxlen opc data) s =
      .next (acceptTransmit d target len dst rxreg rxlen opc data s).accept := by
  simp only [exec, execTransmit, hc, if_neg (Nat.not_lt.2 hd)]

theorem exec_transmit_rejected {s : State} {d : DevIx} {target : Option DevIx} {len dst : Byte}
    (rxreg rxlen opc : Byte) (data : List Byte) (hc : checkTransmit s d target len dst ≠ none) :
    exec (.transmit d target len dst rxreg rxlen opc data) s = .next (s.respond false 0 []) := by
  obtain ⟨c, hc⟩ := Option.ne_none_iff_exists'.1 hc
  simp only [exec, execTransmit, hc, State.reject_eq]

/-- The header is the one thing an accepted TRANSMIT posts; it puts the packet in tx_buff for it (R110). -/
theorem memRead_startTransmit_header {D : Device} {len : Byte} {data : List Byte} (dst rxreg rxlen opc : Byte)
    (hw : D.txBuff.wf = true) (hd : (clampLen len).toNat ≤ data.length) :
    (startTransmit len dst rxreg rxlen opc data D).txBuff.memRead 0 hdrLen = headerBytes opc dst len rxreg rxlen :=
  memRead_encodePacket_header opc dst len rxreg rxlen data hw hd

/-- Of an accepted TRANSMIT the environment takes the header's send, and the drives of its target. -/
theorem acceptTransmit_undelivered_csIn {s : State} {target : Option DevIx}
    (h : target = none ∨ s.cfg.environment = .general) (d : DevIx) (len dst rxreg rxlen opc : Byte)
    (data : List Byte) :
    let t := acceptTransmit d target len dst rxreg rxlen opc data s
    t.undelivered = s.undelivered ∧ ∀ e, (t.link e).csIn = (s.link e).csIn := by
  have hsame := ((sameEnvironment.refl s).modDev d (startTransmit len dst rxreg rxlen opc data)).selectTarget h d
  refine ⟨hsame.2, fun e => ?_⟩
  simp only [acceptTransmit, State.emit_linkSend_link, hsame.link]
  split
  · next he => rw [he]
  · rfl

/-- An accepted TRANSMIT with no target writes its own channel and posts the header. -/
theorem acceptTransmit_none (d : DevIx) (len dst rxreg rxlen opc : Byte) (data : List Byte) (s : State) :
    acceptTransmit d none len dst rxreg rxlen opc data s =
      (s.modDev d (startTransmit len dst rxreg rxlen opc data)).emit
        (.linkSend d ((startTransmit len dst rxreg rxlen opc data (s.dev d)).txBuff.memRead 0 hdrLen)) := by
  simp [acceptTransmit, selectTarget]

/-- Settles O13: the accepted TRANSMIT, read field by field. -/
theorem transmitAcceptedStartsTransfer : Obligations.TransmitAcceptedStartsTransfer := by
  intro s d target len dst rxreg rxlen opc data hi hd hlen hdst ht ho hdata hwf
  have hc : checkTransmit s d target len dst = none :=
    checkTransmit_eq_none.2 ⟨hi, absent_eq_false.2 hd, hlen, hdst, fun t h => absent_eq_false.2 (ht t h), ho⟩
  have hdata' : (clampLen len).toNat ≤ data.length := by rwa [toNat_clampLen]
  have hheader := memRead_startTransmit_header dst rxreg rxlen opc hwf hdata'
  rw [headerBytes_eq] at hheader
  have htx : ((acceptTransmit d target len dst rxreg rxlen opc data s).dev d).txBuff =
      encodePacket (s.dev d).txBuff opc dst len rxreg rxlen data := by
    rw [acceptTransmit_dev]; cases target <;> simp [startTransmit, Device.setTx, Device.setState]
  refine ⟨_, exec_transmit rxreg rxlen opc hc hdata', ?_⟩
  simp only [State.accept_eq, State.respond_dev, State.respond_link, State.respond_undelivered,
    State.respond_outputs, acceptTransmit_outputs, acceptTransmit_send, acceptTransmit_recv, hheader]
  refine ⟨⟨by simp, by simp, by simp⟩, ?own, ?txBuff, ?others, ?outputs, fun _ => trivial, fun e he => if_neg he,
    if_pos trivial, fun h => acceptTransmit_undelivered_csIn h d len dst rxreg rxlen opc data⟩
  case own =>
    rw [acceptTransmit_dev]
    cases target <;> simp [startTransmit, Device.setTx, Device.setState, eq_comm]
  case txBuff =>
    intro a
    rw [htx, read_encodePacket opc dst len rxreg rxlen data hwf hdata', headerBytes_eq, toNat_clampLen]
  case others =>
    intro e he
    rw [acceptTransmit_dev]
    cases target <;> simp [he, eq_comm]
  case outputs => cases target <;> simp [selectOutputs]

/-- An argument that names nothing is found before the busy check (R111). -/
theorem checkTransmit_badArgument {s : State} {d : DevIx} {target : Option DevIx} {len dst : Byte}
    (hi : s.initialized = true)
    (h : s.cfg.nDev ≤ d.toNat ∨ len.toNat < 1 ∨ s.cfg.regCount ≤ dst.toNat ∨
      ∃ t, target = some t ∧ s.cfg.nDev ≤ t.toNat) :
    checkTransmit s d target len dst = some .invalidArgument := by
  have hany : (target.any fun t => s.absent t) = true ↔ ∃ t, target = some t ∧ s.cfg.nDev ≤ t.toNat := by
    simp [Option.any_eq_true, absent_eq_true]
  simp only [checkTransmit, hi, absent_eq_true, hany]
  rcases h with h | h | h | h <;> simp [h]

/-- Settles O14: a check that fails is not passed, and the checks run in the order of their classes. -/
theorem transmitRejected : Obligations.TransmitRejected := by
  intro s d target len dst rxreg rxlen opc data badArgument
  refine ⟨fun h => ?_, fun hi => checkTransmit_before_init hi d target len dst, checkTransmit_badArgument,
    fun hi hbad ho => ?_⟩
  · refine exec_transmit_rejected rxreg rxlen opc data fun hc => ?_
    obtain ⟨hi, ha, hlen, hdst, ht, ho⟩ := checkTransmit_eq_none.1 hc
    rcases h with h | h | h
    · rw [hi] at h; cases h
    · rw [checkTransmit_badArgument hi h] at hc; cases hc
    · rw [ho] at h; cases h
  · obtain ⟨hd, hlen, hdst, ht⟩ : ¬ s.cfg.nDev ≤ d.toNat ∧ ¬ len.toNat < 1 ∧ ¬ s.cfg.regCount ≤ dst.toNat ∧
        ¬ ∃ t, target = some t ∧ s.cfg.nDev ≤ t.toNat := by simpa only [badArgument, not_or] using hbad
    have hany : ¬ (target.any fun t => s.absent t) = true := by
      simpa [Option.any_eq_true, absent_eq_true] using ht
    simp only [checkTransmit, hi, absent_eq_true, hd, hlen, hdst, hany, ho, if_false, if_true, reduceCtorEq]

/-! ## RECEIVE (R113) -/

/-- Settles O16: the accepted RECEIVE, read field by field; and a check that fails is not passed. -/
theorem receiveArmsHeaderReceive : Obligations.ReceiveArmsHeaderReceive := by
  intro s d
  refine ⟨fun hi hd ho => ?_, fun h => ?_⟩
  · have hc : checkReceive s d = none := checkReceive_eq_none.2 ⟨hi, absent_eq_false.2 hd, ho⟩
    refine ⟨(acceptReceive d s).accept, by simp only [exec, execReceive, hc], ⟨?_, ?_, ?_⟩, rfl, ?_, fun e he => ?_,
      ?_, ?_, fun e he => ?_⟩ <;> simp [startReceive, Device.setRx, Device.setState, *]
  · have hc : checkReceive s d ≠ none := fun hc => by
      obtain ⟨hi, ha, ho⟩ := checkReceive_eq_none.1 hc
      rw [absent_eq_false] at ha
      rcases h with h | h | h
      · rw [hi] at h; cases h
      · omega
      · rw [ho] at h; cases h
    obtain ⟨c, hc⟩ := Option.ne_none_iff_exists'.1 hc
    simp only [exec, execReceive, hc]
    rfl

/-! ## EV_TXDONE (R117, R119, R120) -/

theorem ignores_eq_false_iff {s : State} {d : DevIx} :
    s.ignores d = false ↔ s.initialized = true ∧ d.toNat < s.cfg.nDev := by
  rw [ignores_eq_false, absent_eq_false]

/-- A completion is stray where the gate of every event ignores it, or for a reason of its own. -/
theorem ignores_or_of_stray {s : State} {d : DevIx} {p : Prop}
    (h : s.initialized = false ∨ s.cfg.nDev ≤ d.toNat ∨ p) : s.ignores d = true ∨ p := by
  rw [← Bool.not_eq_false, ignores_eq_false_iff, not_and_or, Bool.not_eq_true, Nat.not_lt, or_assoc]
  exact h

/-- Settles O17: the gate of every event, then op.TX. -/
theorem strayTxdoneIgnored : Obligations.StrayTxdoneIgnored := by
  intro s d h
  rcases ignores_or_of_stray h with hg | ho
  · exact if_pos hg
  · simp [exec, execEvTxdone, ho]

/-- Settles O18: the payload lies inside the buffer, and is read from behind the header. -/
theorem txHeaderDonePostsPayload : Obligations.TxHeaderDonePostsPayload := by
  intro s d hi hd ho hp hlen
  have hin : hdrLen + sentLen (s.dev d).txBuff ≤ bufLen := Nat.add_le_add_left hlen hdrLen
  have hexec := exec_evTxdone_header (ignores_eq_false_iff.2 ⟨hi, hd⟩) ho hp
  rw [txHeaderDone_eq, if_pos hin] at hexec
  refine ⟨_, _, hexec, ⟨?_, ?_, ?_⟩, ?_, ?_, fun e he => ?_, Mem.length_memRead ..,
    fun j hj => Mem.getD_memRead _ _ _ _ (by simpa using hj), ?_, ?_, fun e he => ?_⟩ <;> simp [*, sentLen]

theorem exec_evTxdone_payload {s : State} {d : DevIx} (hg : s.ignores d = false) (ho : (s.dev d).opTx = true)
    (hp : (s.dev d).txPos = true) : exec (.evTxdone d) s = .next (txPayloadDone d s) := by
  simp [exec, execEvTxdone, hg, ho, hp]

theorem sameEnvironment_txPayloadDone {s : State} {d : DevIx}
    (h : (s.dev d).targetDevice = none ∨ s.cfg.environment = .general) : sameEnvironment s (txPayloadDone d s) := by
  rw [txPayloadDone]
  cases hx : (s.dev d).targetDevice with
  | none => exact (sameEnvironment.refl s).modDev d _
  | some x =>
    have hg : s.cfg.environment = .general := h.resolve_left (by simp [hx])
    exact (((sameEnvironment.refl s).deselect hg x).modDev d _).modDev d _

/-- Settles O20: every channel is as `txPayloadDone_dev` says, and the drive is all that is put out. -/
theorem txPayloadDoneCompletes : Obligations.TxPayloadDoneCompletes := by
  intro s d hi hd ho hp
  refine ⟨_, exec_evTxdone_payload (ignores_eq_false_iff.2 ⟨hi, hd⟩) ho hp, ⟨by simp, by simp, by simp⟩,
    ?own, fun e he => ?others, ?outputs, fun e => ⟨by simp, by simp⟩, fun h => ?environment⟩
  case own => rw [txPayloadDone_dev, if_pos rfl]; rfl
  case others => rw [txPayloadDone_dev, if_neg he]
  case outputs => cases hx : (s.dev d).targetDevice <;> simp [txPayloadDone, hx]
  case environment =>
    have hsame := sameEnvironment_txPayloadDone h
    exact ⟨hsame.2, fun e => by rw [hsame.link]⟩

/-! ## EV_RXDONE (R118, R121, R122) -/

theorem expectedRx_header {D : Device} (hp : D.rxPos = false) : D.expectedRx = 8 := if_pos hp

theorem expectedRx_payload {D : Device} (hp : D.rxPos = true) :
    D.expectedRx = min (D.rxBuff.read 4).toNat 64 := by
  rw [Device.expectedRx, if_neg (by simp [hp]), hdrTxLen, toNat_clampLen]

/-- Settles O21: the gate of every event, then op.RX, then the byte count. -/
theorem strayRxdoneIgnoredAndWrongLengthRefused : Obligations.StrayRxdoneIgnoredAndWrongLengthRefused := by
  intro s d bytes
  refine ⟨fun h => ?_, fun hi hd ho hlen => ?_⟩
  · rcases ignores_or_of_stray h with hg | ho
    · exact if_pos hg
    · simp [exec, execEvRxdone, ho]
  · have hexp : bytes.length ≠ (s.dev d).expectedRx := by
      cases hp : (s.dev d).rxPos with
      | false => rw [expectedRx_header hp]; simpa [hp] using hlen
      | true => rw [expectedRx_payload hp]; simpa [hp] using hlen
    have hg : s.ignores d = false := ignores_eq_false_iff.2 ⟨hi, hd⟩
    simp [exec, execEvRxdone, hg, ho, hexp]

theorem exec_evRxdone_header {s : State} {d : DevIx} {bytes : List Byte} (hg : s.ignores d = false)
    (ho : (s.dev d).opRx = true) (hp : (s.dev d).rxPos = false) (hl : bytes.length = 8) :
    exec (.evRxdone d bytes) s = .next (rxHeaderDone d bytes s) := by
  have hexp : bytes.length = (s.dev d).expectedRx := hl.trans (expectedRx_header hp).symm
  simp [exec, execEvRxdone, hg, ho, hp, ← hexp]

theorem exec_evRxdone_payload {s : State} {d : DevIx} {bytes : List Byte} (hg : s.ignores d = false)
    (ho : (s.dev d).opRx = true) (hp : (s.dev d).rxPos = true)
    (hl : bytes.length = min ((s.dev d).rxBuff.read 4).toNat 64) :
    exec (.evRxdone d bytes) s = .next (rxPayloadDone d bytes s) := by
  have hexp : bytes.length = (s.dev d).expectedRx := hl.trans (expectedRx_payload hp).symm
  simp [exec, execEvRxdone, hg, ho, hp, ← hexp]

@[simp] theorem rxHeaderDone_dev (d e : DevIx) (bytes : List Byte) (s : State) :
    (rxHeaderDone d bytes s).dev e =
      if e = d then { s.dev d with rxBuff := (s.dev d).rxBuff.memWrite 0 hdrLen bytes, rxPos := true }
      else s.dev e := by
  simp [rxHeaderDone]

/-- Settles O22: the header lies in rx_buff when its length byte is read. -/
theorem rxHeaderDonePostsPayload : Obligations.RxHeaderDonePostsPayload := by
  intro s d bytes hi hd ho hp hl hwf
  have hread : ∀ a, ((s.dev d).rxBuff.memWrite 0 hdrLen bytes).read a =
      if a < 8 then bytes.getD a 0 else (s.dev d).rxBuff.read a := fun a => by
    simpa using Mem.read_memWrite 0 8 bytes hwf (Nat.le_of_eq hl.symm) a
  have hlen : (hdrTxLen ((s.dev d).rxBuff.memWrite 0 hdrLen bytes)).toNat = min (bytes.getD 4 0).toNat 64 := by
    rw [hdrTxLen, toNat_clampLen, hread]; rfl
  have hpost : rxHeaderDone d bytes s = (s.modDev d fun D =>
      { D with rxBuff := D.rxBuff.memWrite 0 hdrLen bytes, rxPos := true }).emit
        (.linkRecv d (min (bytes.getD 4 0).toNat 64)) := by
    simp only [rxHeaderDone, State.dev_modDev, if_true, hlen]
  refine ⟨_, exec_evRxdone_header (ignores_eq_false_iff.2 ⟨hi, hd⟩) ho hp hl, ⟨?_, ?_, ?_⟩, ?_, ?_,
    fun a => ?_, fun e he => ?_, ?_, ?_, fun e he => ?_⟩ <;> rw [hpost] <;> simp [*]

/-! ## The payload of a receive, and the turnaround (R122, R123) -/

@[simp] theorem storePayload_txPos (c : Config) (bytes : List Byte) (D : Device) :
    (storePayload c bytes D).txPos = D.txPos := by
  simp only [storePayload]; split <;> rfl
@[simp] theorem storePayload_rxPos (c : Config) (bytes : List Byte) (D : Device) :
    (storePayload c bytes D).rxPos = D.rxPos := by
  simp only [storePayload]; split <;> rfl
@[simp] theorem storePayload_targetDevice (c : Config) (bytes : List Byte) (D : Device) :
    (storePayload c bytes D).targetDevice = D.targetDevice := by
  simp only [storePayload]; split <;> rfl
@[simp] theorem storePayload_csOut (c : Config) (bytes : List Byte) (D : Device) :
    (storePayload c bytes D).csOut = D.csOut := by
  simp only [storePayload]; split <;> rfl
@[simp] theorem storePayload_txBuff (c : Config) (bytes : List Byte) (D : Device) :
    (storePayload c bytes D).txBuff = D.txBuff := by
  simp only [storePayload]; split <;> rfl

/-- The header stays as it was received: the payload lands behind it. -/
theorem read_storePayload_header {D : Device} {bytes : List Byte} (c : Config) (hwf : D.rxBuff.wf = true)
    (hl : bytes.length = min (D.rxBuff.read 4).toNat 64) {a : Nat} (ha : a < 8) :
    (storePayload c bytes D).rxBuff.read a = D.rxBuff.read a := by
  have hbuff : (storePayload c bytes D).rxBuff = D.rxBuff.memWrite hdrLen (hdrTxLen D.rxBuff).toNat bytes := by
    simp only [storePayload]; split <;> rfl
  rw [hbuff, Mem.read_memWrite _ _ _ hwf (by rw [hdrTxLen, toNat_clampLen, hl]), if_neg (by simp only [hdrLen]; omega)]

/-- A turnaround that is not asked for, or that the checks reject, leaves no trace. -/
theorem turnaround_eq_self {s : State} {d : DevIx}
    (h : hdrRxLen (s.dev d).rxBuff = 0 ∨ s.cfg.regCount ≤ (hdrRxReg (s.dev d).rxBuff).toNat ∨ (s.dev d).opTx = true) :
    turnaround d s = s := by
  simp only [turnaround]
  split
  · next hask =>
    have ho : (s.dev d).opTx = true := by
      rcases h with h | h | h
      · exact absurd (by rw [h]; rfl) hask.1
      · exact absurd hask.2 (Nat.not_lt.2 h)
      · exact h
    split
    · rfl
    · next hc => rw [checkTransmit_opTx hc] at ho; cases ho
  · rfl

/-- A turnaround that is asked for, of a slot in range and with op.TX clear. -/
theorem turnaround_eq_acceptTransmit {s : State} {d : DevIx} (hg : s.ignores d = false)
    (hm : (hdrRxLen (s.dev d).rxBuff).toNat ≠ 0) (hq : (hdrRxReg (s.dev d).rxBuff).toNat < s.cfg.regCount)
    (ho : (s.dev d).opTx = false) :
    turnaround d s =
      acceptTransmit d none (hdrRxLen (s.dev d).rxBuff) (hdrRxReg (s.dev d).rxBuff) 0 0 (hdrOpcode (s.dev d).rxBuff)
        ((s.dev d).regs.memRead (slotBase s.cfg.regSize (hdrRxReg (s.dev d).rxBuff))
          (hdrRxLen (s.dev d).rxBuff).toNat) s := by
  obtain ⟨hi, ha⟩ := ignores_eq_false.1 hg
  have hc : checkTransmit s d none (hdrRxLen (s.dev d).rxBuff) (hdrRxReg (s.dev d).rxBuff) = none :=
    checkTransmit_eq_none.2 ⟨hi, ha, Nat.one_le_iff_ne_zero.2 hm, hq, nofun, ho⟩
  simp only [turnaround, if_pos (And.intro hm hq), hc]

/-- Settles O23: what the header asks for is read after the store, which leaves the header. -/
theorem rxPayloadDoneStoresSlot : Obligations.RxPayloadDoneStoresSlot := by
  intro s d bytes D n r hi hd ho hp hl hrx hregs hno
  obtain ⟨hread, hslot, -, -, hD⟩ := storePayload_spec s.cfg D bytes hl hrx hregs
  have hheader : ∀ {a}, a < 8 → (storePayload s.cfg bytes D).rxBuff.read a = D.rxBuff.read a :=
    read_storePayload_header s.cfg hrx hl
  have hself : rxPayloadDone d bytes s = s.modDev d (storePayload s.cfg bytes) := by
    refine turnaround_eq_self ?_
    rw [State.dev_modDev, if_pos rfl, Device.opTx_storePayload, hdrRxLen, hdrRxReg, hheader (by decide),
      hheader (by decide)]
    exact hno.imp (congrArg clampLen) id
  refine ⟨_, exec_evRxdone_payload (ignores_eq_false_iff.2 ⟨hi, hd⟩) ho hp hl, ?_⟩
  rw [hself]
  simp only [State.dev_modDev, if_true]
  exact ⟨⟨rfl, rfl, rfl⟩, ⟨rfl, rfl⟩, rfl, hD, hread, hslot, fun e he => by rw [State.dev_modDev, if_neg he]⟩

/-- The data of the reply that a received header asks for: the slot as the store has left it (R123). -/
def replyData (c : Config) (bytes : List Byte) (D : Device) : List Byte :=
  (storePayload c bytes D).regs.memRead (slotBase c.regSize (D.rxBuff.read 5)) (min (D.rxBuff.read 6).toNat 64)

/-- The channel after a payload that a reply answers: its operands stand in the received header (R123). -/
def startReply (c : Config) (bytes : List Byte) (D : Device) : Device :=
  startTransmit (clampLen (D.rxBuff.read 6)) (D.rxBuff.read 5) 0 0 (D.rxBuff.read 2) (replyData c bytes D)
    (storePayload c bytes D)

/-- The header of a reply. -/
def replyHeader (rx : Mem) : List Byte :=
  [0xFF, 0xFF, rx.read 2, rx.read 5, BitVec.ofNat 8 (min (rx.read 6).toNat 64), 0, 0, 0xFF]

theorem headerBytes_reply (rx : Mem) :
    headerBytes (rx.read 2) (rx.read 5) (clampLen (rx.read 6)) 0 0 = replyHeader rx := by
  rw [headerBytes, clampLen_clampLen, clampLen_eq_ofNat]
  rfl

theorem replyData_fits (c : Config) (bytes : List Byte) (D : Device) :
    (clampLen (clampLen (D.rxBuff.read 6))).toNat ≤ (replyData c bytes D).length := by
  rw [clampLen_clampLen, toNat_clampLen, replyData, Mem.length_memRead]

theorem startReply_eq (c : Config) (bytes : List Byte) (D : Device) :
    startReply c bytes D =
      { D with
        state := D.state ||| 0x38, op := 0b01#2, txPos := false, txBuff := (startReply c bytes D).txBuff
        rxBuff := (storePayload c bytes D).rxBuff, regs := (storePayload c bytes D).regs } := by
  have hop : D.op &&& 0b01#2 ||| 0b01#2 = 0b01#2 := by generalize D.op = o; revert o; decide
  simp [startReply, startTransmit, Device.setState, Device.setTx, BitVec.or_assoc, hop]

/-- The packet of a reply. -/
theorem read_startReply_txBuff {D : Device} (c : Config) (bytes : List Byte) (hwf : D.txBuff.wf = true) (a : Nat) :
    (startReply c bytes D).txBuff.read a =
      if a < 8 then (replyHeader D.rxBuff).getD a 0
      else if a < 8 + min (D.rxBuff.read 6).toNat 64 then
        (storePayload c bytes D).regs.read ((D.rxBuff.read 5).toNat * c.regSize + (a - 8))
      else D.txBuff.read a := by
  have hbuff : (startReply c bytes D).txBuff = encodePacket D.txBuff (D.rxBuff.read 2) (D.rxBuff.read 5)
      (clampLen (D.rxBuff.read 6)) 0 0 (replyData c bytes D) := by
    simp [startReply, startTransmit, Device.setState, Device.setTx]
  rw [hbuff, read_encodePacket _ _ _ _ _ _ hwf (replyData_fits c bytes D), headerBytes_reply, clampLen_clampLen,
    toNat_clampLen]
  split
  · rfl
  · next hge =>
    split
    · next hlt => exact Mem.getD_memRead _ _ _ _ (Nat.sub_lt_left_of_lt_add (Nat.le_of_not_lt hge) hlt)
    · rfl

theorem State.modDev_modDev (s : State) (d : DevIx) (f g : Device → Device) :
    (s.modDev d f).modDev d g = s.modDev d fun D => g (f D) := by
  simp [State.modDev, State.setDev, State.dev]

theorem State.modDev_congr {s : State} {d : DevIx} {f g : Device → Device} (h : f (s.dev d) = g (s.dev d)) :
    s.modDev d f = s.modDev d g := congrArg (s.setDev d) h

/-- The payload of a receive whose header asks for a reply (R122, R123). -/
theorem rxPayloadDone_reply {s : State} {d : DevIx} {bytes : List Byte} (hg : s.ignores d = false)
    (hl : bytes.length = min ((s.dev d).rxBuff.read 4).toNat 64) (hrx : (s.dev d).rxBuff.wf = true)
    (htx : (s.dev d).txBuff.wf = true) (hm : min ((s.dev d).rxBuff.read 6).toNat 64 ≠ 0)
    (hq : ((s.dev d).rxBuff.read 5).toNat < s.cfg.regCount) (ho : (s.dev d).opTx = false) :
    rxPayloadDone d bytes s =
      (s.modDev d (startReply s.cfg bytes)).emit (.linkSend d (replyHeader (s.dev d).rxBuff)) := by
  have hheader : ∀ {a}, a < 8 → (storePayload s.cfg bytes (s.dev d)).rxBuff.read a = (s.dev d).rxBuff.read a :=
    read_storePayload_header s.cfg hrx hl
  have hdev : (s.modDev d (storePayload s.cfg bytes)).dev d = storePayload s.cfg bytes (s.dev d) := by simp
  have hopc : hdrOpcode (storePayload s.cfg bytes (s.dev d)).rxBuff = (s.dev d).rxBuff.read 2 := hheader (by decide)
  have hreg : hdrRxReg (storePayload s.cfg bytes (s.dev d)).rxBuff = (s.dev d).rxBuff.read 5 := hheader (by decide)
  have hlen : hdrRxLen (storePayload s.cfg bytes (s.dev d)).rxBuff = clampLen ((s.dev d).rxBuff.read 6) :=
    congrArg clampLen (hheader (by decide))
  have hreply := turnaround_eq_acceptTransmit (s := s.modDev d (storePayload s.cfg bytes)) hg
    (by rwa [hdev, hlen, toNat_clampLen]) (by rwa [hdev, hreg]) (by rwa [hdev, Device.opTx_storePayload])
  rw [hdev, hopc, hreg, hlen, toNat_clampLen, acceptTransmit_none, hdev, State.modDev_modDev] at hreply
  have hwire := memRead_startTransmit_header ((s.dev d).rxBuff.read 5) 0 0 ((s.dev d).rxBuff.read 2)
    (D := storePayload s.cfg bytes (s.dev d)) (by rwa [storePayload_txBuff]) (replyData_fits s.cfg bytes (s.dev d))
  rw [headerBytes_reply] at hwire
  rw [rxPayloadDone, hreply]
  exact congrArg₂ (fun t b => State.emit t (.linkSend d b)) (State.modDev_congr rfl) hwire

/-- Settles O24: the reply is the TRANSMIT that the header asks for, from the slot as the store has left it. -/
theorem turnaroundSendsSlotBack : Obligations.TurnaroundSendsSlotBack := by
  intro s d bytes D n r q m header hi hd ho hp hl hrx hregs htx hm hq hotx
  obtain ⟨hread, hslot, -⟩ := storePayload_spec s.cfg D bytes hl hrx hregs
  have hg : s.ignores d = false := ignores_eq_false_iff.2 ⟨hi, hd⟩
  have hexec : exec (.evRxdone d bytes) s =
      .next ((s.modDev d (startReply s.cfg bytes)).emit (.linkSend d header)) :=
    (exec_evRxdone_payload hg ho hp hl).trans
      (congrArg Host.Outcome.next (rxPayloadDone_reply hg hl hrx htx hm hq hotx))
  have hdev : ((s.modDev d (startReply s.cfg bytes)).emit (.linkSend d header)).dev d = startReply s.cfg bytes D := by
    simp [D]
  have hown := startReply_eq s.cfg bytes D
  have hrx' : (startReply s.cfg bytes D).rxBuff = (storePayload s.cfg bytes D).rxBuff := by rw [hown]
  have hregs' : (startReply s.cfg bytes D).regs = (storePayload s.cfg bytes D).regs := by rw [hown]
  refine ⟨_, hexec, ?_⟩
  rw [hdev, hrx', hregs']
  exact ⟨⟨State.emit_cfg .., State.emit_inputs .., State.emit_initialized ..⟩, rfl, hown, hread, hslot,
    read_startReply_txBuff s.cfg bytes htx, fun e he => by simp [he], rfl, by simp, fun e he => by simp [he]⟩

/-! ## A whole transfer (R124, R125) -/

/-- A channel whose events are handled stays so (R33, R103). -/
theorem exec_keeps_gate {i : Instr} {s t : State} {d : DevIx} (h : exec i s = .next t) (hg : s.ignores d = false) :
    t.ignores d = false := by
  obtain ⟨hi, hd⟩ := ignores_eq_false_iff.1 hg
  exact ignores_eq_false_iff.2 ⟨(exec_initialized h).elim (·.trans hi) id, by rwa [exec_cfg h]⟩

/-- An instruction on another channel leaves a channel as it was, but for its line (R184). -/
theorem exec_sameButCsOut {i : Instr} {s t : State} {d e : DevIx} (h : exec i s = .next t) (hi : i.device = some d)
    (he : e ≠ d) : sameButCsOut (s.dev e) (t.dev e) := by
  have heff := exec_channelEffect h e
  generalize t.dev e = D' at heff ⊢
  cases heff with
  | kept | driven => rfl
  | _ => exact absurd (Option.some.inj hi) he

/-- The directions, the receive buffer and the register file do not depend on the line. -/
theorem sameButCsOut.fields {D D' : Device} (h : sameButCsOut D D') :
    D'.opTx = D.opTx ∧ D'.opRx = D.opRx ∧ D'.txPos = D.txPos ∧ D'.rxPos = D.rxPos ∧ D'.rxBuff = D.rxBuff ∧
      D'.regs = D.regs := by
  rw [h]; exact ⟨rfl, rfl, rfl, rfl, rfl, rfl⟩

/-- A channel after its payload has come in: op.RX is clear whether or not a reply starts, and the register file is as
the store has left it. -/
theorem rxPayloadDone_dev_self (d : DevIx) (bytes : List Byte) (s : State) :
    ((rxPayloadDone d bytes s).dev d).regs = (storePayload s.cfg bytes (s.dev d)).regs ∧
      ((rxPayloadDone d bytes s).dev d).opRx = false := by
  rw [rxPayloadDone]
  rcases turnaround_cases d (s.modDev d (storePayload s.cfg bytes)) with ht | ⟨m, q, data, -, -, -, ht⟩ <;> rw [ht]
  · simp
  · simp only [acceptTransmit_none, State.emit_dev, State.dev_modDev, if_true, Device.opRx_startTransmit,
      Device.opRx_storePayload, and_true]
    rfl

/-- The sender's half up to its payload: the header goes out, and when it has gone the data follows it. -/
theorem transmit_sends_header_then_data {s : State} {c : DevIx} {target : Option DevIx}
    {len dst : Byte} (rxreg rxlen opc : Byte) {data : List Byte} (hg : s.ignores c = false)
    (ht : ∀ t, target = some t → t.toNat < s.cfg.nDev) (hlen : 1 ≤ len.toNat) (hdata : min len.toNat 64 ≤ data.length)
    (hdst : dst.toNat < s.cfg.regCount) (hotx : (s.dev c).opTx = false) (hwf : (s.dev c).txBuff.wf = true) :
    ∃ t1 t2 payload, exec (.transmit c target len dst rxreg rxlen opc data) s = .next t1 ∧
      (t1.link c).send = some (headerBytes opc dst len rxreg rxlen) ∧
      exec (.evTxdone c) t1 = .next t2 ∧ (t2.link c).send = some payload ∧
      payload.length = min len.toNat 64 ∧ (∀ j, j < min len.toNat 64 → payload.getD j 0 = data.getD j 0) ∧
      (t2.dev c).opTx = true ∧ (t2.dev c).txPos = true := by
  obtain ⟨hi, hc⟩ := ignores_eq_false_iff.1 hg
  obtain ⟨t1, h1, -, hdev1, htx1, -, -, -, -, hsend1, -⟩ :=
    transmitAcceptedStartsTransfer s c target len dst rxreg rxlen opc data hi hc hlen hdst ht hotx hdata hwf
  obtain ⟨hi1, hc1⟩ := ignores_eq_false_iff.1 (exec_keeps_gate h1 hg)
  have hotx1 : (t1.dev c).opTx = true := by rw [hdev1]; simp [Device.opTx]
  have hpos1 : (t1.dev c).txPos = false := by rw [hdev1]
  have hlen1 : ((t1.dev c).txBuff.read 4).toNat = min len.toNat 64 := by
    rw [htx1, ← headerBytes_eq, ← toNat_clampLen]; rfl
  obtain ⟨t2, payload, h2, -, -, hdev2, -, hlen2, hpay, -, hlink2, -⟩ :=
    txHeaderDonePostsPayload t1 c hi1 hc1 hotx1 hpos1 (by omega)
  rw [hlen1] at hlen2
  refine ⟨t1, t2, payload, h1, by rw [hsend1, headerBytes_eq], h2, by rw [hlink2], hlen2, fun j hj => ?_,
    by rw [hdev2]; exact hotx1, by rw [hdev2]⟩
  rw [hpay j (by omega), htx1, if_neg (by omega), if_pos (by omega), Nat.add_sub_cancel_left]

/-- The receiver's half, its header received: the payload lands in the slot that the header names. -/
theorem receive_data_after_header {s : State} {p : DevIx} {rx : Mem} {opc dst len rxreg rxlen : Byte}
    {payload : List Byte} (hg : s.ignores p = false) (horx : (s.dev p).opRx = true) (hpos : (s.dev p).rxPos = true)
    (hrx : (s.dev p).rxBuff = rx.memWrite 0 8 (headerBytes opc dst len rxreg rxlen)) (hwf : rx.wf = true)
    (hregs : (s.dev p).regs.wf = true) (hlen : 1 ≤ len.toNat) (hdst : dst.toNat < s.cfg.regCount)
    (hpay : payload.length = min len.toNat 64) :
    ∃ t, exec (.evRxdone p payload) s = .next t ∧ (t.dev p).opRx = false ∧
      ∀ a, (t.dev p).regs.read a =
        if dst.toNat * s.cfg.regSize ≤ a ∧ a < dst.toNat * s.cfg.regSize + min len.toNat 64
        then payload.getD (a - dst.toNat * s.cfg.regSize) 0 else (s.dev p).regs.read a := by
  obtain ⟨-, hdst', hlen', -⟩ := hdr_fields_of_header hwf opc dst len rxreg rxlen hrx
  have hr : ((s.dev p).rxBuff.read 3).toNat = dst.toNat := congrArg BitVec.toNat hdst'
  have hn : min ((s.dev p).rxBuff.read 4).toNat 64 = min len.toNat 64 := by
    rw [← toNat_clampLen, ← toNat_clampLen]; exact congrArg BitVec.toNat hlen'
  have hwf' : (s.dev p).rxBuff.wf = true := by rw [hrx]; exact Mem.wf_memWrite _ _ _ hwf
  have hpay' := hpay.trans hn.symm
  obtain ⟨-, hslot, -⟩ := storePayload_spec s.cfg (s.dev p) payload hpay' hwf' hregs
  obtain ⟨hregs', horx'⟩ := rxPayloadDone_dev_self p payload s
  refine ⟨_, exec_evRxdone_payload hg horx hpos hpay', horx', fun a => ?_⟩
  rw [hregs', hslot, hr, hn]
  have hstored : min len.toNat 64 ≠ 0 := by omega
  simp only [hstored, hdst, ne_eq, not_false_eq_true, true_and]

theorem exec_regs {i : Instr} {s t : State} {e : DevIx} (h : exec i s = .next t)
    (hne : ∀ bytes, i ≠ .evRxdone e bytes) : (t.dev e).regs = (s.dev e).regs :=
  (onlyReceiveCompletionsWriteSlots i s t e h hne).1

/-- Settles O27: the sender's half hands the receiver's the header and the data, and neither half touches the other's
channel but for its line. -/
theorem transferDeliversData : Obligations.TransferDeliversData := by
  intro s c p target len dst rxreg rxlen opc data n hi hcp hc hp ht hlen hdata hdst hotx horx hrxPos hctx hprx hpregs
  have hgc : s.ignores c = false := ignores_eq_false_iff.2 ⟨hi, hc⟩
  have hgp : s.ignores p = false := ignores_eq_false_iff.2 ⟨hi, hp⟩
  obtain ⟨t1, t2, payload, h1, hsend1, h2, hsend2, hpaylen, hpay, hotx2, hpos2⟩ :=
    transmit_sends_header_then_data rxreg rxlen opc hgc ht hlen hdata hdst hotx hctx
  have hgc2 : t2.ignores c = false := exec_keeps_gate h2 (exec_keeps_gate h1 hgc)
  have hgp2 : t2.ignores p = false := exec_keeps_gate h2 (exec_keeps_gate h1 hgp)
  obtain ⟨-, horx1, -, hrxPos1, hrx1, hregs1⟩ := (exec_sameButCsOut h1 rfl hcp.symm).fields
  obtain ⟨-, horx2, -, hrxPos2, hrx2, hregs2⟩ := (exec_sameButCsOut h2 rfl hcp.symm).fields
  have h3 := exec_evRxdone_header (bytes := headerBytes opc dst len rxreg rxlen) hgp2
    (by rw [horx2, horx1, horx]) (by rw [hrxPos2, hrxPos1, hrxPos]) (length_headerBytes ..)
  generalize ht3 : rxHeaderDone p (headerBytes opc dst len rxreg rxlen) t2 = t3 at h3
  have hdev3 : t3.dev p = { t2.dev p with
      rxBuff := (s.dev p).rxBuff.memWrite 0 8 (headerBytes opc dst len rxreg rxlen), rxPos := true } := by
    rw [← ht3, rxHeaderDone_dev, if_pos rfl, hrx2, hrx1]
  have horx3 : (t3.dev p).opRx = true := by rw [hdev3]; exact (horx2.trans horx1).trans horx
  obtain ⟨hotx3, -, hpos3, -⟩ := (exec_sameButCsOut h3 rfl hcp).fields
  obtain ⟨hi3, hc3⟩ := ignores_eq_false_iff.1 (exec_keeps_gate h3 hgc2)
  obtain ⟨t4, h4, -, hdev4, -⟩ := txPayloadDoneCompletes t3 c hi3 hc3 (hotx3.trans hotx2) (hpos3.trans hpos2)
  obtain ⟨-, horx4, -, hrxPos4, hrx4, hregs4⟩ := (exec_sameButCsOut h4 rfl hcp.symm).fields
  have hregs : (t4.dev p).regs = (s.dev p).regs := by rw [hregs4, hdev3, hregs2, hregs1]
  have hcfg4 : t4.cfg = s.cfg := by rw [exec_cfg h4, exec_cfg h3, exec_cfg h2, exec_cfg h1]
  obtain ⟨t5, h5, horx5, hread⟩ := receive_data_after_header (payload := payload)
    (exec_keeps_gate h4 (exec_keeps_gate h3 hgp2)) (horx4.trans horx3) (by rw [hrxPos4, hdev3])
    (by rw [hrx4, hdev3]) hprx (by rwa [hregs]) hlen (by rwa [hcfg4]) hpaylen
  rw [hcfg4, hregs] at hread
  refine ⟨_, payload, t1, t2, t3, t4, t5, h1, hsend1, h2, hsend2, h3, h4, h5, fun j hj => ?slot, fun a ha => ?rest,
    fun e he => ?others, ?opTx, horx5⟩
  case slot => rw [hread, if_pos (by omega), Nat.add_sub_cancel_left, hpay j hj]
  case rest => rw [hread, if_neg ha]
  case others =>
    rw [exec_regs h5 (by simp [he.symm]), exec_regs h4 nofun, exec_regs h3 (by simp [he.symm]), exec_regs h2 nofun,
      exec_regs h1 nofun]
  case opTx =>
    rw [(exec_sameButCsOut h5 rfl hcp).fields.1, hdev4]
    simp [Device.opTx]

/-! ## An admitted input is always taken (R176, R187, R190) -/

theorem outcome_exists_next {o : Host.Outcome State Fault Refusal} (hf : ∀ f, o ≠ .fault f)
    (hr : ∀ r, o ≠ .refused r) : ∃ t, o = .next t := by
  cases o with
  | next t => exact ⟨t, rfl⟩
  | fault f => exact absurd rfl (hf f)
  | refused r => exact absurd rfl (hr r)

/-- What an instruction that is refused was short of: data for its TRANSMIT, or the byte count its channel waits for. -/
def Unfit (s : State) : Instr → Prop
  | .transmit _ _ len _ _ _ _ data => data.length < (clampLen len).toNat
  | .evRxdone d bytes => bytes.length ≠ (s.dev d).expectedRx
  | _ => False

theorem unfit_of_exec_eq_refused {i : Instr} {s : State} {r : Refusal} (h : exec i s = .refused r) : Unfit s i := by
  cases i with
  | transmit d target len dst rxreg rxlen opc data =>
    simp only [exec, execTransmit] at h
    split at h
    · cases h
    · split at h
      · assumption
      · cases h
  | evRxdone d bytes =>
    simp only [exec, execEvRxdone] at h
    split at h
    · cases h
    · split at h
      · cases h
      · split at h
        · assumption
        · split at h <;> cases h
  | init | isInit => cases h
  | lookup id =>
    simp only [exec, execLookup] at h
    split at h
    · cases h
    · split at h <;> cases h
  | receive | status | regread | clear =>
    simp only [exec, execReceive, execStatus, execRegread, execClear] at h
    split at h <;> cases h
  | evTxdone d =>
    simp only [exec, execEvTxdone, txHeaderDone_eq] at h
    repeat' split at h
    all_goals cases h
  | evError | evAbort | evCsrise =>
    simp only [exec, execEvError, execEvAbort, execEvCsrise] at h
    split at h <;> cases h
  | evCsfall d =>
    simp only [exec, execEvCsfall] at h
    split at h
    · cases h
    · split at h <;> cases h

/-- In a state with the invariant an instruction that is not short of its bytes is taken, its delivery noted. -/
theorem State.Inv.exec_delivered_next {s : State} (hs : s.Inv) {i : Instr} (hfit : ¬ Unfit s i) :
    ∃ t, exec i (s.delivered i) = .next t := by
  have hs' : (s.delivered i).Inv := hs.congr (s.delivered_cfg i) (s.delivered_initialized i) (s.delivered_devs i)
  refine outcome_exists_next (hs'.exec_ne_fault i) fun r h => hfit ?_
  have hunfit := unfit_of_exec_eq_refused h
  cases i with
  | evRxdone d bytes => simpa only [Unfit, State.delivered_dev] using hunfit
  | _ => exact hunfit

/-- The contracts give an instruction its bytes: the transcriber the data of a TRANSMIT, and the link the byte count that
the channel waits for (R118, R187, R190). -/
theorem not_unfit_of_admitted {i : Instr} {s : State} (hl : s.LinkInv) (h : admitInstr i s = none) : ¬ Unfit s i := by
  cases i with
  | transmit d target len dst rxreg rxlen opc data =>
    simp only [admitInstr, Instr.wellFormed, decide_eq_true_eq] at h
    split at h
    · next hle => exact Nat.not_lt.2 hle
    · cases h
  | evRxdone d bytes =>
    simp only [admitInstr] at h
    split at h
    · cases h
    · next n hn =>
      split at h
      · next hlen => exact not_not.2 (hlen.trans ((hl d).2 n hn).2.2)
      · cases h
  | _ => exact id

theorem State.Inv.runWord_admitted {s : State} (hs : s.Inv) (hl : s.LinkInv) {e : Encoded}
    (h : admitWord e s = none) : ∃ t, runWord e s = .next t := by
  obtain ⟨i, hd, ha⟩ := admitWord_eq_none h
  rw [runWord_of_decode s hd]
  exact hs.exec_delivered_next (not_unfit_of_admitted hl ha)

/-- A pairing is refused, or adds undelivered events whatever the schedule holds (R189 c, e). -/
theorem pairTransfer_cases (s : State) (c : DevIx) :
    pairTransfer c s = .refused .noMatchingReceive ∨
      ∃ q, ∀ rest, pairTransfer c { s with inputs := rest } = .next { s with inputs := rest, undelivered := q } := by
  simp only [pairTransfer]
  split
  · exact .inl rfl
  · next p hp =>
    split
    · next bytes n hsend hrecv =>
      split
      · next hfree =>
        refine .inr ⟨s.undelivered ++ [eventOf (.evTxdone c), eventOf (.evRxdone p bytes)], fun rest => ?_⟩
        have hp' : State.peer { s with inputs := rest } c = some p := hp
        have hsend' : (State.link { s with inputs := rest } c).send = some bytes := hsend
        have hrecv' : (State.link { s with inputs := rest } p).recv = some n := hrecv
        simp only [hp', hsend', hrecv']
        exact if_pos hfree
      · exact .inl rfl
    · exact .inl rfl

/-- Settles O51: a word that is admitted runs, and what else is admitted is a reset or a pairing that can be made. -/
theorem admittedInputsAlwaysTaken : Obligations.AdmittedInputsAlwaysTaken := by
  intro s i rest hs hl hi ha
  have hstep : stepAdmitted s = takeInput i { s with inputs := rest } := by
    rw [stepAdmitted, hi]
    simp only [List.head?_cons, Option.bind_some, ha]
    exact step_of_inputs_cons hs.cfg hs.modelError_eq_none hi
  rw [hstep]
  have hs' : ∀ q, State.Inv { s with inputs := rest, undelivered := q } := fun q => hs.congr rfl rfl rfl
  have hl' : ∀ q, State.LinkInv { s with inputs := rest, undelivered := q } := fun q => hl
  cases i with
  | command w data => exact (hs' _).runWord_admitted (hl' _) ha
  | event w data =>
    simp only [admitInput] at ha
    split at ha
    · cases ha
    · next hw =>
      split at ha
      · next hm =>
        have htake : takeInput (.event w data) { s with inputs := rest } =
            runWord ⟨.event, w, data⟩ { s with inputs := rest } := if_pos hm
        rw [htake]
        exact (hs' _).runWord_admitted (hl' _) hw
      · cases ha
  | reset draw => exact ⟨_, rfl⟩
  | pair c =>
    rcases pairTransfer_cases s c with hr | ⟨q, hq⟩
    · simp only [admitInput, hr] at ha
      cases ha
    · exact ⟨_, hq rest⟩
  | deliver k =>
    simp only [admitInput] at ha
    split at ha
    · cases ha
    · next e he =>
      split at ha
      · cases ha
      · next ho =>
        have htake : takeInput (.deliver k) { s with inputs := rest } = runWord ⟨.event, e.word, e.data⟩
            { s with inputs := rest, undelivered := s.undelivered.eraseIdx k } := by
          simp only [takeInput, deliverEvent, he]
          exact if_neg ho
        rw [htake]
        exact (hs' _).runWord_admitted (hl' _) ha

/-! ## The end of a run (R186, R193, R212) -/

theorem State.answered_cons_eq_some {s u : State} {i : Instr} {answers : List Instr}
    (h : s.answered (i :: answers) = some u) :
    s.isAnswer i = true ∧ ∃ t, exec i (s.delivered i) = .next t ∧ t.answered answers = some u := by
  rw [State.answered] at h
  split at h
  · next ha =>
    split at h
    · next t ht => exact ⟨ha, t, ht, h⟩
    · cases h
    · cases h
  · cases h

theorem State.answered_cons {s t : State} {i : Instr} (ha : s.isAnswer i = true)
    (h : exec i (s.delivered i) = .next t) (answers : List Instr) :
    s.answered (i :: answers) = t.answered answers := by
  rw [State.answered, if_pos ha, h]

/-- The delivery of a completion ends its operation, so an answer finds the link ready. -/
theorem linkReady_of_isAnswer {s : State} {i : Instr} (ha : s.isAnswer i = true) : LinkReady (s.delivered i) i := by
  cases i with
  | evTxdone d => exact s.delivered_evTxdone d
  | evRxdone d bytes => exact s.delivered_evRxdone d bytes
  | clear => cases ha
  | _ => trivial

theorem State.LinkInv.answer {s t : State} (hl : s.LinkInv) {i : Instr} (ha : s.isAnswer i = true)
    (h : exec i (s.delivered i) = .next t) : t.LinkInv :=
  exec_keeps_linkInv (hl.delivered i) (linkReady_of_isAnswer ha) h

theorem State.Inv.answer {s t : State} (hs : s.Inv) {i : Instr} (h : exec i (s.delivered i) = .next t) : t.Inv :=
  exec_keeps_inv (hs.congr (s.delivered_cfg i) (s.delivered_initialized i) (s.delivered_devs i)) h

/-- Every answer leaves the link less work, so it runs out of answers. -/
theorem State.LinkInv.length_answers_le {s t : State} (hl : s.LinkInv) {answers : List Instr}
    (h : s.answered answers = some t) : answers.length ≤ s.linkWork := by
  induction answers generalizing s with
  | nil => exact Nat.zero_le _
  | cons i answers ih =>
    obtain ⟨ha, u, hu, hrest⟩ := State.answered_cons_eq_some h
    exact Nat.lt_of_le_of_lt (ih (hl.answer ha hu) hrest) (answer_linkWork_lt hl ha hu)

theorem State.outstanding_iff {s : State} :
    s.outstanding = true ↔ ∃ d, (s.link d).send.isSome = true ∨ (s.link d).recv.isSome = true := by
  simp only [State.outstanding, List.any_eq_true, Bool.or_eq_true, Vector.mem_toList_iff, Vector.mem_iff_getElem]
  constructor
  · rintro ⟨l, ⟨k, hk, rfl⟩, h⟩
    exact ⟨BitVec.ofNatLT k hk, h⟩
  · rintro ⟨d, h⟩
    exact ⟨s.link d, ⟨d.toNat, d.isLt, rfl⟩, h⟩

/-- An abort of a channel that the link holds an operation of is an answer, and it is taken. So aborts lead to a link that
holds nothing. -/
theorem exists_answers_to_idle {s : State} (hs : s.Inv) (hl : s.LinkInv) :
    ∃ answers t, s.answered answers = some t ∧ t.outstanding = false := by
  induction hw : s.linkWork using Nat.strong_induction_on generalizing s with
  | _ work ih =>
    cases ho : s.outstanding with
    | false => exact ⟨[], s, rfl, ho⟩
    | true =>
      obtain ⟨d, hd⟩ := State.outstanding_iff.1 ho
      have ha : s.isAnswer (.evAbort d) = true := Bool.or_eq_true_iff.2 hd
      obtain ⟨u, hu⟩ := hs.exec_delivered_next (i := .evAbort d) id
      obtain ⟨answers, t, ht, hidle⟩ :=
        ih u.linkWork (hw ▸ answer_linkWork_lt hl ha hu) (hs.answer hu) (hl.answer ha hu) rfl
      exact ⟨.evAbort d :: answers, t, (State.answered_cons ha hu answers).trans ht, hidle⟩

theorem sameEnvironment_clearOpTx {s : State} (hg : s.cfg.environment = .general) (d : DevIx) (opmask : Byte) :
    sameEnvironment s (clearOpTx d opmask s) := by
  rw [clearOpTx_eq]
  split
  · split
    · exact sameEnvironment.refl s
    · next x _ => exact (((sameEnvironment.refl s).modDev d _).modDev d _).deselect hg x
  · exact sameEnvironment.refl s

theorem clearOpRx_undelivered (d : DevIx) (opmask : Byte) (s : State) :
    (clearOpRx d opmask s).undelivered = s.undelivered := by
  unfold clearOpRx; split <;> rfl

/-- In the general environment no instruction makes an undelivered event (R188). -/
theorem exec_undelivered {i : Instr} {s t : State} (h : exec i s = .next t) (hg : s.cfg.environment = .general) :
    t.undelivered = s.undelivered := by
  cases exec_effect h with
  | transmitted d target len dst rxreg rxlen opc data =>
    exact (acceptTransmit_undelivered_csIn (.inr hg) d len dst rxreg rxlen opc data).1
  | txPayload d => exact (sameEnvironment_txPayloadDone (.inr hg)).2
  | rxPayload d bytes =>
    rw [rxPayloadDone]
    rcases turnaround_cases d (s.modDev d (storePayload s.cfg bytes)) with ht | ⟨m, q, data, -, -, -, ht⟩ <;> rw [ht]
    · rfl
    · exact (acceptTransmit_undelivered_csIn (.inl rfl) d m q 0 0 _ data).1
  | cleared d stmask opmask ecmask =>
    exact (clearOpRx_undelivered ..).trans (sameEnvironment_clearOpTx (s := s.modDev d _) hg d opmask).2
  | _ => rfl

/-- A delivery makes no undelivered event. -/
theorem State.delivered_undelivered_nil {s : State} (h : s.undelivered = []) (i : Instr) :
    (s.delivered i).undelivered = [] := by
  cases i with
  | evError | evAbort => simp [State.delivered, h]
  | evCsfall | evCsrise => simp only [State.delivered]; split <;> exact h
  | _ => exact h

/-- In the general environment answers put nothing on the schedule and leave nothing undelivered. -/
theorem answered_keeps_idle {s t : State} {answers : List Instr} (h : s.answered answers = some t)
    (hg : s.cfg.environment = .general) (hi : s.inputs = []) (hu : s.undelivered = []) :
    t.inputs = [] ∧ t.undelivered = [] := by
  induction answers generalizing s with
  | nil => cases h; exact ⟨hi, hu⟩
  | cons i answers ih =>
    obtain ⟨-, u, hexec, hrest⟩ := State.answered_cons_eq_some h
    refine ih hrest ?_ ?_ ?_
    · rw [exec_cfg hexec, State.delivered_cfg, hg]
    · rw [exec_inputs hexec, State.delivered_inputs, hi]
    · rw [exec_undelivered hexec (by rwa [State.delivered_cfg]), State.delivered_undelivered_nil hu]

theorem ended_iff {s : State} :
    s.ended = true ↔ s.inputs = [] ∧ s.undelivered = [] ∧ s.outstanding = false := by
  simp [State.ended, and_assoc]

/-- Settles O58: each answer leaves less work, and one is taken while the link holds an operation. -/
theorem runEndsWhenTheLinkAnswers : Obligations.RunEndsWhenTheLinkAnswers := by
  intro s hs hl
  refine ⟨fun answers t => hl.length_answers_le, fun d _ => hs.exec_delivered_next id, fun d bytes hd => ?_,
    exists_answers_to_idle hs hl, fun answers t h hidle hg hi hu => ?_, fun hi ho => ⟨?_, ?_⟩⟩
  · obtain ⟨-, -, hlen⟩ := (hl d).2 _ hd
    exact hs.exec_delivered_next (not_not.2 hlen)
  · obtain ⟨hi', hu'⟩ := answered_keeps_idle h hg hi hu
    exact ended_iff.2 ⟨hi', hu', hidle⟩
  · exact step_of_inputs_nil hs.cfg hs.modelError_eq_none hi
  · rw [← Bool.not_eq_true, ended_iff]
    rintro ⟨-, -, hidle⟩
    rw [ho] at hidle; cases hidle

end Sys2Proof.Machine
end

section
/-! SUPPORT. The fault events (42_fault_events.md R140 to R142): what EV_ERROR and EV_ABORT record, and that a direction
whose operation they ended stays busy. -/

namespace Sys2Proof.Machine

/-! ## What the two events record (R140, R141) -/

theorem ignores_eq_true_iff {s : State} {d : DevIx} :
    s.ignores d = true ↔ s.initialized = false ∨ s.cfg.nDev ≤ d.toNat := by
  simp [State.ignores, State.absent]

theorem exec_evError (s : State) (d : DevIx) (code : Byte) :
    exec (.evError d code) s =
      .next (if s.ignores d then s
        else s.modDev d fun D => { D.setState maskErr with errCode := D.errCode ||| code }) :=
  (apply_ite Host.Outcome.next ..).symm

theorem exec_evAbort (s : State) (d : DevIx) :
    exec (.evAbort d) s = .next (if s.ignores d then s else s.modDev d fun D => D.setState maskAbt) :=
  (apply_ite Host.Outcome.next ..).symm

/-- A write of one channel changes that channel and nothing else. -/
theorem modDev_frame (s : State) (d : DevIx) (f : Device → Device) :
    sameControl s (s.modDev d f) ∧ sameEnvironment s (s.modDev d f) ∧ (s.modDev d f).outputs = s.outputs ∧
      (s.modDev d f).dev d = f (s.dev d) ∧ sameOthers d s (s.modDev d f) :=
  ⟨⟨rfl, rfl, rfl⟩, ⟨rfl, rfl⟩, rfl, by simp, fun e he => by simp [he]⟩

/-- Settles O29: past the gate of the events, the handler writes its own channel. -/
theorem errorEventRecordsCode : Obligations.ErrorEventRecordsCode := by
  intro s d code
  rw [exec_evError, ← ignores_eq_true_iff]
  refine ⟨fun hi hd => ?_, fun hg => by rw [if_pos hg]⟩
  simp only [ignores_eq_false_iff.2 ⟨hi, hd⟩, Bool.false_eq_true, if_false]
  exact ⟨_, rfl, modDev_frame ..⟩

/-- Settles O30: past the gate of the events, the handler writes its own channel. -/
theorem abortEventSetsFlag : Obligations.AbortEventSetsFlag := by
  intro s d
  rw [exec_evAbort, ← ignores_eq_true_iff]
  refine ⟨fun hi hd => ?_, fun hg => by rw [if_pos hg]⟩
  simp only [ignores_eq_false_iff.2 ⟨hi, hd⟩, Bool.false_eq_true, if_false]
  exact ⟨_, rfl, modDev_frame ..⟩

/-! ## The event ends what the link holds, and frees nothing (R40, R187) -/

/-- A delivered error or abort leaves the link nothing of its channel, and the op bits as they were. -/
theorem exec_delivered_fault {i : Instr} {s t : State} {d : DevIx} (hi : i = .evAbort d ∨ ∃ code, i = .evError d code)
    (h : exec i (s.delivered i) = .next t) :
    (t.link d).send = none ∧ (t.link d).recv = none ∧ (t.dev d).op = (s.dev d).op := by
  rcases hi with rfl | ⟨code, rfl⟩
  · rw [exec_evAbort] at h
    cases h
    split <;> simp [State.delivered_evAbort_link, Device.setState]
  · rw [exec_evError] at h
    cases h
    split <;> simp [State.delivered_evError_link, Device.setState]

/-! ## No instruction posts or frees in a direction that is busy without an operation (R111, R113, R123, R151) -/

/-- A TRANSMIT is accepted on another channel than one with op.TX set (R111). -/
theorem ne_of_checkTransmit_eq_none {s : State} {d e : DevIx} {target : Option DevIx} {len dst : Byte}
    (ho : (s.dev d).opTx = true) (hc : checkTransmit s e target len dst = none) : d ≠ e := by
  rintro rfl
  obtain ⟨-, -, -, -, -, hidle⟩ := checkTransmit_eq_none.1 hc
  rw [ho] at hidle; cases hidle

/-- A send is posted by an accepted TRANSMIT or a turnaround, which find op.TX clear, or after a header's EV_TXDONE. -/
theorem exec_send_eq_none {i : Instr} {s t : State} {d : DevIx} (h : exec i s = .next t)
    (hs : (s.link d).send = none) (ho : (s.dev d).opTx = true) (hne : i ≠ .evTxdone d) : (t.link d).send = none := by
  cases exec_effect h with
  | transmitted e target len dst rxreg rxlen opc data hc =>
    rw [State.accept_eq, State.respond_link, acceptTransmit_send, if_neg (ne_of_checkTransmit_eq_none ho hc), hs]
  | txHeader e =>
    have hde : d ≠ e := fun hde => hne (hde ▸ rfl)
    simp [hde, hs]
  | rxPayload e bytes =>
    rcases turnaround_cases e (s.modDev e (storePayload s.cfg bytes)) with ht | ⟨m, q, data, hc, -, -, ht⟩ <;>
      rw [rxPayloadDone, ht]
    · exact hs
    · have hu : ((s.modDev e (storePayload s.cfg bytes)).dev d).opTx = true := by
        rw [State.dev_modDev]; split
        · next hde => rw [Device.opTx_storePayload, ← hde, ho]
        · exact ho
      rw [acceptTransmit_send, if_neg (ne_of_checkTransmit_eq_none hu hc)]
      exact hs
  | receiving e | selectedIdle e | rxHeader e =>
    by_cases hde : d = e
    · subst hde; simp [rxHeaderDone, hs]
    · simp [rxHeaderDone, hde, hs]
  | txPayload | cleared => simp [hs]
  | _ => exact hs

/-- A receive is posted by an accepted RECEIVE, which finds op.RX clear, by an EV_CSFALL, which finds both bits clear, or
after a header's EV_RXDONE. -/
theorem exec_recv_eq_none {i : Instr} {s t : State} {d : DevIx} (h : exec i s = .next t)
    (hr : (s.link d).recv = none) (ho : (s.dev d).opRx = true) (hne : ∀ bytes, i ≠ .evRxdone d bytes) :
    (t.link d).recv = none := by
  cases exec_effect h with
  | receiving e hc =>
    obtain ⟨-, -, hidle⟩ := checkReceive_eq_none.1 hc
    have hde : d ≠ e := by rintro rfl; rw [ho] at hidle; cases hidle
    simp [hde, hr]
  | selectedIdle e hi ha hidle =>
    have hde : d ≠ e := by rintro rfl; simp [Device.opRx, hidle] at ho
    simp [hde, hr]
  | rxHeader e bytes =>
    have hde : d ≠ e := fun hde => hne bytes (hde ▸ rfl)
    simp [rxHeaderDone, hde, hr]
  | txHeader e =>
    by_cases hde : d = e
    · subst hde; simp [hr]
    · simp [hde, hr]
  | rxPayload e bytes =>
    rcases turnaround_cases e (s.modDev e (storePayload s.cfg bytes)) with ht | ⟨m, q, data, -, -, -, ht⟩ <;>
      rw [rxPayloadDone, ht] <;> simp [hr]
  | transmitted | txPayload | cleared => simp [hr]
  | _ => exact hr

/-- op.TX is cleared by the channel's EV_TXDONE and by a CLEAR that names it (R29). -/
theorem exec_opTx_stays {i : Instr} {s t : State} {d : DevIx} (h : exec i s = .next t) (ho : (s.dev d).opTx = true)
    (hne : i ≠ .evTxdone d) (hclear : ∀ st opm ec, i = .clear d st opm ec → opm.getLsbD 0 = false) :
    (t.dev d).opTx = true := by
  rcases (exec_channelEffect h d).opTx_eq with hk | ⟨hset, -⟩ | ⟨-, ⟨hi, -⟩ | ⟨st, opm, ec, hi, hb⟩⟩
  · exact hk.trans ho
  · exact hset
  · exact absurd hi hne
  · rw [hclear st opm ec hi] at hb; cases hb

/-- op.RX is cleared by the channel's EV_RXDONE and by a CLEAR that names it (R29). -/
theorem exec_opRx_stays {i : Instr} {s t : State} {d : DevIx} (h : exec i s = .next t) (ho : (s.dev d).opRx = true)
    (hne : ∀ bytes, i ≠ .evRxdone d bytes)
    (hclear : ∀ st opm ec, i = .clear d st opm ec → opm.getLsbD 1 = false) : (t.dev d).opRx = true := by
  rcases (exec_channelEffect h d).opRx_eq with hk | ⟨hset, -⟩ | ⟨-, ⟨bytes, hi, -⟩ | ⟨st, opm, ec, hi, hb⟩⟩
  · exact hk.trans ho
  · exact hset
  · exact absurd hi (hne bytes)
  · rw [hclear st opm ec hi] at hb; cases hb

/-! ## What an admitted step does (R142, R186, R187) -/

/-- What the event port decodes to is an event (R81, R87). -/
theorem isCommand_eq_false_of_decode {w : Word} {data : List Byte} {i : Instr}
    (hd : decode ⟨.event, w, data⟩ = .ok i) : i.isCommand = false := by
  simp only [decode, decodeEvent] at hd
  split at hd <;> cases hd <;> rfl

theorem admitted_of_stepAdmitted {s t : State} (h : stepAdmitted s = .next t) :
    step s = .next t ∧ ∀ i, s.inputs.head? = some i → admitInput i s = none := by
  unfold stepAdmitted at h
  split at h
  · cases h
  · next hadm => exact ⟨h, fun i hi => by simpa [hi] using hadm⟩

/-- An admitted step other than a reset leaves the channels and the link as they were, or runs an admitted instruction
`i`, which is one off the command port where it is a command. -/
inductive AdmittedEffect (s t : State) : Prop
  | environmentMoved : (∀ e, t.dev e = s.dev e) → (∀ e, t.link e = s.link e) → AdmittedEffect s t
  | ran (u : State) (i : Instr) : (∀ e, u.dev e = s.dev e) → (∀ e, u.link e = s.link e) → admitInstr i s = none →
      exec i (u.delivered i) = .next t →
      (i.isCommand = true → ∃ w data, s.inputs.head? = some (.command w data) ∧ decode ⟨.command, w, data⟩ = .ok i) →
      AdmittedEffect s t

/-- Running an admitted event word is such a step: the instruction is no command. -/
theorem AdmittedEffect.of_event_word {s t u : State} {w : Word} {data : List Byte}
    (h : runWord ⟨.event, w, data⟩ u = .next t) (ha : admitWord ⟨.event, w, data⟩ s = none)
    (hdev : ∀ e, u.dev e = s.dev e) (hlink : ∀ e, u.link e = s.link e) : AdmittedEffect s t := by
  obtain ⟨i, hd, ha⟩ := admitWord_eq_none ha
  rw [runWord_of_decode u hd] at h
  exact .ran u i hdev hlink ha h fun hc => by rw [isCommand_eq_false_of_decode hd] at hc; cases hc

theorem admittedEffect_of_stepAdmitted {s t : State} (h : stepAdmitted s = .next t)
    (hreset : ∀ draw, s.inputs.head? ≠ some (.reset draw)) : AdmittedEffect s t := by
  obtain ⟨hstep, hadm⟩ := admitted_of_stepAdmitted h
  obtain ⟨-, -, ⟨-, rfl⟩ | ⟨input, rest, hi, ht⟩⟩ := step_eq_next hstep
  · exact .environmentMoved (fun _ => rfl) fun _ => rfl
  have hhead : s.inputs.head? = some input := by rw [hi, List.head?_cons]
  have ha := hadm input hhead
  cases input with
  | command w data =>
    obtain ⟨i, hd, ha⟩ := admitWord_eq_none ha
    rw [takeInput, runWord_of_decode _ hd] at ht
    exact .ran { s with inputs := rest } i (fun _ => rfl) (fun _ => rfl) ha ht fun _ => ⟨w, data, hhead, hd⟩
  | event w data =>
    simp only [takeInput] at ht
    split at ht
    · simp only [admitInput] at ha
      split at ha
      · cases ha
      · next hw => exact .of_event_word ht hw (fun _ => rfl) fun _ => rfl
    · cases ht
  | reset draw => exact absurd hhead (hreset draw)
  | pair c =>
    rcases pairTransfer_cases s c with hr | ⟨q, hq⟩
    · simp only [admitInput, hr] at ha
      cases ha
    · rw [takeInput, hq rest] at ht
      cases ht
      exact .environmentMoved (fun _ => rfl) fun _ => rfl
  | deliver k =>
    simp only [takeInput, deliverEvent] at ht
    split at ht
    · cases ht
    · next e he =>
      simp only [admitInput, he] at ha
      split at ht
      · cases ht
      · split at ha
        · cases ha
        · exact .of_event_word ht ha (fun _ => rfl) fun _ => rfl

theorem ne_evTxdone_of_admitted {i : Instr} {s : State} {d : DevIx} (ha : admitInstr i s = none)
    (hs : (s.link d).send = none) : i ≠ .evTxdone d := by
  rintro rfl
  simp [admitInstr, hs] at ha

theorem ne_evRxdone_of_admitted {i : Instr} {s : State} {d : DevIx} (ha : admitInstr i s = none)
    (hr : (s.link d).recv = none) (bytes : List Byte) : i ≠ .evRxdone d bytes := by
  rintro rfl
  simp [admitInstr, hr] at ha

/-- A transmit direction that is busy without a send of the link stays so. -/
theorem AdmittedEffect.tx_stays_busy {s t : State} {d : DevIx} (h : AdmittedEffect s t)
    (hs : (s.link d).send = none) (ho : (s.dev d).opTx = true)
    (hclear : ∀ w data st opm ec, s.inputs.head? = some (.command w data) →
      decode ⟨.command, w, data⟩ = .ok (.clear d st opm ec) → opm.getLsbD 0 = false) :
    (t.link d).send = none ∧ (t.dev d).opTx = true := by
  cases h with
  | environmentMoved hdev hlink => rw [hdev, hlink]; exact ⟨hs, ho⟩
  | ran u i hdev hlink ha hexec hcmd =>
    have hne := ne_evTxdone_of_admitted ha hs
    have hs' : ((u.delivered i).link d).send = none := (u.delivered_send i d).elim id (by rw [hlink, hs]; exact id)
    have ho' : ((u.delivered i).dev d).opTx = true := by rw [State.delivered_dev, hdev, ho]
    refine ⟨exec_send_eq_none hexec hs' ho' hne, exec_opTx_stays hexec ho' hne ?_⟩
    rintro st opm ec rfl
    obtain ⟨w, data, hhead, hd⟩ := hcmd rfl
    exact hclear w data st opm ec hhead hd

/-- A receive direction that is busy without a receive of the link stays so. -/
theorem AdmittedEffect.rx_stays_busy {s t : State} {d : DevIx} (h : AdmittedEffect s t)
    (hr : (s.link d).recv = none) (ho : (s.dev d).opRx = true)
    (hclear : ∀ w data st opm ec, s.inputs.head? = some (.command w data) →
      decode ⟨.command, w, data⟩ = .ok (.clear d st opm ec) → opm.getLsbD 1 = false) :
    (t.link d).recv = none ∧ (t.dev d).opRx = true := by
  cases h with
  | environmentMoved hdev hlink => rw [hdev, hlink]; exact ⟨hr, ho⟩
  | ran u i hdev hlink ha hexec hcmd =>
    have hne := ne_evRxdone_of_admitted ha hr
    have hr' : ((u.delivered i).link d).recv = none := (u.delivered_recv i d).elim id (by rw [hlink, hr]; exact id)
    have ho' : ((u.delivered i).dev d).opRx = true := by rw [State.delivered_dev, hdev, ho]
    refine ⟨exec_recv_eq_none hexec hr' ho' hne, exec_opRx_stays hexec ho' hne ?_⟩
    rintro st opm ec rfl
    obtain ⟨w, data, hhead, hd⟩ := hcmd rfl
    exact hclear w data st opm ec hhead hd

/-- Settles O31: the delivery of the event ends both operations; after it no admitted instruction but a CLEAR reaches the
direction. -/
theorem faultedDirectionStaysBusy : Obligations.FaultedDirectionStaysBusy := by
  intro s t d h
  refine ⟨fun w data rest i hin hd hfault => ?_, fun hreset => ?_⟩
  · obtain ⟨hstep, -⟩ := admitted_of_stepAdmitted h
    obtain ⟨hc, hm, -⟩ := step_eq_next hstep
    have harrive : State.mayArrive { s with inputs := rest } i = true := by rcases hfault with rfl | ⟨code, rfl⟩ <;> rfl
    rw [step_of_inputs_cons hc hm hin, takeInput_event _ hd, if_pos harrive] at hstep
    exact exec_delivered_fault (s := { s with inputs := rest }) hfault hstep
  · have heff := admittedEffect_of_stepAdmitted h hreset
    exact ⟨heff.tx_stays_busy, heff.rx_stays_busy⟩

end Sys2Proof.Machine
end

section
/-! SUPPORT. The chip-select edge events (43_selection.md R151, R152): a falling edge selects and may arm a receive, a
rising edge deselects. -/

namespace Sys2Proof.Machine

/-! ## The falling edge (R151) -/

theorem exec_evCsfall (s : State) (d : DevIx) :
    exec (.evCsfall d) s =
      .next (if s.ignores d then s
        else if (s.dev d).op = 0 then acceptReceive d (s.modDev d fun D => D.setState maskSel)
        else s.modDev d fun D => D.setState maskSel) := by
  have hop : ((s.modDev d fun D => D.setState maskSel).dev d).op = (s.dev d).op := by simp [Device.setState]
  rw [apply_ite Host.Outcome.next, apply_ite Host.Outcome.next, ← hop]
  rfl

/-- Selecting an idle channel and starting its receive sets SEL and RX_PENDING together. -/
theorem startReceive_select_of_idle {D : Device} (ho : D.op = 0) :
    startReceive (D.setState maskSel) = { D with state := D.state ||| 0x11, op := 0b10#2, rxPos := false } := by
  simp [startReceive, Device.setRx, Device.setState, ho, BitVec.or_assoc]

/-- An armed receive changes its own channel and what the link holds of it, and posts one header receive. -/
theorem acceptReceive_frame (d : DevIx) (s : State) :
    sameControl s (acceptReceive d s) ∧ (acceptReceive d s).undelivered = s.undelivered ∧
      (acceptReceive d s).dev d = startReceive (s.dev d) ∧ sameOthers d s (acceptReceive d s) ∧
      (acceptReceive d s).outputs = s.outputs ++ [.action (.linkRecv d 8)] ∧
      (acceptReceive d s).link d = { s.link d with recv := some 8 } ∧
      ∀ e, e ≠ d → (acceptReceive d s).link e = s.link e :=
  ⟨⟨by simp, by simp, by simp⟩, by simp, by simp, fun e he => by simp [he], by simp, by simp, fun e he => by simp [he]⟩

/-- Settles O32: past the gate of the events the channel is selected, and an idle one starts a receive from there. -/
theorem fallingEdgeSelectsAndArms : Obligations.FallingEdgeSelectsAndArms := by
  intro s d
  rw [exec_evCsfall, ← ignores_eq_true_iff]
  obtain ⟨hctl, henv, hout, hself, hothers⟩ := modDev_frame s d fun D => D.setState maskSel
  refine ⟨fun hi hd ho => ?_, fun hi hd ho => ?_, fun hg => by rw [if_pos hg]⟩
  · rw [ignores_eq_false_iff.2 ⟨hi, hd⟩, if_neg Bool.false_ne_true, if_pos ho]
    obtain ⟨hctl', hund', hself', hothers', hposts⟩ := acceptReceive_frame d (s.modDev d fun D => D.setState maskSel)
    rw [hself, startReceive_select_of_idle ho] at hself'
    exact ⟨_, rfl, hctl', hund', hself', fun e he => (hothers' e he).trans (hothers e he), hposts⟩
  · rw [ignores_eq_false_iff.2 ⟨hi, hd⟩, if_neg Bool.false_ne_true, if_neg ho]
    exact ⟨_, rfl, hctl, henv, hout, hself, hothers⟩

/-! ## The rising edge (R152) -/

theorem exec_evCsrise (s : State) (d : DevIx) :
    exec (.evCsrise d) s = .next (if s.ignores d then s else s.modDev d fun D => D.clearState maskSel) :=
  (apply_ite Host.Outcome.next ..).symm

/-- Settles O33: past the gate of the events, the handler writes its own channel. -/
theorem risingEdgeClearsSelected : Obligations.RisingEdgeClearsSelected := by
  intro s d
  rw [exec_evCsrise, ← ignores_eq_true_iff]
  refine ⟨fun hi hd => ?_, fun hg => by rw [if_pos hg]⟩
  rw [ignores_eq_false_iff.2 ⟨hi, hd⟩, if_neg Bool.false_ne_true]
  exact ⟨_, rfl, modDev_frame ..⟩

end Sys2Proof.Machine
end

section
/-! SUPPORT. The host's observation and corrective commands (44_host_access.md R160 to R162): the fields of the word
STATUS answers, the bytes REGREAD answers, and a CLEAR read field by field. -/

namespace Sys2Proof.Machine

/-! ## The check of a command that names a channel (R160 to R162) -/

theorem checkChannel_ne_none {s : State} {d : DevIx} (h : s.initialized = false ∨ s.cfg.nDev ≤ d.toNat) :
    checkChannel s d ≠ none := by
  rwa [Ne, checkChannel_eq_none, absent_eq_false, not_and_or, Bool.not_eq_true, Nat.not_lt]

theorem checkRegread_ne_none {s : State} {d : DevIx} {reg : Byte}
    (h : s.initialized = false ∨ s.cfg.nDev ≤ d.toNat ∨ s.cfg.regCount ≤ reg.toNat) :
    checkRegread s d reg ≠ none := by
  rwa [Ne, checkRegread_eq_none, absent_eq_false, not_and_or, not_and_or, Bool.not_eq_true, Nat.not_lt, Nat.not_lt]

/-- The answer of a rejection is word 0, and nothing else of the state changes (R172). -/
theorem reject_eq_answer_zero (s : State) (c : RejectClass) :
    s.reject c = { s with outputs := s.outputs ++ [.response 0 []] } := onlyAnswers_reject s

/-! ## STATUS (R160) -/

theorem exec_status {s : State} {d : DevIx} (hc : checkChannel s d = none) :
    exec (.status d) s = .next (s.respond true (statusWord (s.dev d)) []) := by
  simp only [exec, execStatus, hc]

theorem exec_status_rejected {s : State} {d : DevIx} (hc : checkChannel s d ≠ none) :
    exec (.status d) s = .next { s with outputs := s.outputs ++ [.response 0 []] } := by
  obtain ⟨c, hc⟩ := Option.ne_none_iff_exists'.1 hc
  simp only [exec, execStatus, hc, reject_eq_answer_zero]

/-- A field that fits the 63-bit payload stands at the same place in the response word (R82). -/
theorem setWidth_payload_field {n : Nat} (k : Nat) (v : BitVec n) (h : k + n ≤ 63) :
    (v.setWidth 63 <<< k).setWidth 64 = place k v := by
  apply BitVec.eq_of_getLsbD_eq
  intro i hi
  rw [getLsbD_place]
  by_cases hki : k ≤ i
  · by_cases h63 : i < 63
    · simp [hi, h63, hki, Nat.not_lt.2 hki]
    · have hv : v.getLsbD (i - k) = false := BitVec.getLsbD_of_ge v _ (by omega)
      simp [h63, hv]
  · simp [hki, Nat.lt_of_not_le hki]

/-- The answer of STATUS as placed fields: OK above the scalar fields of the channel; with no target its index and its
valid bit are 0 (R82, R160). -/
theorem responseWord_statusWord (D : Device) :
    responseWord true (statusWord D) =
      place 63 1#1 ||| place 0 D.state ||| place 8 D.op ||| place 10 (BitVec.ofBool D.txPos) |||
        place 11 (BitVec.ofBool D.rxPos) ||| place 12 (D.targetDevice.getD 0) |||
        place 16 (BitVec.ofBool D.targetDevice.isSome) ||| place 17 (BitVec.ofBool D.csOut) |||
        place 24 D.errCode := by
  have hok : (0x8000000000000000#64 : Word) = place 63 1#1 := by decide
  have hstate : (D.state.setWidth 63).setWidth 64 = place 0 D.state := by
    rw [← setWidth_payload_field 0 D.state (by decide), BitVec.shiftLeft_zero]
  have htarget : place 12 ((none : Option DevIx).getD 0#4) = 0#64 := by decide
  have hvalid : place 16 (BitVec.ofBool (none : Option DevIx).isSome) = 0#64 := by decide
  have hpresent (t : DevIx) : (1#63 <<< 16).setWidth 64 = place 16 (BitVec.ofBool (some t).isSome) := by
    rw [Option.isSome_some]; decide
  rw [responseWord_true, statusWord]
  cases D.targetDevice with
  | none =>
    simp (disch := omega) only [BitVec.setWidth_or, setWidth_payload_field, hstate, hok, htarget, hvalid,
      BitVec.ofNat_eq_ofNat, BitVec.zero_or, BitVec.or_assoc]
  | some t =>
    simp (disch := omega) only [BitVec.setWidth_or, setWidth_payload_field, hstate, hok, hpresent t,
      Option.getD_some, BitVec.or_assoc]

/-- The bit form of `getElem_place_same`, beside `getLsbD_place_disjoint`. -/
theorem getLsbD_place_same (k : Nat) (b : Bool) (hk : k < 64) : (place k (BitVec.ofBool b)).getLsbD k = b := by
  rw [BitVec.getLsbD_eq_getElem hk, getElem_place_same k b hk]

/-- Settles O34: the answer is put together of placed fields, and each is read back where it was placed. -/
theorem statusAnswersFields : Obligations.StatusAnswersFields := by
  intro s d
  refine ⟨fun hi hd => ?_, fun h => exec_status_rejected (checkChannel_ne_none h)⟩
  have hc : checkChannel s d = none := checkChannel_eq_none.2 ⟨hi, absent_eq_false.2 hd⟩
  refine ⟨_, _, exec_status hc, onlyAnswers_respond (responseWord_statusWord _), ?_⟩
  have hok : (1#1 : BitVec 1) = BitVec.ofBool true := rfl
  simp (disch := omega) only [hok, BitVec.extractLsb'_or, BitVec.getLsbD_or, extract_place_same,
    extract_place_disjoint, getLsbD_place_same, getLsbD_place_disjoint, Bool.or_false, Bool.false_or]
  simp

/-! ## REGREAD (R161) -/

theorem exec_regread {s : State} {d : DevIx} {reg : Byte} (hc : checkRegread s d reg = none) :
    exec (.regread d reg) s =
      .next (s.respond true 0 ((s.dev d).regs.memRead (slotBase s.cfg.regSize reg) s.cfg.regSize)) := by
  simp only [exec, execRegread, hc]

theorem exec_regread_rejected {s : State} {d : DevIx} {reg : Byte} (hc : checkRegread s d reg ≠ none) :
    exec (.regread d reg) s = .next { s with outputs := s.outputs ++ [.response 0 []] } := by
  obtain ⟨c, hc⟩ := Option.ne_none_iff_exists'.1 hc
  simp only [exec, execRegread, hc, reject_eq_answer_zero]

/-- Settles O35: the bytes answered are those of one read of the register file, from the slot's first byte on. -/
theorem regreadAnswersSlot : Obligations.RegreadAnswersSlot := by
  intro s d reg
  refine ⟨fun hi hd hr => ?_, fun h => exec_regread_rejected (checkRegread_ne_none h)⟩
  have hc : checkRegread s d reg = none := checkRegread_eq_none.2 ⟨hi, absent_eq_false.2 hd, hr⟩
  exact ⟨_, _, exec_regread hc, onlyAnswers_respond responseWord_ok, Mem.length_memRead ..,
    fun _ hj => Mem.getD_memRead _ _ _ _ hj⟩

/-! ## CLEAR (R162) -/

theorem exec_clear {s : State} {d : DevIx} (stmask opmask ecmask : Byte) (hc : checkChannel s d = none) :
    exec (.clear d stmask opmask ecmask) s =
      .next (clearOpRx d opmask (clearOpTx d opmask (s.modDev d (clearBits stmask ecmask)))).accept := by
  simp only [exec, execClear, hc]

theorem exec_clear_rejected {s : State} {d : DevIx} (stmask opmask ecmask : Byte) (hc : checkChannel s d ≠ none) :
    exec (.clear d stmask opmask ecmask) s = .next { s with outputs := s.outputs ++ [.response 0 []] } := by
  obtain ⟨c, hc⟩ := Option.ne_none_iff_exists'.1 hc
  simp only [exec, execClear, hc, reject_eq_answer_zero]

/-- The op bits after a CLEAR are those OPMASK does not name. -/
theorem clearChannel_op (stmask opmask ecmask : Byte) (D : Device) :
    (clearChannel stmask opmask ecmask D).op = D.op &&& ~~~(opmask.setWidth 2) := by
  apply BitVec.eq_of_getLsbD_eq
  intro i hi
  obtain rfl | rfl : i = 0 ∨ i = 1 := by omega
  · exact (Device.opTx_clearChannel stmask opmask ecmask D).trans (by simp [Device.opTx])
  · exact (Device.opRx_clearChannel stmask opmask ecmask D).trans (by simp [Device.opRx])

/-- A CLEAR's own channel, its line aside: four fields are written. -/
theorem clearChannel_eq (stmask opmask ecmask : Byte) (D : Device) :
    clearChannel stmask opmask ecmask D =
      { D with
        state := D.state &&& ~~~clearMask stmask
        errCode := D.errCode &&& ~~~ecmask
        op := D.op &&& ~~~(opmask.setWidth 2)
        targetDevice := if opmask.getLsbD 0 && D.opTx then none else D.targetDevice } := by
  have hop : (clearBits stmask ecmask D).opTx = D.opTx := rfl
  rw [← clearChannel_op stmask opmask ecmask D]
  simp only [clearChannel, hop]
  cases opmask.getLsbD 0 && D.opTx <;> cases opmask.getLsbD 1 <;> rfl

/-- The target a CLEAR on a channel releases: the recorded one, where op.TX is ended (R162). -/
def releasedTarget (s : State) (d : DevIx) (opmask : Byte) : Option DevIx :=
  if endsTx s d opmask then (s.dev d).targetDevice else none

theorem releasedTarget_eq_some_iff {s : State} {d e : DevIx} {opmask : Byte} :
    releasedTarget s d opmask = some e ↔ endsTx s d opmask = true ∧ (s.dev d).targetDevice = some e := by
  cases h : endsTx s d opmask <;> simp [releasedTarget, h]

/-- Clearing state and err_code bits first changes nothing of which target is released. -/
theorem releasedTarget_clearBits (s : State) (d : DevIx) (stmask opmask ecmask : Byte) :
    releasedTarget (s.modDev d (clearBits stmask ecmask)) d opmask = releasedTarget s d opmask := by
  simp [releasedTarget, endsTx, clearBits, Device.clearState, Device.opTx]

/-- Where no target is released, op.TX's part of a CLEAR writes its own channel only, and drives nothing. -/
theorem sameEnvironment_clearOpTx_of_released_none {s : State} {d : DevIx} {opmask : Byte}
    (h : releasedTarget s d opmask = none) : sameEnvironment s (clearOpTx d opmask s) := by
  rw [clearOpTx_eq]
  split
  · next he =>
    rw [releasedTarget, if_pos he] at h
    rw [h]
    exact (sameEnvironment.refl s).modDev d _
  · exact sameEnvironment.refl s

theorem sameEnvironment.clearOpRx {s t : State} (h : sameEnvironment s t) (d : DevIx) (opmask : Byte) :
    sameEnvironment s (clearOpRx d opmask t) := by
  unfold Machine.clearOpRx
  split
  · exact h.modDev d _
  · exact h

/-- What a CLEAR leaves of the environment where it releases no target, or in the general one (log entry 13). -/
theorem clear_sameEnvironment {s : State} {d : DevIx} (stmask : Byte) {opmask : Byte} (ecmask : Byte)
    (h : releasedTarget s d opmask = none ∨ s.cfg.environment = .general) :
    sameEnvironment s (clearOpRx d opmask (clearOpTx d opmask (s.modDev d (clearBits stmask ecmask)))) := by
  have htx : sameEnvironment (s.modDev d (clearBits stmask ecmask))
      (clearOpTx d opmask (s.modDev d (clearBits stmask ecmask))) := by
    rcases h with h | hg
    · exact sameEnvironment_clearOpTx_of_released_none ((releasedTarget_clearBits ..).trans h)
    · exact sameEnvironment_clearOpTx (s := s.modDev d _) hg d opmask
  exact sameEnvironment.clearOpRx htx d opmask

/-- The deselecting drive of the released target is all a CLEAR puts out before its response. -/
theorem clear_outputs (s : State) (d : DevIx) (stmask opmask ecmask : Byte) :
    (clearOpRx d opmask (clearOpTx d opmask (s.modDev d (clearBits stmask ecmask)))).outputs =
      s.outputs ++
        (match releasedTarget s d opmask with
          | none => []
          | some x => [.action (.csDrive x true)]) := by
  rw [clearOpRx_outputs, clearOpTx_outputs, ← releasedTarget_clearBits s d stmask opmask ecmask]
  rfl

/-- Settles O36: the accepted CLEAR, read field by field, with the target it releases. -/
theorem clearClearsChosenBits : Obligations.ClearClearsChosenBits := by
  intro s d stmask opmask ecmask D m freed
  have hfreed : freed = releasedTarget s d opmask := rfl
  refine ⟨fun hi hd => ?_, fun h => exec_clear_rejected stmask opmask ecmask (checkChannel_ne_none h)⟩
  have hc : checkChannel s d = none := checkChannel_eq_none.2 ⟨hi, absent_eq_false.2 hd⟩
  refine ⟨_, exec_clear stmask opmask ecmask hc, ?_⟩
  simp only [State.accept_eq, State.respond_dev, State.respond_link, State.respond_undelivered,
    State.respond_outputs, clear_dev, clear_outputs, hfreed, releasedTarget_eq_some_iff]
  refine ⟨⟨by simp, by simp, by simp⟩, ?own, fun e he => by simp only [if_neg he], ?outputs,
    fun e => ⟨by simp, by simp⟩, fun h => ?environment⟩
  case own => simp only [if_true, clearChannel_eq]; rfl
  case outputs => exact congrArg (_ ++ [Output.response · []]) responseWord_ok
  case environment =>
    have henv := clear_sameEnvironment stmask ecmask h
    exact ⟨henv.2, fun e => congrArg LinkSide.csIn (henv.link e)⟩

end Sys2Proof.Machine
end

section
/-! SUPPORT. What stands in the place of exceptions (60_exceptions.md R184, R187, R189, R190): an instruction keeps to
its channel, the contracts and the admission check that refuses their breaches, and the edges and the pairings of the
reference environment. -/

namespace Sys2Proof.Machine

/-! ## Channels are isolated (R184) -/

/-- Settles O43: of another channel's instruction a channel only feels a drive of its line, where it is the target. -/
theorem channelsAreIsolated : Obligations.ChannelsAreIsolated := by
  intro i s t d e h hi he
  refine ⟨exec_sameButCsOut h hi he, fun hcs => ?_⟩
  have heff := exec_channelEffect h e
  generalize t.dev e = D' at heff hcs
  cases heff with
  | kept => exact absurd rfl hcs
  | driven i d' level hg hi' hline =>
    obtain rfl : d' = d := Option.some.inj (hi'.symm.trans hi)
    rcases hline with htarget | ⟨len, dst, rxreg, rxlen, opc, data, hnamed, -⟩
    · exact .inl htarget
    · exact .inr ⟨len, dst, rxreg, rxlen, opc, data, hnamed⟩
  | _ => exact absurd (Option.some.inj hi) he

/-! ## At most one operation outstanding in a direction (R62, R187) -/

/-- The link holds no send of a channel with op.TX clear. -/
theorem State.LinkInv.send_eq_none {s : State} (hl : s.LinkInv) {d : DevIx} (ho : (s.dev d).opTx = false) :
    (s.link d).send = none := by
  refine Option.not_isSome_iff_eq_none.1 fun hsome => ?_
  rw [((hl d).1 hsome).2] at ho; cases ho

/-- If the output posts a link operation, the link of `s` holds none of its direction. -/
def PostsOnFree (s : State) : Output → Prop
  | .action (.linkSend d _) => (s.link d).send = none
  | .action (.linkRecv d _) => (s.link d).recv = none
  | .action (.csDrive _ _) | .action (.settle _) | .response _ _ => True

theorem postsOnFree_of_mem_selectOutputs (s : State) {c : Config} {target : Option DevIx} {o : Output}
    (h : o ∈ selectOutputs c target) : PostsOnFree s o := by
  cases target with
  | none => cases h
  | some t =>
    simp only [selectOutputs, List.mem_cons, List.not_mem_nil, or_false] at h
    rcases h with rfl | rfl | rfl <;> trivial

/-- From `s` to `t` link operations are posted only where the link of `s` holds none of that direction. -/
def AllPostsOnFree (s t : State) : Prop := ∃ new, t.outputs = s.outputs ++ new ∧ ∀ o ∈ new, PostsOnFree s o

theorem AllPostsOnFree.of_outputs_eq {s t : State} (h : t.outputs = s.outputs) : AllPostsOnFree s t :=
  ⟨[], by rw [h, List.append_nil], by simp⟩

theorem AllPostsOnFree.snoc {s t u : State} {o : Output} (h : AllPostsOnFree s t)
    (hu : u.outputs = t.outputs ++ [o]) (ho : PostsOnFree s o) : AllPostsOnFree s u := by
  obtain ⟨new, hnew, hfree⟩ := h
  exact ⟨new ++ [o], by rw [hu, hnew, List.append_assoc], by simpa [or_imp, forall_and] using ⟨hfree, ho⟩⟩

theorem AllPostsOnFree.respond {s t : State} (h : AllPostsOnFree s t) (ok : Bool) (p : BitVec 63)
    (bytes : List Byte) : AllPostsOnFree s (t.respond ok p bytes) := h.snoc rfl trivial

/-- The header of an accepted TRANSMIT is the one operation it posts (R110). -/
theorem AllPostsOnFree.acceptTransmit {s t : State} {d : DevIx} (h : t.outputs = s.outputs)
    (hfree : (s.link d).send = none) (target : Option DevIx) (len dst rxreg rxlen opc : Byte) (data : List Byte) :
    AllPostsOnFree s (acceptTransmit d target len dst rxreg rxlen opc data t) := by
  have hselect : AllPostsOnFree s { t with outputs := s.outputs ++ selectOutputs t.cfg target } :=
    ⟨_, rfl, fun o => postsOnFree_of_mem_selectOutputs s⟩
  exact hselect.snoc (o := .action (.linkSend d _)) (by rw [acceptTransmit_outputs, h]) hfree

/-- The deselecting drive is all that TxPayloadDone puts out (R120). -/
theorem AllPostsOnFree.txPayloadDone (d : DevIx) (s : State) : AllPostsOnFree s (txPayloadDone d s) := by
  cases hx : (s.dev d).targetDevice with
  | none => exact .of_outputs_eq (by simp [Machine.txPayloadDone, hx])
  | some x =>
    exact (AllPostsOnFree.of_outputs_eq (t := s) rfl).snoc (o := .action (.csDrive x true))
      (by simp [Machine.txPayloadDone, hx]) trivial

/-- A CLEAR posts nothing (R162). -/
theorem AllPostsOnFree.clear (d : DevIx) (stmask opmask ecmask : Byte) (s : State) :
    AllPostsOnFree s (clearOpRx d opmask (clearOpTx d opmask (s.modDev d (clearBits stmask ecmask)))) := by
  refine ⟨_, clear_outputs s d stmask opmask ecmask, ?_⟩
  cases releasedTarget s d opmask with
  | none => nofun
  | some x => rw [List.forall_mem_singleton]; trivial

/-- An instruction that finds the link ready posts only in directions the link holds nothing of: the op bit it found
clear, or the completion that has ended the operation before it, says so. -/
theorem exec_allPostsOnFree {i : Instr} {s t : State} (hl : s.LinkInv) (hready : LinkReady s i)
    (h : exec i s = .next t) : AllPostsOnFree s t := by
  have hsame : AllPostsOnFree s s := .of_outputs_eq rfl
  cases exec_effect h with
  | ignored | errored | aborted | selectedBusy | deselected => exact .of_outputs_eq rfl
  | answered _ ok p bytes => exact hsame.respond ok p bytes
  | initialised => exact hsame.respond true 0 []
  | transmitted d target len dst rxreg rxlen opc data hc =>
    obtain ⟨-, -, -, -, -, hidle⟩ := checkTransmit_eq_none.1 hc
    exact (AllPostsOnFree.acceptTransmit rfl (hl.send_eq_none hidle) ..).respond ..
  | receiving d hc =>
    obtain ⟨-, -, hidle⟩ := checkReceive_eq_none.1 hc
    exact (hsame.snoc (acceptReceive_outputs d s) (hl.recv_eq_none hidle)).respond ..
  | txHeader d => exact hsame.snoc rfl hready
  | txPayload d => exact .txPayloadDone d s
  | rxHeader d bytes => exact hsame.snoc rfl hready
  | rxPayload d bytes =>
    rw [rxPayloadDone]
    rcases turnaround_cases d (s.modDev d (storePayload s.cfg bytes)) with ht | ⟨m, q, data, hc, -, -, ht⟩ <;> rw [ht]
    · exact .of_outputs_eq rfl
    · have hidle : (s.dev d).opTx = false := by simpa using checkTransmit_opTx hc
      exact .acceptTransmit (t := s.modDev d _) rfl (hl.send_eq_none hidle) ..
  | selectedIdle d hi ha ho =>
    have hidle : (s.dev d).opRx = false := by simp [Device.opRx, ho]
    exact hsame.snoc (acceptReceive_outputs d _) (hl.recv_eq_none hidle)
  | cleared d stmask opmask ecmask => exact (AllPostsOnFree.clear d stmask opmask ecmask s).respond ..

/-- Settles O50: an admitted instruction finds the link ready once its delivery is noted. -/
theorem atMostOneOutstandingPerDirection : Obligations.AtMostOneOutstandingPerDirection := by
  intro s t i d new hl ha h hnew
  obtain ⟨new', hnew', hfree⟩ := exec_allPostsOnFree (hl.delivered i) (linkReady_of_admitted ha) h
  obtain rfl : new = new' := by
    rw [State.delivered_outputs, hnew] at hnew'
    exact List.append_cancel_left hnew'
  exact ⟨fun ⟨_, hmem⟩ => hfree _ hmem, fun ⟨_, hmem⟩ => hfree _ hmem⟩

/-! ## Breaches refused by the admission check (R187, R190) -/

theorem stepAdmitted_of_refused {s : State} {i : Input} {rest : List Input} {r : Refusal}
    (hi : s.inputs = i :: rest) (h : admitInput i s = some r) : stepAdmitted s = .refused r := by
  simp [stepAdmitted, hi, h]

theorem stepAdmitted_command_refused {s : State} {w : Word} {data : List Byte} {rest : List Input} {r : Refusal}
    (h : admitWord ⟨.command, w, data⟩ s = some r) (hi : s.inputs = .command w data :: rest) :
    stepAdmitted s = .refused r := stepAdmitted_of_refused hi h

theorem stepAdmitted_event_refused {s : State} {w : Word} {data : List Byte} {rest : List Input} {r : Refusal}
    (h : admitWord ⟨.event, w, data⟩ s = some r) (hi : s.inputs = .event w data :: rest) :
    stepAdmitted s = .refused r := stepAdmitted_of_refused hi (by simp only [admitInput, h])

theorem canonicalWord_encode (i : Instr) : canonicalWord (encode i) = true := by
  simp [canonicalWord, decode_encode]

/-- The word of an encoded instruction passes; what is left is the instruction's contract. -/
theorem admitWord_encode (i : Instr) (s : State) : admitWord (encode i) s = admitInstr i s := by
  simp [admitWord, decode_encode, canonicalWord_encode]

theorem admitWord_reservedCode {e : Encoded} {err : DecodeError} (s : State) (hd : decode e = .error err) :
    admitWord e s = some .reservedCode := by
  simp [admitWord, hd]

/-- A word with a bit its instruction does not use is not the word the instruction is encoded as (U13). -/
theorem admitWord_reservedBits {e : Encoded} {i : Instr} (s : State) (hd : decode e = .ok i)
    (hw : e.word &&& ~~~usedBits i ≠ 0) : admitWord e s = some .reservedBits := by
  have hne : (encode i).word ≠ e.word := fun heq => hw (heq ▸ encode_word_and_not_usedBits i)
  simp [admitWord, canonicalWord, hd, hne]

theorem admitInstr_clear_inFlight {s : State} {d : DevIx} {st opm ec : Byte}
    (h : ((s.link d).send ≠ none ∧ opm.getLsbD 0 = true) ∨ ((s.link d).recv ≠ none ∧ opm.getLsbD 1 = true)) :
    admitInstr (.clear d st opm ec) s = some .clearInFlight := by
  refine if_pos ?_
  simpa only [Bool.or_eq_true, Bool.and_eq_true, Option.isSome_iff_ne_none, and_comm] using h

theorem admitInstr_transmit_shortData {s : State} {d : DevIx} {target : Option DevIx}
    {len dst rxreg rxlen opc : Byte} {data : List Byte} (h : data.length < min len.toNat 64) :
    admitInstr (.transmit d target len dst rxreg rxlen opc data) s = some .shortData :=
  if_neg fun hwf => absurd (wellFormed_transmit_iff.1 hwf) (Nat.not_le.2 h)

/-- Settles O52: the check looks at the code, then at the unused bits, then at the instruction's contract. -/
theorem contractBreachesRefusedByAdmission : Obligations.ContractBreachesRefusedByAdmission := by
  intro s rest
  refine ⟨fun d hs => ?strayTxdone, fun d bytes hr => ?strayRxdone, fun d bytes n hr hlen => ?length,
    fun d st opm ec hheld => ?clear, fun d tg len dst rr rl opc data hshort => ?shortData,
    fun w data hcode => ?reservedCommand, fun w data hcode => ?reservedEvent,
    fun w data i hd hw => stepAdmitted_command_refused (admitWord_reservedBits s hd hw),
    fun w data i hd hw => stepAdmitted_event_refused (admitWord_reservedBits s hd hw)⟩
  case strayTxdone =>
    exact stepAdmitted_event_refused ((admitWord_encode (.evTxdone d) s).trans (by simp [admitInstr, hs]))
  case strayRxdone =>
    exact stepAdmitted_event_refused ((admitWord_encode (.evRxdone d bytes) s).trans (by simp [admitInstr, hr]))
  case length =>
    exact stepAdmitted_event_refused ((admitWord_encode (.evRxdone d bytes) s).trans (by simp [admitInstr, hr, hlen]))
  case clear =>
    exact stepAdmitted_command_refused
      ((admitWord_encode (.clear d st opm ec) s).trans (admitInstr_clear_inFlight hheld))
  case shortData =>
    exact stepAdmitted_command_refused
      ((admitWord_encode (.transmit d tg len dst rr rl opc data) s).trans (admitInstr_transmit_shortData hshort))
  case reservedCommand =>
    exact stepAdmitted_command_refused (admitWord_reservedCode s (decodeCommand_reserved data hcode))
  case reservedEvent =>
    exact stepAdmitted_event_refused (admitWord_reservedCode s (decodeEvent_reserved data hcode))

/-! ## Edges of the reference environment (R189 a, b) -/

/-- A drive to the level already present makes no event. -/
theorem State.emit_csDrive_loopback_same {s : State} {t : DevIx} {level : Bool}
    (henv : s.cfg.environment = .loopback) (hl : (s.link t).csIn = level) :
    s.emit (.csDrive t level) = { s with outputs := s.outputs ++ [.action (.csDrive t level)] } := by
  simp [State.emit, State.environmentTakes, henv, hl]

/-- A drive to the other level changes CS_IN and makes one edge event. -/
theorem State.emit_csDrive_loopback_edge {s : State} {t : DevIx} {level : Bool}
    (henv : s.cfg.environment = .loopback) (hl : (s.link t).csIn ≠ level) :
    s.emit (.csDrive t level) =
      { s.modLink t fun l => { l with csIn := level } with
        undelivered := s.undelivered ++ [edgeEvent t level]
        outputs := s.outputs ++ [.action (.csDrive t level)] } := by
  simp [State.emit, State.environmentTakes, henv, hl]

theorem decode_edgeEvent (t : DevIx) (level : Bool) :
    decode ⟨.event, (edgeEvent t level).word, (edgeEvent t level).data⟩ =
      .ok (if level then .evCsrise t else .evCsfall t) := by
  cases level with
  | false => exact decode_encode (.evCsfall t)
  | true => exact decode_encode (.evCsrise t)

/-- Settles O54: the drive changes CS_IN, and makes its edge event, exactly where the level is not there yet. -/
theorem driveMakesEdgeInLoopback : Obligations.DriveMakesEdgeInLoopback := by
  intro s t level henv
  refine ⟨?_, fun hl => ?_, fun hl => ⟨edgeEvent t level, ?_, decode_edgeEvent t level⟩⟩
  · by_cases hl : (s.link t).csIn = level
    · rw [State.emit_csDrive_loopback_same henv hl]; exact hl
    · rw [State.emit_csDrive_loopback_edge henv hl]
      exact congrArg LinkSide.csIn ((s.link_modLink t t fun l => { l with csIn := level }).trans (if_pos rfl))
  · rw [State.emit_csDrive_loopback_same henv hl]
  · rw [State.emit_csDrive_loopback_edge henv hl]

/-! ## Pairings of the reference environment (R189 c to e) -/

/-- Which event words are an EV_TXDONE of `d` (R80, R81). -/
theorem decode_eq_evTxdone_iff {e : Event} {d : DevIx} :
    decode ⟨.event, e.word, e.data⟩ = .ok (.evTxdone d) ↔ fieldCode e.word = 1 ∧ fieldDev e.word = d := by
  constructor
  · intro h
    simp only [decode, decodeEvent] at h
    split at h <;> cases h
    next hcode => exact ⟨BitVec.eq_of_toNat_eq hcode, rfl⟩
  · rintro ⟨hcode, rfl⟩
    simp [decode, decodeEvent, hcode]

/-- Which event words are an EV_RXDONE of `d` (R80, R81). -/
theorem exists_decode_eq_evRxdone_iff {e : Event} {d : DevIx} :
    (∃ bytes, decode ⟨.event, e.word, e.data⟩ = .ok (.evRxdone d bytes)) ↔
      fieldCode e.word = 2 ∧ fieldDev e.word = d := by
  constructor
  · rintro ⟨bytes, h⟩
    simp only [decode, decodeEvent] at h
    split at h <;> cases h
    next hcode => exact ⟨BitVec.eq_of_toNat_eq hcode, rfl⟩
  · rintro ⟨hcode, rfl⟩
    exact ⟨e.data, by simp [decode, decodeEvent, hcode]⟩

/-- A completion of a pairing of `c` with `p` is undelivered. -/
def State.completionUndelivered (s : State) (c p : DevIx) : Prop :=
  ∃ e ∈ s.undelivered, decode ⟨.event, e.word, e.data⟩ = .ok (.evTxdone c) ∨
    ∃ bytes, decode ⟨.event, e.word, e.data⟩ = .ok (.evRxdone p bytes)

/-- The pairing's test of the undelivered events finds exactly these completions. -/
theorem State.completionUndelivered_iff {s : State} {c p : DevIx} :
    s.completionUndelivered c p ↔
      s.undelivered.any (fun e => (completionOf c e && decide (fieldCode e.word = 1)) ||
        (completionOf p e && decide (fieldCode e.word = 2))) = true := by
  simp only [State.completionUndelivered, decode_eq_evTxdone_iff, exists_decode_eq_evRxdone_iff, List.any_eq_true,
    completionOf, Bool.or_eq_true, Bool.and_eq_true, decide_eq_true_eq]
  refine exists_congr fun e => and_congr_right fun _ => ?_
  tauto

/-- The peer of R189 (d). -/
theorem State.peer_eq_some {s : State} {c p : DevIx} (henv : s.cfg.environment = .loopback) (hn : s.cfg.nDev = 2)
    (hcp : (c = 0 ∧ p = 1) ∨ (c = 1 ∧ p = 0)) : s.peer c = some p := by
  rcases hcp with ⟨rfl, rfl⟩ | ⟨rfl, rfl⟩ <;> simp [State.peer, henv, hn]

section

variable {s : State} {c p : DevIx} {bytes : List Byte} (hp : s.peer c = some p) (hs : (s.link c).send = some bytes)

include hp hs

/-- A send and a receive of its length on the peer complete together (R189 c). -/
theorem pairTransfer_eq_next (hr : (s.link p).recv = some bytes.length) (hu : ¬ s.completionUndelivered c p) :
    pairTransfer c s =
      .next { s with undelivered := s.undelivered ++ [eventOf (.evTxdone c), eventOf (.evRxdone p bytes)] } := by
  rw [State.completionUndelivered_iff, Bool.not_eq_true] at hu
  simp only [pairTransfer, hp, hs, hr]
  rw [if_pos ⟨trivial, hu⟩]

/-- A send has no completion step without such a receive, or where it has been paired already (R189 e, U12). -/
theorem pairTransfer_eq_refused (h : (s.link p).recv ≠ some bytes.length ∨ s.completionUndelivered c p) :
    pairTransfer c s = .refused .noMatchingReceive := by
  simp only [pairTransfer, hp, hs]
  cases hr : (s.link p).recv with
  | none => rfl
  | some n =>
    refine if_neg ?_
    rintro ⟨hlen, hu⟩
    rcases h with hne | hu'
    · exact hne (hr.trans (congrArg some hlen.symm))
    · rw [State.completionUndelivered_iff, hu] at hu'; cases hu'

end

/-- Settles O55: the peer of two devices is the other one, and the pairing looks at its receive. -/
theorem pairCompletesSendWithReceive : Obligations.PairCompletesSendWithReceive := by
  intro s c p bytes henv hn hcp hs
  have hp := State.peer_eq_some henv hn hcp
  exact ⟨fun hr hu => ⟨eventOf (.evTxdone c), eventOf (.evRxdone p bytes), _, pairTransfer_eq_next hp hs hr hu, rfl,
    decode_encode (.evTxdone c), decode_encode (.evRxdone p bytes)⟩, pairTransfer_eq_refused hp hs⟩

end Sys2Proof.Machine
end

section
/-! SUPPORT. The reset and the hazards (70_reset_and_hazards.md R200 to R217): the values a reset leaves, what STATUS
answers after INIT, the invariants at reset, and the buffer of a transmit in flight. -/

namespace Sys2Proof.Machine

/-! ## The values a reset leaves (R200, R202) -/

/-- A drawn byte inside its buffer is what the buffer reads (R200, U1). -/
theorem read_drawn {size a : Nat} {bytes : List Byte} (hs : a < size) (hl : a < bytes.length) :
    (Mem.memWrite [] 0 size bytes).read a = bytes.getD a 0 := by
  have hin : 0 ≤ a ∧ a < 0 + (bytes.take size).length := by rw [List.length_take]; omega
  rw [Mem.memWrite, Mem.read_writeList _ _ rfl, if_pos hin]
  simp [List.getD_eq_getElem?_getD, hs]

theorem deviceAtReset_scalars (c : Config) (draw : ChannelDraw) : (deviceAtReset c draw).scalarsAtReset c :=
  ⟨rfl, rfl, rfl, rfl, rfl, rfl, rfl⟩

@[simp] theorem State.dev_blockReset (s : State) (draw : List ChannelDraw) (d : DevIx) :
    (s.blockReset draw).dev d = deviceAtReset s.cfg (draw.getD d.toNat ChannelDraw.blank) :=
  State.dev_resetWith s.cfg draw d

@[simp] theorem State.link_blockReset (s : State) (draw : List ChannelDraw) (d : DevIx) :
    (s.blockReset draw).link d = linkAtReset s.cfg :=
  State.link_resetWith s.cfg draw d

/-- Settles O6: a reset that is taken leaves the block reset, whose memories list the drawn bytes. -/
theorem resetLeavesStatedValues : Obligations.ResetLeavesStatedValues := by
  intro s draw rest hc hm hi
  refine ⟨_, step_of_inputs_cons hc hm hi, rfl, rfl, rfl, rfl, rfl, fun d => ?_⟩
  rw [State.dev_blockReset, State.link_blockReset]
  obtain ⟨hstate, hop, htx, hrx, htarget, herr, hcs⟩ :=
    deviceAtReset_scalars s.cfg (draw.getD d.toNat ChannelDraw.blank)
  refine ⟨hstate, hop, htx, hrx, htarget, herr, hcs, rfl, rfl, fun _ => rfl, fun c hdraw => ?_⟩
  rw [List.getD_eq_getElem?_getD, hdraw, Option.getD_some]
  exact ⟨fun _ => read_drawn, fun _ => read_drawn, fun _ => read_drawn⟩

/-! ## STATUS after reset and INIT (R204) -/

/-- Of a channel at its reset values STATUS shows cs_out alone (R160, R204). -/
theorem statusWord_of_scalarsAtReset {c : Config} {D : Device} (h : D.scalarsAtReset c) :
    statusWord D = (BitVec.ofBool c.csOutReset).setWidth 63 <<< 17 := by
  obtain ⟨hstate, hop, htx, hrx, htarget, herr, hcs⟩ := h
  simp [statusWord, hstate, hop, htx, hrx, htarget, herr, hcs]

/-- The answer of STATUS on a channel at its reset values: OK, and cs_out in bit 17 (R82, R204). -/
theorem responseWord_statusWord_of_scalarsAtReset {c : Config} {D : Device} (h : D.scalarsAtReset c) :
    responseWord true (statusWord D) =
      0x8000000000000000#64 ||| (BitVec.ofBool c.csOutReset).setWidth 64 <<< 17 := by
  rw [statusWord_of_scalarsAtReset h, responseWord_true]
  cases c.csOutReset <;> rfl

/-- The machine after reset and INIT, its one answer included. -/
def afterResetAndInit (c : Config) (draw : List ChannelDraw) : State :=
  { State.resetWith c draw with initialized := true }.accept

theorem exec_init_resetWith (c : Config) (draw : List ChannelDraw) :
    exec .init (State.resetWith c draw) = .next (afterResetAndInit c draw) := exec_init _

theorem afterResetAndInit_scalars (c : Config) (draw : List ChannelDraw) (d : DevIx) :
    ((afterResetAndInit c draw).dev d).scalarsAtReset c := by
  have hdev : (afterResetAndInit c draw).dev d = deviceAtReset c (draw.getD d.toNat ChannelDraw.blank) :=
    State.dev_resetWith c draw d
  rw [hdev]
  exact deviceAtReset_scalars c _

/-- Settles O7: INIT leaves the channels at their reset values, and a channel that exists answers with its line. -/
theorem statusAfterResetAndInit : Obligations.StatusAfterResetAndInit := by
  intro c draw d hd
  have hcheck : checkChannel (afterResetAndInit c draw) d = none := checkChannel_eq_none.2 ⟨rfl, absent_eq_false.2 hd⟩
  have hscalars := afterResetAndInit_scalars c draw d
  have hword := responseWord_statusWord_of_scalarsAtReset hscalars
  obtain ⟨hstate, hop, -, -, htarget, herr, hcs⟩ := hscalars
  refine ⟨_, _, exec_init_resetWith c draw, hstate, hop, htarget, herr, hcs, exec_status hcheck, ?_, ?_⟩
  · rw [State.respond_outputs, hword]
  · rintro rfl
    rw [State.respond_outputs, hword]
    rfl

/-! ## The invariants at reset (R200, R202) -/

/-- Right after reset the link holds nothing (R202). -/
theorem resetWith_linkInv (c : Config) (draw : List ChannelDraw) : (State.resetWith c draw).LinkInv := by
  intro d
  rw [State.link_resetWith]
  exact ⟨nofun, nofun⟩

/-- Settles O46: the reset channels meet their invariant, and the link holds nothing. -/
theorem resetMeetsInvariants : Obligations.ResetMeetsInvariants :=
  ⟨resetWith_inv (by decide) [], resetWith_linkInv _ [],
    fun c draw hc => ⟨resetWith_inv hc draw, resetWith_linkInv c draw⟩⟩

/-! ## The buffer of a transmit in flight (R217) -/

/-- A field that a channel's update keeps is kept in every channel. -/
theorem State.modDev_field {α : Type} (p : Device → α) {f : Device → Device} (hf : ∀ D, p (f D) = p D) (s : State)
    (d e : DevIx) : p ((s.modDev d f).dev e) = p (s.dev e) := by
  rw [State.dev_modDev]
  split
  · next he => rw [hf, he]
  · rfl

/-- The turnaround starts a transmit only where none is in flight (R111, R123). -/
theorem turnaround_txBuff {s : State} {e : DevIx} (d : DevIx) (ho : (s.dev e).opTx = true) :
    ((turnaround d s).dev e).txBuff = (s.dev e).txBuff := by
  rcases turnaround_cases d s with ht | ⟨m, q, data, hc, -, -, ht⟩ <;> rw [ht]
  rw [acceptTransmit_none, State.emit_dev, State.dev_modDev, if_neg (ne_of_checkTransmit_eq_none ho hc)]

/-- The end of a receive stores into rx_buff and a slot, and its turnaround is refused where a transmit is in flight. -/
theorem rxPayloadDone_txBuff {s : State} {e : DevIx} (d : DevIx) (bytes : List Byte) (ho : (s.dev e).opTx = true) :
    ((rxPayloadDone d bytes s).dev e).txBuff = (s.dev e).txBuff := by
  have hop := State.modDev_field Device.opTx (Device.opTx_storePayload s.cfg bytes) s d e
  have hbuff := State.modDev_field Device.txBuff (storePayload_txBuff s.cfg bytes) s d e
  exact (turnaround_txBuff d (hop.trans ho)).trans hbuff

/-- Outside its own EV_RXDONE a channel's tx_buff is written by an accepted TRANSMIT only, which finds op.TX clear. -/
theorem ChannelEffect.txBuff_eq {s : State} {e : DevIx} {i : Instr} {D' : Device} (h : ChannelEffect s e i D')
    (ho : (s.dev e).opTx = true) (hne : ∀ bytes, i ≠ .evRxdone e bytes) : D'.txBuff = (s.dev e).txBuff := by
  cases h with
  | transmitted target len dst rxreg rxlen opc data level hg hc => exact absurd rfl (ne_of_checkTransmit_eq_none ho hc)
  | rxHeader | rxPayload | turnaround => exact absurd rfl (hne _)
  | cleared => exact clearChannel_txBuff ..
  | _ => rfl

/-- Either phase of a receive completion keeps tx_buff. -/
theorem exec_evRxdone_txBuff {s t : State} {d e : DevIx} {bytes : List Byte}
    (h : exec (.evRxdone d bytes) s = .next t) (ho : (s.dev e).opTx = true) :
    (t.dev e).txBuff = (s.dev e).txBuff := by
  cases exec_effect h with
  | ignored | answered => rfl
  | rxHeader =>
    rw [rxHeaderDone, State.emit_dev]
    exact State.modDev_field Device.txBuff (by intro; rfl) s d e
  | rxPayload => exact rxPayloadDone_txBuff d bytes ho

/-- Settles O42: only a TRANSMIT and a turnaround write a tx_buff, and both are refused where op.TX is set. -/
theorem txBufferKeptWhileInFlight : Obligations.TxBufferKeptWhileInFlight := by
  intro i s t e h ho
  by_cases hrx : ∃ bytes, i = .evRxdone e bytes
  · obtain ⟨bytes, rfl⟩ := hrx
    exact exec_evRxdone_txBuff h ho
  · exact (exec_channelEffect h e).txBuff_eq ho (not_exists.1 hrx)

end Sys2Proof.Machine
end
